-- ==== Sys2Proof/Word.lean ====
section
/-! DEFINITION. The plain types of the DCC signal block: bytes, the 64-bit host command and response words
(R80, R86), the 10-byte packet buffer (R22), and the names of generators, pin levels and timers (R3, R35, R38). -/

namespace Sys2Proof

/-- One byte, bits numbered 7 down to 0 (R7). -/
abbrev Byte := BitVec 8

/-- A host command word `W` (R80). -/
abbrev CommandWord := BitVec 64

/-- A response word `R` (R86). -/
abbrev ResponseWord := BitVec 64

/-- A packet's `buffer`: `BUFFER_BYTES = 10` bytes (R6, R22). -/
abbrev Buffer := Vector Byte 10

/-- The two generators, `OPS = 0` and `PROG = 1` (R3). -/
inductive Gen where
  | ops
  | prog
  deriving DecidableEq, Repr, Inhabited

/-- The generator's number in bit 59 of a command word (R80). -/
def Gen.code : Gen → BitVec 1
  | .ops => 0#1
  | .prog => 1#1

/-- The generator a `G` bit names (R80). -/
def Gen.ofBit : Bool → Gen
  | false => .ops
  | true => .prog

/-- The generator's name, fixed by `g` (R26, R230). -/
def Gen.name : Gen → String
  | .ops => "OPS"
  | .prog => "PROG"

/-- The other generator. -/
def Gen.other : Gen → Gen
  | .ops => .prog
  | .prog => .ops

/-- A direction pin's level (R38). -/
inductive Level where
  | low
  | high
  deriving DecidableEq, Repr, Inhabited

/-- The two timers of a generator: the full-cycle timer and the pulse timer (R35). -/
inductive TimerKind where
  | full
  | pulse
  deriving DecidableEq, Repr, Inhabited

end Sys2Proof
end

