-- ==== Sys2Proof/Syntax.lean ====
section
/-! DEFINITION. The instructions: one constructor for every row of spec/opcode_table.json. They are the nine host commands
(R81), the catch-all for a word that spells no command (R82), the two timer interrupts (R185, R186, R330) and the six DCC
frames the block generates (R88, R89). -/

namespace Sys2Proof

/-- One row of the opcode table, its operands of the widths R84 and R89 give them. -/
inductive Instr where
  /-- CONFIGURE `g`, `PIN`, `POOL` (R230). -/
  | configure (g : Gen) (pin : BitVec 8) (pool : BitVec 16)
  /-- START `g` (R240). -/
  | start (g : Gen)
  /-- STOP `g` (R248). -/
  | stop (g : Gen)
  /-- LOAD_PACKET `g`, `LEN`, `REP`, `P0..P4` (R124); the bytes `Pj` with `j ≥ LEN` are operand bytes that are ignored (R81). -/
  | loadPacket (g : Gen) (len : BitVec 3) (rep : BitVec 8) (p0 p1 p2 p3 p4 : Byte)
  /-- IS_EMPTY `g` (R159). -/
  | isEmpty (g : Gen)
  /-- WAIT_EMPTY `g` (R160). -/
  | waitEmpty (g : Gen)
  /-- READ_CV `CV` (R282). -/
  | readCv (cv : BitVec 11)
  /-- WRITE_PROG_CV_BYTE `CV`, `VAL` (R283). -/
  | writeProgCvByte (cv : BitVec 11) (val : Byte)
  /-- WRITE_PROG_CV_BIT `CV`, `BIT`, `VAL` (R284). -/
  | writeProgCvBit (cv : BitVec 11) (bit : BitVec 3) (val : Bool)
  /-- A command word that spells no command (R82). -/
  | illegal (w : CommandWord)
  /-- The full-cycle interrupt of `g` (R185). -/
  | irqFull (g : Gen)
  /-- The pulse interrupt of `g` (R186). -/
  | irqPulse (g : Gen)
  /-- The frame `00 00 00` (R88, R263). -/
  | dccReset
  /-- The frame `FF 00 FF` (R88). -/
  | dccIdle
  /-- The frame `0x74|AH, AL, D, X` (R264). -/
  | smVerifyByte (a : BitVec 10) (d x : Byte)
  /-- The frame `0x7C|AH, AL, D, X` (R265). -/
  | smWriteByte (a : BitVec 10) (d x : Byte)
  /-- The frame `0x78|AH, AL, 0xE0|V<<3|B, X` (R266). -/
  | smVerifyBit (a : BitVec 10) (v : Bool) (b : BitVec 3) (x : Byte)
  /-- The frame `0x78|AH, AL, 0xF0|V<<3|B, X` (R267). -/
  | smWriteBit (a : BitVec 10) (v : Bool) (b : BitVec 3) (x : Byte)
  deriving DecidableEq, Repr

/-- What an agent of the block fetches: a command word (R80), the frame bytes of a load in progress, byte 0 first (R87),
or a latched timer interrupt (R330). -/
inductive Code where
  | word (w : CommandWord)
  | frame (bytes : List Byte)
  | interrupt (k : TimerKind) (g : Gen)
  deriving DecidableEq, Repr

/-- The pseudo-instruction LOAD_RESET `g`, `r` (R94). -/
def loadReset (g : Gen) (r : BitVec 8) : Instr := .loadPacket g 2 r 0x00 0x00 0x00 0x00 0x00

/-- The pseudo-instruction LOAD_IDLE `g`, `r` (R94). -/
def loadIdle (g : Gen) (r : BitVec 8) : Instr := .loadPacket g 2 r 0xFF 0x00 0x00 0x00 0x00

end Sys2Proof
end

