-- ==== Sys2Proof/WellFormed.lean ====
section
/-! DEFINITION. Which instructions are well formed. A command's operands have the widths of their fields, so every command is;
an ILLEGAL instruction is well formed when its word matches no command's row of the table (R82), and a service-mode frame when
its last byte is the XOR of the others (R87). -/

namespace Sys2Proof

/-- A command's row of spec/opcode_table.json: a word spells the command exactly when its bits under `mask` are `pattern`. -/
structure CommandRow where
  mask : CommandWord
  pattern : CommandWord
  deriving DecidableEq, Repr

/-- The word's bits under the row's mask are the row's pattern (R81: every bit not named is reserved and must be 0). -/
def CommandRow.fits (r : CommandRow) (w : CommandWord) : Bool := w &&& r.mask == r.pattern

/-- The nine command rows of the table, in its order: `mask`, then `match`. -/
def tableRows : List CommandRow :=
  [⟨0xF7FF00FF0000FFFF, 0x1000000000000000⟩, ⟨0xF7FFFFFFFFFFFFFF, 0x2000000000000000⟩,
   ⟨0xF7FFFFFFFFFFFFFF, 0x3000000000000000⟩, ⟨0xF0000000000000FF, 0x4000000000000000⟩,
   ⟨0xF7FFFFFFFFFFFFFF, 0x5000000000000000⟩, ⟨0xF7FFFFFFFFFFFFFF, 0x6000000000000000⟩,
   ⟨0xFFFFF800FFFFFFFF, 0x7000000000000000⟩, ⟨0xFFFFF800FFFFFF00, 0x8000000000000000⟩,
   ⟨0xFFFFF800FFFFF8FE, 0x9000000000000000⟩]

/-- The word is one of the nine commands (R82). -/
def spellsCommand (w : CommandWord) : Bool := tableRows.any (·.fits w)

/-- The XOR of a service-mode frame's payload, from R262 and R264 to R267: `base | AH`, `AL` and the third byte. -/
def frameChecksum (base : Byte) (a : BitVec 10) (third : Byte) : Byte :=
  (base ||| (a >>> 8).setWidth 8) ^^^ a.setWidth 8 ^^^ third

/-- The third byte of a bit frame, `base | V<<3 | B` (R89). -/
def bitThird (base : Byte) (v : Bool) (b : BitVec 3) : Byte := base ||| (if v then 0x08 else 0x00) ||| b.setWidth 8

/-- An ILLEGAL instruction's word spells no command (R82), and a service-mode frame ends with the XOR of its payload (R87). -/
def Instr.wf : Instr → Bool
  | .illegal w => !spellsCommand w
  | .smVerifyByte a d x => x == frameChecksum 0x74 a d
  | .smWriteByte a d x => x == frameChecksum 0x7C a d
  | .smVerifyBit a v b x => x == frameChecksum 0x78 a (bitThird 0xE0 v b)
  | .smWriteBit a v b x => x == frameChecksum 0x78 a (bitThird 0xF0 v b)
  | .configure _ _ _ | .start _ | .stop _ | .loadPacket _ _ _ _ _ _ _ _ | .isEmpty _ | .waitEmpty _ | .readCv _
  | .writeProgCvByte _ _ | .writeProgCvBit _ _ _ | .irqFull _ | .irqPulse _ | .dccReset | .dccIdle => true

end Sys2Proof
end

