-- ==== Sys2Proof/Decode.lean ====
section
/-! DEFINITION. The decoder, total on every word (R82) and on every list of frame bytes, rejecting by name, and the encoder,
written from the same rows. -/

namespace Sys2Proof

/-- Why a word or a frame is no row of the table. -/
inductive Reject where
  /-- `OP` is 0x0 or 0xA..0xF (R82). -/
  | unassignedOpcode
  /-- `G = 1` in a service-mode command (R82). -/
  | serviceGenerator
  /-- A reserved bit is set (R82). -/
  | reservedBitSet
  /-- The bytes are none of the six frames the block generates (R92). -/
  | notABlockFrame
  deriving DecidableEq, Repr

/-! ### Rows and bit fields -/

def rowConfigure : CommandRow := ⟨0xF7FF00FF0000FFFF, 0x1000000000000000⟩
def rowStart : CommandRow := ⟨0xF7FFFFFFFFFFFFFF, 0x2000000000000000⟩
def rowStop : CommandRow := ⟨0xF7FFFFFFFFFFFFFF, 0x3000000000000000⟩
def rowLoadPacket : CommandRow := ⟨0xF0000000000000FF, 0x4000000000000000⟩
def rowIsEmpty : CommandRow := ⟨0xF7FFFFFFFFFFFFFF, 0x5000000000000000⟩
def rowWaitEmpty : CommandRow := ⟨0xF7FFFFFFFFFFFFFF, 0x6000000000000000⟩
def rowReadCv : CommandRow := ⟨0xFFFFF800FFFFFFFF, 0x7000000000000000⟩
def rowWriteProgCvByte : CommandRow := ⟨0xFFFFF800FFFFFF00, 0x8000000000000000⟩
def rowWriteProgCvBit : CommandRow := ⟨0xFFFFF800FFFFF8FE, 0x9000000000000000⟩

/-- Byte 0 of a service-mode frame: the six header bits over `AA = A[9:8]` (R89). -/
def smByte0 (header : BitVec 6) (a : BitVec 10) : Byte := header ++ a.extractLsb' 8 2

/-- Byte 1 of a service-mode frame: `A[7:0]` (R89). -/
def smByte1 (a : BitVec 10) : Byte := a.extractLsb' 0 8

/-- Byte 2 of a bit frame: `1110VBBB` or `1111VBBB`, by its four header bits (R89). -/
def smBitByte (header : BitVec 4) (v : Bool) (b : BitVec 3) : Byte := header ++ BitVec.ofBool v ++ b

/-- The bytes of SM_VERIFY_BYTE, `011101AA AAAAAAAA DDDDDDDD XXXXXXXX` (R89). -/
def verifyByteFrame (a : BitVec 10) (d x : Byte) : List Byte := [smByte0 0b011101 a, smByte1 a, d, x]

/-- The bytes of SM_WRITE_BYTE, `011111AA AAAAAAAA DDDDDDDD XXXXXXXX` (R89). -/
def writeByteFrame (a : BitVec 10) (d x : Byte) : List Byte := [smByte0 0b011111 a, smByte1 a, d, x]

/-- The bytes of SM_VERIFY_BIT, `011110AA AAAAAAAA 1110VBBB XXXXXXXX` (R89). -/
def verifyBitFrame (a : BitVec 10) (v : Bool) (b : BitVec 3) (x : Byte) : List Byte :=
  [smByte0 0b011110 a, smByte1 a, smBitByte 0b1110 v b, x]

/-- The bytes of SM_WRITE_BIT, `011110AA AAAAAAAA 1111VBBB XXXXXXXX` (R89). -/
def writeBitFrame (a : BitVec 10) (v : Bool) (b : BitVec 3) (x : Byte) : List Byte :=
  [smByte0 0b011110 a, smByte1 a, smBitByte 0b1111 v b, x]

/-- The bytes of DCC_RESET, `00 00 00` (R88). -/
def resetFrame : List Byte := [0x00, 0x00, 0x00]

/-- The bytes of DCC_IDLE, `FF 00 FF` (R88). -/
def idleFrame : List Byte := [0xFF, 0x00, 0xFF]

/-- `OP = W[63:60]` (R80). -/
def opField (w : CommandWord) : BitVec 4 := w.extractLsb' 60 4

/-- `G = W[59]` (R80). -/
def genField (w : CommandWord) : Gen := Gen.ofBit (w.getLsbD 59)

/-- `CV = W[42:32]` (R81). -/
def cvField (w : CommandWord) : BitVec 11 := w.extractLsb' 32 11

/-- The reason a word that fits no row is refused (R82). -/
def rejectReason (w : CommandWord) : Reject :=
  if opField w = 0 ∨ 9 < (opField w).toNat then .unassignedOpcode
  else if 7 ≤ (opField w).toNat ∧ w.getLsbD 59 then .serviceGenerator
  else .reservedBitSet

/-- A command word, read by the rows of R81; every field is an unsigned number read from its bits (R84). -/
def decodeCommand (w : CommandWord) : Except Reject Instr :=
  if rowConfigure.fits w then .ok (.configure (genField w) (w.extractLsb' 40 8) (w.extractLsb' 16 16))
  else if rowStart.fits w then .ok (.start (genField w))
  else if rowStop.fits w then .ok (.stop (genField w))
  else if rowLoadPacket.fits w then
    .ok (.loadPacket (genField w) (w.extractLsb' 56 3) (w.extractLsb' 48 8) (w.extractLsb' 40 8) (w.extractLsb' 32 8)
      (w.extractLsb' 24 8) (w.extractLsb' 16 8) (w.extractLsb' 8 8))
  else if rowIsEmpty.fits w then .ok (.isEmpty (genField w))
  else if rowWaitEmpty.fits w then .ok (.waitEmpty (genField w))
  else if rowReadCv.fits w then .ok (.readCv (cvField w))
  else if rowWriteProgCvByte.fits w then .ok (.writeProgCvByte (cvField w) (w.extractLsb' 0 8))
  else if rowWriteProgCvBit.fits w then .ok (.writeProgCvBit (cvField w) (w.extractLsb' 8 3) (w.getLsbD 0))
  else .error (rejectReason w)

/-- "The decoder is total: every 64-bit word is either one of the nine commands of rule R81 or illegal" (R82). -/
def decodeWord (w : CommandWord) : Instr :=
  match decodeCommand w with
  | .ok i => i
  | .error _ => .illegal w

/-- The address field `A = byte0[1:0] ‖ byte1` of a service-mode frame (R89). -/
def smAddress (b0 b1 : Byte) : BitVec 10 := b0.extractLsb' 0 2 ++ b1

/-- A bit frame by the four header bits of its byte 2 (R89). -/
def decodeBitFrame (a : BitVec 10) (b2 x : Byte) : Except Reject Instr :=
  if b2.extractLsb' 4 4 = 0b1110#4 then .ok (.smVerifyBit a (b2.getLsbD 3) (b2.extractLsb' 0 3) x)
  else if b2.extractLsb' 4 4 = 0b1111#4 then .ok (.smWriteBit a (b2.getLsbD 3) (b2.extractLsb' 0 3) x)
  else .error .notABlockFrame

/-- The frames the block generates, by their patterns (R88, R89), byte 0 first. -/
def decodeFrame : List Byte → Except Reject Instr
  | [b0, b1, b2] =>
    if b0 = 0x00 ∧ b1 = 0x00 ∧ b2 = 0x00 then .ok .dccReset
    else if b0 = 0xFF ∧ b1 = 0x00 ∧ b2 = 0xFF then .ok .dccIdle
    else .error .notABlockFrame
  | [b0, b1, b2, x] =>
    if b0.extractLsb' 2 6 = 0b011101#6 then .ok (.smVerifyByte (smAddress b0 b1) b2 x)
    else if b0.extractLsb' 2 6 = 0b011111#6 then .ok (.smWriteByte (smAddress b0 b1) b2 x)
    else if b0.extractLsb' 2 6 = 0b011110#6 then decodeBitFrame (smAddress b0 b1) b2 x
    else .error .notABlockFrame
  | _ => .error .notABlockFrame

/-- The ISR entry point of a latched interrupt: "fixed by the generator and the timer" (R76, R330). -/
def decodeInterrupt : TimerKind → Gen → Instr
  | .full, g => .irqFull g
  | .pulse, g => .irqPulse g

/-- The instruction a fetched code stands for. -/
def decode : Code → Except Reject Instr
  | .word w => .ok (decodeWord w)
  | .frame bytes => decodeFrame bytes
  | .interrupt k g => .ok (decodeInterrupt k g)

/-- The code of an instruction, from the field layouts of R81, R88 and R89 and the sources of R330. -/
def encode : Instr → Code
  | .configure g pin pool => .word (0x1#4 ++ g.code ++ 0#11 ++ pin ++ 0#8 ++ pool ++ 0#16)
  | .start g => .word (0x2#4 ++ g.code ++ 0#59)
  | .stop g => .word (0x3#4 ++ g.code ++ 0#59)
  | .loadPacket g len rep p0 p1 p2 p3 p4 =>
    .word (0x4#4 ++ g.code ++ len ++ rep ++ p0 ++ p1 ++ p2 ++ p3 ++ p4 ++ 0#8)
  | .isEmpty g => .word (0x5#4 ++ g.code ++ 0#59)
  | .waitEmpty g => .word (0x6#4 ++ g.code ++ 0#59)
  | .readCv cv => .word (0x7#4 ++ 0#17 ++ cv ++ 0#32)
  | .writeProgCvByte cv val => .word (0x8#4 ++ 0#17 ++ cv ++ 0#24 ++ val)
  | .writeProgCvBit cv bit val => .word (0x9#4 ++ 0#17 ++ cv ++ 0#21 ++ bit ++ 0#7 ++ BitVec.ofBool val)
  | .illegal w => .word w
  | .irqFull g => .interrupt .full g
  | .irqPulse g => .interrupt .pulse g
  | .dccReset => .frame resetFrame
  | .dccIdle => .frame idleFrame
  | .smVerifyByte a d x => .frame (verifyByteFrame a d x)
  | .smWriteByte a d x => .frame (writeByteFrame a d x)
  | .smVerifyBit a v b x => .frame (verifyBitFrame a v b x)
  | .smWriteBit a v b x => .frame (writeBitFrame a v b x)

/-- Byte `k` of the number `w`, counted from the least significant. -/
def numberByte (w k : Nat) : Byte := BitVec.ofNat 8 (w / 256 ^ k)

/-- The code a row of the opcode table lays out in `nbits` bits: a 64-bit command word, or a frame of 3 or 4 bytes read as one
number with byte 0 the most significant (R89, "byte 0 first"). -/
def tableCode (nbits w : Nat) : Option Code :=
  match nbits with
  | 64 => some (.word (BitVec.ofNat 64 w))
  | 32 => some (.frame [numberByte w 3, numberByte w 2, numberByte w 1, numberByte w 0])
  | 24 => some (.frame [numberByte w 2, numberByte w 1, numberByte w 0])
  | _ => none

/-- The instruction the decoder reads from a table row's bits. -/
def decodeTableWord (nbits w : Nat) : Option Instr :=
  match tableCode nbits w with
  | none => none
  | some c =>
    match decode c with
    | .ok i => some i
    | .error _ => none

/-- A generator in the textual form of R93. -/
def genText (g : Gen) : String := g.name

/-- The payload list of LOAD_PACKET in the textual form of R93. -/
def payloadText : List Byte → String
  | [] => ""
  | [b] => toString b.toNat
  | b :: c :: bs => toString b.toNat ++ ", " ++ payloadText (c :: bs)

/-- The textual form of a host command (R93). A LOAD_PACKET whose `LEN` exceeds the five payload fields has none, nor has an
instruction that is no host command. -/
def Instr.text : Instr → Option String
  | .configure g pin pool => some ("CONFIGURE " ++ genText g ++ ", " ++ toString pin.toNat ++ ", " ++ toString pool.toNat)
  | .start g => some ("START " ++ genText g)
  | .stop g => some ("STOP " ++ genText g)
  | .loadPacket g len rep p0 p1 p2 p3 p4 =>
    if len.toNat ≤ 5 then
      some ("LOAD_PACKET " ++ genText g ++ ", [" ++ payloadText ([p0, p1, p2, p3, p4].take len.toNat) ++ "], "
        ++ toString rep.toNat)
    else none
  | .isEmpty g => some ("IS_EMPTY " ++ genText g)
  | .waitEmpty g => some ("WAIT_EMPTY " ++ genText g)
  | .readCv cv => some ("READ_CV " ++ toString cv.toNat)
  | .writeProgCvByte cv val => some ("WRITE_PROG_CV_BYTE " ++ toString cv.toNat ++ ", " ++ toString val.toNat)
  | .writeProgCvBit cv bit val =>
    some ("WRITE_PROG_CV_BIT " ++ toString cv.toNat ++ ", " ++ toString bit.toNat ++ ", " ++ toString val.toNat)
  | .illegal _ | .irqFull _ | .irqPulse _ | .dccReset | .dccIdle | .smVerifyByte _ _ _ | .smWriteByte _ _ _
  | .smVerifyBit _ _ _ _ | .smWriteBit _ _ _ _ => none

/-! ### Reading the textual form (R93, R94) -/

/-- A token of a line: a name or number, a comma, or a bracket. -/
inductive Token where
  | item (s : List Char)
  | comma
  | lbracket
  | rbracket
  deriving DecidableEq, Repr

/-- The characters collected so far, in reverse, as a token before the others. -/
def flushItem (cur : List Char) (ts : List Token) : List Token := if cur = [] then ts else .item cur.reverse :: ts

/-- The tokens of a line; `;` to the end of the line is a comment (R93). -/
def tokens : List Char → List Char → List Token
  | [], cur => flushItem cur []
  | c :: cs, cur =>
    if c = ';' then flushItem cur []
    else if c = ' ' then flushItem cur (tokens cs [])
    else if c = ',' then flushItem cur (.comma :: tokens cs [])
    else if c = '[' then flushItem cur (.lbracket :: tokens cs [])
    else if c = ']' then flushItem cur (.rbracket :: tokens cs [])
    else tokens cs (c :: cur)

/-- The value of a digit. -/
def digitValue (c : Char) : Option Nat :=
  if 48 ≤ c.toNat ∧ c.toNat ≤ 57 then some (c.toNat - 48)
  else if 97 ≤ c.toNat ∧ c.toNat ≤ 102 then some (c.toNat - 87)
  else if 65 ≤ c.toNat ∧ c.toNat ≤ 70 then some (c.toNat - 55)
  else none

/-- The number a list of digits spells in a base, after `n`. -/
def digitsValue (base : Nat) : Nat → List Char → Option Nat
  | n, [] => some n
  | n, c :: cs =>
    match digitValue c with
    | none => none
    | some d => if d < base then digitsValue base (n * base + d) cs else none

/-- A decimal or `0x` hexadecimal number (R93). -/
def numberOf : List Char → Option Nat
  | [] => none
  | '0' :: 'x' :: d :: ds => digitsValue 16 0 (d :: ds)
  | ds => digitsValue 10 0 ds

/-- A number that fits an operand's field of `w` bits. -/
def operandOf (w : Nat) (s : List Char) : Option (BitVec w) :=
  match numberOf s with
  | none => none
  | some n => if n < 2 ^ w then some (BitVec.ofNat w n) else none

/-- A generator's name. -/
def genOf (s : List Char) : Option Gen :=
  if s = ['O', 'P', 'S'] then some .ops else if s = ['P', 'R', 'O', 'G'] then some .prog else none

/-- The bytes of a bracket list, and the tokens after it. -/
def bracketBytes : List Token → Option (List Byte × List Token)
  | .rbracket :: ts => some ([], ts)
  | .item x :: .rbracket :: ts => (operandOf 8 x).map fun b => ([b], ts)
  | .item x :: .comma :: ts =>
    match operandOf 8 x, bracketBytes ts with
    | some b, some (bs, rest) => some (b :: bs, rest)
    | _, _ => none
  | _ => none

/-- LOAD_PACKET with a payload of at most five bytes; the list gives `LEN` by its length (R93). -/
def loadOf (g : Gen) (payload : List Byte) (rep : BitVec 8) : Option Instr :=
  if payload.length ≤ 5 then
    some (.loadPacket g (BitVec.ofNat 3 payload.length) rep (payload.getD 0 0) (payload.getD 1 0) (payload.getD 2 0)
      (payload.getD 3 0) (payload.getD 4 0))
  else none

/-- A command whose one operand is a generator. -/
def genCommandOf (name : String) (g : Gen) : Option Instr :=
  if name = "START" then some (.start g)
  else if name = "STOP" then some (.stop g)
  else if name = "IS_EMPTY" then some (.isEmpty g)
  else if name = "WAIT_EMPTY" then some (.waitEmpty g)
  else none

/-- A command of two operands: WRITE_PROG_CV_BYTE, or a pseudo-instruction (R94). -/
def twoCommandOf (name : String) (x y : List Char) : Option Instr :=
  if name = "WRITE_PROG_CV_BYTE" then
    match operandOf 11 x, operandOf 8 y with
    | some cv, some v => some (.writeProgCvByte cv v)
    | _, _ => none
  else if name = "LOAD_RESET" then
    match genOf x, operandOf 8 y with
    | some g, some r => some (loadReset g r)
    | _, _ => none
  else if name = "LOAD_IDLE" then
    match genOf x, operandOf 8 y with
    | some g, some r => some (loadIdle g r)
    | _, _ => none
  else none

/-- A command of three operands. -/
def threeCommandOf (name : String) (x y z : List Char) : Option Instr :=
  if name = "CONFIGURE" then
    match genOf x, operandOf 8 y, operandOf 16 z with
    | some g, some pin, some pool => some (.configure g pin pool)
    | _, _, _ => none
  else if name = "WRITE_PROG_CV_BIT" then
    match operandOf 11 x, operandOf 3 y, operandOf 1 z with
    | some cv, some b, some v => some (.writeProgCvBit cv b (v.getLsbD 0))
    | _, _, _ => none
  else none

/-- The command a line's tokens spell. -/
def commandOf : List Token → Option Instr
  | [.item m, .item x] =>
    if String.ofList m = "READ_CV" then (operandOf 11 x).map .readCv else (genOf x).bind (genCommandOf (String.ofList m))
  | [.item m, .item x, .comma, .item y] => twoCommandOf (String.ofList m) x y
  | [.item m, .item x, .comma, .item y, .comma, .item z] => threeCommandOf (String.ofList m) x y z
  | .item m :: .item x :: .comma :: .lbracket :: ts =>
    if String.ofList m = "LOAD_PACKET" then
      match genOf x, bracketBytes ts with
      | some g, some (payload, [.comma, .item r]) => (operandOf 8 r).bind (loadOf g payload)
      | _, _ => none
    else none
  | _ => none

/-- The command a line of text spells, a pseudo-instruction as the LOAD_PACKET it expands to (R93, R94). -/
def Instr.ofText (line : String) : Option Instr := commandOf (tokens line.toList [])

end Sys2Proof
end

