-- ==== Sys2Proof/Config.lean ====
section
/-! DEFINITION. What is fixed for the machine: the parameters of 00_scope.md rule R6 that have a value, the OPEN
parameters (constants with no body: nothing can be proved about their values), and the free values the spec calls draws. -/

namespace Sys2Proof.Config

/-! ### Parameters with a value (R6) -/

/-- `PREAMBLE_BITS`: "Treat 22 as normative". -/
def preambleBits : Nat := 22

/-- `PAYLOAD_LEN_MIN` (R6, R87, R125). -/
def payloadLenMin : Nat := 2

/-- `PAYLOAD_LEN_MAX` (R6, R87, R125). -/
def payloadLenMax : Nat := 5

/-- `T1_FULL`, the period of a "1" cell in µs (R181). -/
def t1Full : Nat := 116

/-- `T1_HALF`, the half-period of a "1" cell in µs (R181). -/
def t1Half : Nat := 58

/-- `T0_FULL`, the period of a "0" cell in µs (R181). -/
def t0Full : Nat := 196

/-- `T0_HALF`, the half-period of a "0" cell in µs (R181). -/
def t0Half : Nat := 98

/-- `BOOT_RESET_REPEATS` (R240). -/
def bootResetRepeats : BitVec 8 := 20

/-- `BOOT_IDLE_REPEATS` (R240). -/
def bootIdleRepeats : BitVec 8 := 10

/-- `ADC_SAMPLES`, the reads of one ACK check (R272). -/
def adcSamples : BitVec 8 := 250

/-- `ADC_FULL_SCALE · ACK_MA = 4096 · 60`, the numerator of the threshold (R270). -/
def ackNumerator : Nat := 4096 * 60

/-- `ADC_SAMPLE_INTERVAL_US`, a lower bound (R272, D15). -/
def adcSampleIntervalUs : Nat := 2000

/-- `POOL_POLL_US`, a lower bound (R126, D16). -/
def poolPollUs : Nat := 2000

/-- `STOP_WAIT_US`, a lower bound (R249). -/
def stopWaitUs : Nat := 250000

/-- `MAX_CV_ATTEMPTS` (R283). -/
def maxCvAttempts : BitVec 3 := 5

/-- `CV_MIN` (R261). -/
def cvMin : Nat := 1

/-- `CV_MAX` (R261). -/
def cvMax : Nat := 1024

/-- The least pool CONFIGURE accepts (R232, D29). -/
def poolMin : Nat := 2

/-- The largest ISR latency an implementation may have is below this many µs (R360). -/
def isrBudgetUs : Nat := 58

/-! ### OPEN parameters (R6): the implementation's, so constants with no body. -/

/-- `MAX_MA[PROG]`, the motor board's answer to `get_max_milliamps("PROG")`, a u16 (R338, I15). -/
opaque maxMaProg : BitVec 16

/-- `EMPTY_POLL_US` (R160, I9). -/
opaque emptyPollUs : Nat

/-- `ISR_LATENCY_MAX`, Λ (R192, I16). -/
opaque isrLatencyMax : Nat

/-- `TIMER_INDEX[g][k]`, which cannot be observed (R337, D49). -/
opaque timerIndex : Gen → TimerKind → Nat

/-! ### Free values: what the spec calls a draw, and the choice among agents whose order it leaves open. -/

/-- The level of a direction pin at power-on, "unspecified (draw)" (R41, I18). -/
opaque powerOnPinLevel : Gen → Level

/-- The `n`-th free choice among the agents that have a step (R11, R331, D1). -/
opaque freeChoice : Nat → Nat

/-- How many steps the host lets pass in its `n`-th wait before it must move: finite, and otherwise open (R191, D43). -/
opaque hostPatience : Nat → Nat

/-- The `n`-th free ADC sample, in 0..4095 (R271, I13). -/
opaque freeAdc : Nat → BitVec 12

/-- The `n`-th free GPIO setup result (R233, I14). -/
opaque freeGpioOk : Nat → Bool

/-- The `n`-th free timer setup result (R233, I14). -/
opaque freeTimerOk : Nat → Bool

end Sys2Proof.Config
end

