-- ==== Sys2Proof/Machine/State.lean ====
section
/-! DEFINITION. The state of the block (10_state.md, R20 to R41) as plain data, the reasons a step can stop, and the state after
power-on (R41, R350). The fields `HostState.load`, `SmState.verifying`, `Timer.age`, `State.inputs` and `State.params` are the
model's own (log entries 3, 4, 5, 6, 7); R192 asks for `Timer.age` when the latency is above 0. -/

namespace Sys2Proof.Machine

/-- A packet: a pool slot or the idle singleton (R22). -/
structure Packet where
  /-- `buffer`, the stream bits MSB-first per byte (R22, R62) -/
  buffer : Buffer
  /-- `num_bits`, 0 or one of 49, 58, 67, 76 (R22) -/
  numBits : BitVec 8
  /-- `current_bit`, the cursor (R24) -/
  currentBit : BitVec 8
  /-- `repeats_remaining` (R25) -/
  repeats : BitVec 8
  deriving DecidableEq, Repr

/-- Every field 0: a fresh slot (R152) and a slot zeroed by STOP (R250). -/
def Packet.zero : Packet where
  buffer := Vector.replicate 10 0
  numBits := 0
  currentBit := 0
  repeats := 0

/-- A hardware timer (R35). `age` counts the ticks its latched interrupt has waited (R192). -/
structure Timer where
  begun : Bool
  counter : Nat
  alarm : Nat
  autoreload : Bool
  alarmEn : Bool
  attached : Bool
  latched : Bool
  age : Nat
  deriving DecidableEq, Repr

/-- A timer at power-on: "every Bool false, counter 0, alarm 0" (R41). -/
def Timer.off : Timer where
  begun := false
  counter := 0
  alarm := 0
  autoreload := false
  alarmEn := false
  attached := false
  latched := false
  age := 0

/-- `current`, the packet the ISR plays (R28). -/
inductive Current where
  | none
  | slot (i : Nat)
  | idlePkt
  deriving DecidableEq, Repr

/-- `mode` (R27). -/
inductive Mode where
  | unconfigured
  | idle
  | running
  deriving DecidableEq, Repr

/-- `pin_mode` (R38). -/
inductive PinMode where
  | input
  | output
  deriving DecidableEq, Repr

/-- The block's only storage of one generator: the packet slots of its pool, slot `i` at position `i` (R60, R152). -/
abbrev Memory := List Packet

/-- One generator (R26). Its `name` is fixed by `g` (`Gen.name`). -/
structure GenState where
  mode : Mode
  dirPin : BitVec 8
  poolSize : Nat
  slots : Memory
  /-- FIFO of slot indices, head first (R150, R153) -/
  free : List Nat
  /-- FIFO of slot indices, head first (R150, R154) -/
  pending : List Nat
  filling : Option Nat
  idle : Packet
  current : Current
  /-- `timer[FULL]` -/
  full : Timer
  /-- `timer[PULSE]` -/
  pulse : Timer
  pinMode : PinMode
  pinLevel : Level
  deriving DecidableEq, Repr

/-- Where the host is inside a LOAD_PACKET: its entry checks (R125), slot acquisition (R126), fill (R127), publication (R128). -/
inductive LoadStage where
  | entry
  | acquire
  | fill
  | publish
  deriving DecidableEq, Repr

/-- Whose LOAD_PACKET it is: the host's own command (R124), START's steps 1 and 2 (R240), or the service-mode engine's (R268). -/
inductive LoadSite where
  | caller
  | bootReset
  | bootIdle
  | engine
  deriving DecidableEq, Repr

/-- Where the host is inside the command in execution (R33). -/
inductive HostPhase where
  /-- at the command's entry step; also where a host with no command rests, which R33 and R41 leave open (DESIGN CHOICE, log entry 2) -/
  | entry
  /-- CONFIGURE continuing with START's entry checks (R231, R240) -/
  | startEntry
  /-- inside a LOAD_PACKET (R125 to R128) -/
  | load (site : LoadSite) (stage : LoadStage)
  /-- START step 3 (R241) -/
  | arm
  /-- the poll loop of WAIT_EMPTY (R160) -/
  | poll
  /-- STOP step 3, after its wait (R250) -/
  | drain
  /-- inside ACK_CHECK (R272) -/
  | sample
  /-- the final step of a write whose attempts are used up (R281, R283) -/
  | finish
  deriving DecidableEq, Repr

/-- The operands of the LOAD_PACKET in progress: its generator, its frame with the checksum, its repeat count (R124, R127). -/
structure LoadReg where
  gen : Gen
  frame : List Byte
  repeats : BitVec 8
  deriving DecidableEq, Repr

/-- The host interface (R33). -/
structure HostState where
  cmd : Option CommandWord
  phase : HostPhase
  wakeAt : Nat
  resp : Option ResponseWord
  /-- the model's own field (log entry 3) -/
  load : LoadReg
  deriving DecidableEq, Repr

/-- `sm.op` (R34). -/
inductive SmOp where
  | none
  | readCv
  | writeByte
  | writeBit
  deriving DecidableEq, Repr

/-- `SmPhase` (R280). -/
inductive SmPhase where
  | entry
  | loadReset
  | loadFrame
  | wait
  | sample
  | loadTrail
  | done
  deriving DecidableEq, Repr

/-- The service-mode engine (R34). -/
structure SmState where
  op : SmOp
  cv : BitVec 16
  bit : BitVec 3
  value : BitVec 8
  bitIndex : BitVec 4
  acc : BitVec 8
  attempt : BitVec 3
  thr : BitVec 32
  k : BitVec 8
  sum : BitVec 32
  nOk : BitVec 8
  phase : SmPhase
  /-- a write attempt is in its second group, the verify (the model's own field, log entry 4) -/
  verifying : Bool
  deriving DecidableEq, Repr

/-- An agent of the block (R11). -/
inductive Agent where
  | host
  | isr (k : TimerKind) (g : Gen)
  | clock
  deriving DecidableEq, Repr

/-- What the outside gives the block (the model's own field, log entry 5): the command words still to be issued, the order in
which agents are to move, the ADC samples and setup results still to be drawn, and a counter that every choice of an agent and every
free value advances. Where a list is empty the value is free. -/
structure Inputs where
  cmds : List CommandWord
  sched : List Agent
  adc : List (BitVec 12)
  gpioOk : List Bool
  timerOk : List Bool
  draws : Nat
  /-- how many steps in a row the host has had a step and another agent moved (R191, log entry 10) -/
  passed : Nat
  /-- the number of the host's present wait; it ends where the host moves or has no step (R191, log entry 10) -/
  waits : Nat
  deriving DecidableEq, Repr

/-- The OPEN parameters of R6 that a step reads; no step writes them (log entry 6). -/
structure Params where
  /-- `MAX_MA[PROG]` (R338) -/
  maxMaProg : BitVec 16
  /-- `EMPTY_POLL_US` (R160) -/
  emptyPollUs : Nat
  /-- `ISR_LATENCY_MAX`, Λ (R192) -/
  isrLatencyMax : Nat
  deriving DecidableEq, Repr

/-- Fault reasons, with their codes in R321's table. -/
inductive FaultReason where
  | illegalCommand
  | contractViolation
  | cursorOverrun
  deriving DecidableEq, Repr

/-- One entry of the trace: time, generator, level (R39). -/
structure PinWrite where
  time : Nat
  gen : Gen
  level : Level
  deriving DecidableEq, Repr

/-- The state of the block (R20). -/
structure State where
  /-- time in µs since power-on (R37) -/
  now : Nat
  /-- `gen[OPS]` -/
  ops : GenState
  /-- `gen[PROG]` -/
  prog : GenState
  host : HostState
  sm : SmState
  /-- every pin write, oldest first (R39) -/
  trace : List PinWrite
  faulted : Option FaultReason
  inputs : Inputs
  params : Params
  deriving DecidableEq, Repr

/-- `gen[g]` (R20). -/
def State.gen (s : State) : Gen → GenState
  | .ops => s.ops
  | .prog => s.prog

/-- `gen[g] <- G`. -/
def State.setGen (s : State) (g : Gen) (G : GenState) : State :=
  match g with
  | .ops => { s with ops := G }
  | .prog => { s with prog := G }

/-- Why the machine has no further step. -/
inductive Fault where
  /-- Answered by every step of a faulted block: "once `faulted = Some(_)`, no agent has a step" (R322). Raised by `step` and by
  every meaning on a faulted state. Safe: the spec says the block does nothing more. -/
  | quiescent (r : FaultReason)
  deriving DecidableEq, Repr

/-- Why an instruction has no step in a state. No reachable step answers one. -/
inductive Refusal where
  /-- The instruction has no meaning in the model: raised by `exec`'s refused arms, of which there are none. Safe. -/
  | notModelled (mnemonic : String)
  /-- An interrupt that is not latched and attached: "Agent `ISR_FULL[g]` has a step exactly when ... latched = attached = true"
  (R183). Raised by IRQ_FULL and IRQ_PULSE. Safe. -/
  | interruptNotLatched
  /-- A frame is laid out, or published, only while the host holds a pool slot for it (R127, R128). Raised by the frame rows and
  the fill and publish steps of a load. Safe. -/
  | noSlotHeld
  /-- The host is at a position that is none of this command's (R33, R280). Raised by the command rows. Safe. -/
  | notAtThisCommand
  deriving DecidableEq, Repr

/-- A generator at power-on (R41); its pin level is the draw `level`. -/
def GenState.powerOn (level : Level) : GenState where
  mode := .unconfigured
  dirPin := 0
  poolSize := 0
  slots := []
  free := []
  pending := []
  filling := none
  idle := Packet.zero
  current := .none
  full := Timer.off
  pulse := Timer.off
  pinMode := .input
  pinLevel := level

/-- The engine at power-on: `op = None`, the other fields "unspecified, never read" (R41, log entry 2). -/
def SmState.powerOn : SmState where
  op := .none
  cv := 0
  bit := 0
  value := 0
  bitIndex := 0
  acc := 0
  attempt := 0
  thr := 0
  k := 0
  sum := 0
  nOk := 0
  phase := .done
  verifying := false

/-- The block right after power-on, the only reset (R41, R350). That the host rests at the entry position is DESIGN CHOICE, as is every
value of a field R41 calls unspecified (log entry 2). -/
def State.reset : State where
  now := 0
  ops := GenState.powerOn (Config.powerOnPinLevel .ops)
  prog := GenState.powerOn (Config.powerOnPinLevel .prog)
  host := { cmd := none, phase := .entry, wakeAt := 0, resp := none,
            load := { gen := .ops, frame := [], repeats := 0 } }
  sm := SmState.powerOn
  trace := []
  faulted := none
  inputs := { cmds := [], sched := [], adc := [], gpioOk := [], timerOk := [], draws := 0, passed := 0, waits := 0 }
  params := { maxMaProg := Config.maxMaProg, emptyPollUs := Config.emptyPollUs, isrLatencyMax := Config.isrLatencyMax }

end Sys2Proof.Machine
end

