-- ==== Sys2Proof/Machine/Flags.lean ====
section
/-! DEFINITION. Status computations. The block has no condition codes (COVERAGE.json, B3); what an instruction computes as a
status is its response word (R86), a fault code (R321), the ACK decision (R270, R273), the interrupt flags of a timer (R183,
R192, R330) and the cell shape a bit selects (R181). -/

namespace Sys2Proof.Machine

/-- The `STATUS` values of a response word (R86). -/
inductive Status where
  | ok
  | invalidPayloadLen
  | hardwareSetupFailure
  deriving DecidableEq, Repr

/-- `STATUS` codes (R86). -/
def Status.code : Status → BitVec 8
  | .ok => 0x00
  | .invalidPayloadLen => 0x01
  | .hardwareSetupFailure => 0x02

/-- The response word: `STATUS = R[63:56]`, `VALUE = R[15:0]`, every other bit 0 (R86). -/
def responseWord (status : Status) (value : BitVec 16) : ResponseWord := status.code ++ 0#40 ++ value

/-- A truth value as a response's `VALUE`: 1 or 0 (R86). -/
def boolValue (b : Bool) : BitVec 16 := if b then 1 else 0

/-- Fault codes (R321). -/
def FaultReason.code : FaultReason → Nat
  | .illegalCommand => 1
  | .contractViolation => 2
  | .cursorOverrun => 3

/-- `thr = (4096 · 60) div max_ma` (R270). -/
def ackThreshold (maxMa : Nat) : Nat := Config.ackNumerator / maxMa

/-- `ACK_DECIDE(sum, n_ok, thr) = (n_ok > 0) and ((sum div n_ok) > thr)` (R273). -/
def ackDecide (sum nOk thr : Nat) : Bool := decide (0 < nOk) && decide (thr < sum / nOk)

/-- The timer's interrupt is latched and attached, so its ISR has a step (R183). -/
def Timer.deliverable (t : Timer) : Bool := t.latched && t.attached

/-- The timer's interrupt has reached its latency bound Λ (R192). -/
def Timer.due (t : Timer) (latencyMax : Nat) : Bool := t.deliverable && decide (latencyMax ≤ t.age)

/-- `Full(b)` (R181). -/
def fullPeriod (b : Bool) : Nat := if b then Config.t1Full else Config.t0Full

/-- `Half(b)` (R181). -/
def halfPeriod (b : Bool) : Nat := if b then Config.t1Half else Config.t0Half

end Sys2Proof.Machine
end

