-- ==== Sys2Proof/Machine/Operands.lean ====
section
/-! DEFINITION. Operand forms: LOAD_PACKET's payload (R124), the address split and the packet builders of the service-mode engine
(R262 to R267), the checksum, the bit layout of a frame (R120 to R122), and how one stream bit of a buffer is read and written
(R8, R62). -/

namespace Sys2Proof.Machine

/-! ### Stream bits of a buffer (R8, R60, R62) -/

/-- `BufBit(p, i)`: stream bit `i` is bit `7 − (i mod 8)` of `buffer[i div 8]` (R8). Indices run from 0 to 79 (R60); the one
reader stays below that (`extractBit`). -/
def bufBit (b : Buffer) (i : Nat) : Bool :=
  if h : i / 8 < 10 then b[i / 8].getLsbD (7 - i % 8) else false

/-- The byte with its bit `k` (7 is the most significant) set to `v`. -/
def setByteBit (y : Byte) (k : Nat) (v : Bool) : Byte :=
  if v then y ||| (1#8 <<< k) else y &&& ~~~(1#8 <<< k)

/-- `SetBufBit(p, i, v)` (R9). -/
def setBufBit (b : Buffer) (i : Nat) (v : Bool) : Buffer :=
  if h : i / 8 < 10 then b.set (i / 8) (setByteBit b[i / 8] (7 - i % 8) v) else b

/-- Write the bits of a stream into the buffer from index `i` on; the bits outside keep what they held (R127, D8). -/
def writeBits (b : Buffer) (i : Nat) : List Bool → Buffer
  | [] => b
  | v :: vs => writeBits (setBufBit b i v) (i + 1) vs

/-! ### Checksum, length and layout of a frame (R120 to R122) -/

/-- `Checksum(P)`, the XOR of the payload bytes (R120). -/
def checksum (payload : List Byte) : Byte := payload.foldl (· ^^^ ·) 0

/-- `Frame(P) = P[0], ..., P[n−1], Checksum(P)` (R120). -/
def frameOf (payload : List Byte) : List Byte := payload ++ [checksum payload]

/-- `NumBits(L) = 22 + 9·L` (R121). -/
def numBitsOf (frameLen : Nat) : Nat := Config.preambleBits + 9 * frameLen

/-- The bits of a byte, most significant first (R62). -/
def byteBits (y : Byte) : List Bool :=
  [y.getLsbD 7, y.getLsbD 6, y.getLsbD 5, y.getLsbD 4, y.getLsbD 3, y.getLsbD 2, y.getLsbD 1, y.getLsbD 0]

/-- `Layout(F)`: 22 preamble ones, then for each frame byte a 0 and its bits MSB-first (R91, R122). -/
def layout (frame : List Byte) : List Bool :=
  List.replicate Config.preambleBits true ++ frame.flatMap fun y => false :: byteBits y

/-! ### Operands of the host commands -/

/-- LOAD_PACKET's payload `P0, ..., P(LEN−1)`; bytes `Pj` with `j ≥ LEN` are ignored (R81, R124). -/
def payloadOf (len : BitVec 3) (p0 p1 p2 p3 p4 : Byte) : List Byte := [p0, p1, p2, p3, p4].take len.toNat

/-- The payload length is one of 2, 3, 4, 5 (R125). -/
def lenLegal (n : Nat) : Bool := decide (Config.payloadLenMin ≤ n) && decide (n ≤ Config.payloadLenMax)

/-- `1 ≤ cv ≤ 1024` (R261). -/
def cvLegal (cv : BitVec 11) : Bool := decide (Config.cvMin ≤ cv.toNat) && decide (cv.toNat ≤ Config.cvMax)

/-- The frame of the idle singleton and of the boot idle packet: `FF 00 FF` (R29, R88). -/
def idlePayload : List Byte := [0xFF, 0x00]

/-- `RESET() = [0x00, 0x00]` (R263). -/
def resetPayload : List Byte := [0x00, 0x00]

/-! ### Packet builders of the service-mode engine (R262 to R267) -/

/-- `A = cv − 1` (R262). -/
def cvAddress (cv : BitVec 16) : BitVec 16 := cv - 1

/-- `AH = (A >> 8) & 0x03` (R262). -/
def addrHigh (cv : BitVec 16) : Byte := ((cvAddress cv >>> 8) &&& 0x03).setWidth 8

/-- `AL = A & 0xFF` (R262). -/
def addrLow (cv : BitVec 16) : Byte := (cvAddress cv &&& 0xFF).setWidth 8

/-- `VERIFY_BYTE(cv, D) = [0x74 | AH, AL, D]` (R264). -/
def verifyByte (cv : BitVec 16) (d : Byte) : List Byte := [0x74 ||| addrHigh cv, addrLow cv, d]

/-- `WRITE_BYTE(cv, D) = [0x7C | AH, AL, D]` (R265). -/
def writeByte (cv : BitVec 16) (d : Byte) : List Byte := [0x7C ||| addrHigh cv, addrLow cv, d]

/-- The third byte of a bit packet: `base | (V << 3) | B` (R266, R267). -/
def bitOperand (base : Byte) (v : Bool) (b : BitVec 3) : Byte :=
  base ||| ((BitVec.ofBool v).setWidth 8 <<< 3) ||| b.setWidth 8

/-- `VERIFY_BIT(cv, V, B) = [0x78 | AH, AL, 0xE0 | (V << 3) | B]` (R266). -/
def verifyBit (cv : BitVec 16) (v : Bool) (b : BitVec 3) : List Byte :=
  [0x78 ||| addrHigh cv, addrLow cv, bitOperand 0xE0 v b]

/-- `WRITE_BIT(cv, V, B) = [0x78 | AH, AL, 0xF0 | (V << 3) | B]` (R267). -/
def writeBit (cv : BitVec 16) (v : Bool) (b : BitVec 3) : List Byte :=
  [0x78 ||| addrHigh cv, addrLow cv, bitOperand 0xF0 v b]

end Sys2Proof.Machine
end

