-- ==== Sys2Proof/Machine/Ops.lean ====
section
/-! DEFINITION. The named operations every meaning is written over: FIFO primitives (R150), packet storage (R60), pin writes
(R39), delays (R191), responses (R86), draws (R9), raising a fault (R40, R322) and taking a timer interrupt (R183, R332). -/

namespace Sys2Proof.Machine

/-- What one step answers. -/
abbrev Result := Host.Outcome State Fault Refusal

/-! ### FIFOs of slot indices (R150) -/

/-- `push(x)` appends at the tail (R150). -/
def fifoPush (q : List Nat) (x : Nat) : List Nat := q ++ [x]

/-- `pop()` removes and returns the head; none when the FIFO is empty, where R150 leaves it undefined. -/
def fifoPop : List Nat → Option (Nat × List Nat)
  | [] => none
  | x :: q => some (x, q)

/-- `empty()` (R150). -/
def fifoEmpty (q : List Nat) : Bool := q.isEmpty

/-! ### Packet storage (R60, R152) -/

/-- The pool's slots are as many as `configure` created (R61, R152). -/
def Memory.wf (poolSize : Nat) (m : Memory) : Bool := m.length == poolSize

/-- Slot `i`; none where no such slot exists. -/
def Memory.read (m : Memory) (i : Nat) : Option Packet := m[i]?

/-- Slot `i` replaced; a slot that does not exist stays absent. -/
def Memory.write (m : Memory) (i : Nat) (p : Packet) : Memory := m.set i p

/-- Where a packet lies: a pool slot or the idle singleton (R60). -/
inductive PacketRef where
  | slot (i : Nat)
  | idlePkt
  deriving DecidableEq, Repr

/-- The packet at a place; none for a slot that does not exist. -/
def GenState.packet (G : GenState) : PacketRef → Option Packet
  | .slot i => G.slots.read i
  | .idlePkt => some G.idle

/-- The packet at a place replaced. -/
def GenState.setPacket (G : GenState) (r : PacketRef) (p : Packet) : GenState :=
  match r with
  | .slot i => { G with slots := G.slots.write i p }
  | .idlePkt => { G with idle := p }

/-- The one read of the block's storage: stream bit `i` of the packet at `r` of generator `g` (R60). -/
def State.readBit (s : State) (g : Gen) (r : PacketRef) (i : Nat) : Option Bool :=
  ((s.gen g).packet r).map fun p => bufBit p.buffer i

/-- The place `current` names, if any (R28). -/
def Current.ref : Current → Option PacketRef
  | .none => Option.none
  | .slot i => some (.slot i)
  | .idlePkt => some .idlePkt

/-- The slot `current` names, as a list of at most one index. -/
def Current.slotIndices : Current → List Nat
  | .slot i => [i]
  | _ => []

/-- Every slot index held anywhere: in `free`, in `pending`, in `filling`, or as `current` (R30, R68). -/
def GenState.owned (G : GenState) : List Nat :=
  G.free ++ G.pending ++ G.filling.toList ++ G.current.slotIndices

/-! ### Host, pin and draws -/

/-- `gen[g]` changed by `f`. -/
def State.modGen (s : State) (g : Gen) (f : GenState → GenState) : State := s.setGen g (f (s.gen g))

/-- The host goes to a position of the command in execution (R33). -/
def State.setPhase (s : State) (p : HostPhase) : State := { s with host := { s.host with phase := p } }

/-- `pin_write(g, level)`: drive the pin and append `(now, g, level)` to the trace (R9, R39). -/
def pinWrite (g : Gen) (level : Level) (s : State) : State :=
  { s.modGen g (fun G => { G with pinLevel := level }) with
    trace := s.trace ++ [{ time := s.now, gen := g, level := level }] }

/-- `delay(d)`: `host.wake_at <- now + d` (R9, R191). -/
def delay (d : Nat) (s : State) : State := { s with host := { s.host with wakeAt := s.now + d } }

/-- `respond(status, value)`: the command completes, its response is delivered and the host is ready, with no
delay (R9, R33, R86; log entry 23). -/
def respond (status : Status) (value : BitVec 16) (s : State) : State :=
  { s with host := { s.host with
      cmd := none, phase := .entry, wakeAt := 0, resp := some (responseWord status value) } }

/-- `draw` from a list of inputs; where the list is exhausted the value is free (R9). The third part is how many free values were
taken. -/
def drawFrom {α : Type} (given : List α) (free : Nat → α) (draws : Nat) : α × List α × Nat :=
  match given with
  | x :: xs => (x, xs, draws)
  | [] => (free draws, [], draws + 1)

/-- `adc_read`: `draw s ∈ 0..4095` (R271). -/
def drawAdc (s : State) : BitVec 12 × State :=
  let d := drawFrom s.inputs.adc Config.freeAdc s.inputs.draws
  (d.1, { s with inputs := { s.inputs with adc := d.2.1, draws := d.2.2 } })

/-- `draw gpio_ok` (R233). -/
def drawGpioOk (s : State) : Bool × State :=
  let d := drawFrom s.inputs.gpioOk Config.freeGpioOk s.inputs.draws
  (d.1, { s with inputs := { s.inputs with gpioOk := d.2.1, draws := d.2.2 } })

/-- `draw timer_ok` (R233). -/
def drawTimerOk (s : State) : Bool × State :=
  let d := drawFrom s.inputs.timerOk Config.freeTimerOk s.inputs.draws
  (d.1, { s with inputs := { s.inputs with timerOk := d.2.1, draws := d.2.2 } })

/-! ### Exceptions: raising a fault, and interrupt entry and return -/

/-- `raise Fault(r)`: `faulted` becomes `Some(r)` if it is `None`, and the step makes no other change, so `host.cmd` keeps the
offending word (R40, R321, R322). -/
def raiseFault (r : FaultReason) (s : State) : Result :=
  .next { s with faulted := some (s.faulted.getD r) }

/-- No agent has a step once the block is faulted (R322). -/
def unlessFaulted (s : State) (k : Result) : Result :=
  match s.faulted with
  | some r => .fault (.quiescent r)
  | none => k

/-- A generator's timer (R35). -/
def GenState.timer (G : GenState) : TimerKind → Timer
  | .full => G.full
  | .pulse => G.pulse

/-- A generator's timer replaced. -/
def GenState.setTimer (G : GenState) (k : TimerKind) (t : Timer) : GenState :=
  match k with
  | .full => { G with full := t }
  | .pulse => { G with pulse := t }

/-- Interrupt entry: delivery clears `latched` and saves nothing, and the body runs at once; none where the interrupt is not
latched and attached (R183, R332). There is no return operation: "An ISR ends when its body ends" (R333). -/
def takeInterrupt (k : TimerKind) (g : Gen) (s : State) : Option State :=
  if ((s.gen g).timer k).deliverable then
    some (s.modGen g fun G => G.setTimer k { G.timer k with latched := false, age := 0 })
  else none

end Sys2Proof.Machine
end

