-- ==== Sys2Proof/Machine/Serializer.lean ====
section
/-! DEFINITION. The bit serializer: the four stages of a LOAD_PACKET as host steps (R125 to R128), shared by the host's own command,
START's boot loads (R240) and the service-mode engine's loads (R268); LOAD_PACKET itself; and the six frames of the table, each of
which is what the fill step lays out (R88, R89, R127). -/

namespace Sys2Proof.Machine

/-- The load's operands are taken and the host goes on to slot acquisition (R125, R126). -/
def beginLoad (g : Gen) (payload : List Byte) (repeats : BitVec 8) (site : LoadSite) (s : State) : State :=
  { s with host := { s.host with
      load := { gen := g, frame := frameOf payload, repeats := repeats }, phase := .load site .acquire } }

/-- Entry checks, in R125's order: the generator, then the length `n`, which a host's LOAD_PACKET takes from `LEN` (R124). -/
def loadEntry (g : Gen) (n : Nat) (payload : List Byte) (repeats : BitVec 8) (site : LoadSite) (s : State) : Result :=
  if (s.gen g).mode = .unconfigured then raiseFault .contractViolation s
  else if lenLegal n then .next (beginLoad g payload repeats site s)
  else .next (respond .invalidPayloadLen 0 s)

/-- Slot acquisition: the head of `free` is held, or the host waits `POOL_POLL_US` and tries again (R126, R155). The index taken stands in
`filling` alone until publication (DEDUCED, log entry 3). -/
def loadAcquire (site : LoadSite) (s : State) : Result :=
  let g := s.host.load.gen
  match fifoPop (s.gen g).free with
  | some (i, rest) =>
    .next ((s.modGen g fun G => { G with free := rest, filling := some i }).setPhase (.load site .fill))
  | none => .next (delay Config.poolPollUs s)

/-- A packet with a frame laid out in it: the bits past `NumBits(L)` keep what they held (R127). -/
def fillPacket (p : Packet) (frame : List Byte) (repeats : BitVec 8) : Packet where
  buffer := writeBits p.buffer 0 (layout frame)
  numBits := BitVec.ofNat 8 (numBitsOf frame.length)
  repeats := repeats
  currentBit := 0

/-- Fill: the frame goes into the held slot (R127), and the host goes on to publication. R126's index `i` is read back from `filling`
(DEDUCED, log entry 3). -/
def fillHeld (frame : List Byte) (site : LoadSite) (s : State) : Result :=
  let r := s.host.load
  match (s.gen r.gen).filling with
  | none => .refused .noSlotHeld
  | some i =>
    match (s.gen r.gen).slots.read i with
    | none => .refused .noSlotHeld
    | some p =>
      .next ((s.modGen r.gen fun G => { G with slots := G.slots.write i (fillPacket p frame r.repeats) }).setPhase
        (.load site .publish))

/-- Publication: the held slot goes to the tail of `pending` (R128, R156), and the command continues with `after`. R126's index `i` is read
back from `filling` (DEDUCED, log entry 3). -/
def loadPublish (after : State → Result) (s : State) : Result :=
  let g := s.host.load.gen
  match (s.gen g).filling with
  | none => .refused .noSlotHeld
  | some i => after (s.modGen g fun G => { G with pending := fifoPush G.pending i, filling := none })

/-- The stages of a load after its entry (R126 to R128). -/
def loadStage (site : LoadSite) (after : State → Result) : LoadStage → State → Result
  | .entry, _ => .refused .notAtThisCommand
  | .acquire, s => loadAcquire site s
  | .fill, s => fillHeld s.host.load.frame site s
  | .publish, s => loadPublish after s

/-- LOAD_PACKET (R124 to R128). -/
def execLoadPacket (g : Gen) (len : BitVec 3) (rep : BitVec 8) (p0 p1 p2 p3 p4 : Byte) (s : State) : Result :=
  unlessFaulted s <|
    match s.host.phase with
    | .entry => loadEntry g len.toNat (payloadOf len p0 p1 p2 p3 p4) rep .caller s
    | .load .caller stage => loadStage .caller (fun t => .next (respond .ok 0 t)) stage s
    | _ => .refused .notAtThisCommand

/-- A frame at the fill step of a load: it is laid out in the held slot (R127). -/
def execFrame (frame : List Byte) (s : State) : Result :=
  unlessFaulted s <|
    match s.host.phase with
    | .load site .fill => fillHeld frame site s
    | _ => .refused .noSlotHeld

/-- DCC_RESET: the frame `00 00 00` (R88, R263). -/
def execDccReset (s : State) : Result := execFrame resetFrame s

/-- DCC_IDLE: the frame `FF 00 FF` (R88). -/
def execDccIdle (s : State) : Result := execFrame idleFrame s

/-- SM_VERIFY_BYTE (R264). -/
def execSmVerifyByte (a : BitVec 10) (d x : Byte) (s : State) : Result :=
  execFrame (verifyByteFrame a d x) s

/-- SM_WRITE_BYTE (R265). -/
def execSmWriteByte (a : BitVec 10) (d x : Byte) (s : State) : Result :=
  execFrame (writeByteFrame a d x) s

/-- SM_VERIFY_BIT (R266). -/
def execSmVerifyBit (a : BitVec 10) (v : Bool) (b : BitVec 3) (x : Byte) (s : State) : Result :=
  execFrame (verifyBitFrame a v b x) s

/-- SM_WRITE_BIT (R267). -/
def execSmWriteBit (a : BitVec 10) (v : Bool) (b : BitVec 3) (x : Byte) (s : State) : Result :=
  execFrame (writeBitFrame a v b x) s

/-- ILLEGAL: a word that spells no command raises `Fault(IllegalCommand)` and changes no other state, whichever word it is (R82). -/
def execIllegal (_w : CommandWord) (s : State) : Result := unlessFaulted s (raiseFault .illegalCommand s)

end Sys2Proof.Machine
end

