-- ==== Sys2Proof/Machine/Timers.lean ====
section
/-! DEFINITION. The timers: the collaborator calls (R180), the alarm (R182) and the CLOCK step (R190). -/

namespace Sys2Proof.Machine

/-- `timer_begin(index, prescaler, count_up)`; the index cannot be observed (R180, R337). -/
def timerBegin (_index : Nat) (t : Timer) : Timer :=
  { t with begun := true, counter := 0, alarmEn := false, latched := false, age := 0 }

/-- `timer_attach_interrupt(timer, isr, edge)` (R180). -/
def timerAttach (t : Timer) : Timer := { t with attached := true }

/-- `timer_alarm_write(timer, period_us, autoreload)` (R180). -/
def timerAlarmWrite (period : Nat) (autoreload : Bool) (t : Timer) : Timer :=
  { t with alarm := period, autoreload := autoreload }

/-- `timer_write(timer, value)` (R180). -/
def timerWrite (value : Nat) (t : Timer) : Timer := { t with counter := value }

/-- `timer_alarm_enable(timer)` (R180). -/
def timerAlarmEnable (t : Timer) : Timer := { t with alarmEn := true }

/-- `timer_alarm_disable(timer)` (R180). -/
def timerAlarmDisable (t : Timer) : Timer := { t with alarmEn := false }

/-- `timer_stop(timer)` (R180). -/
def timerStop (t : Timer) : Timer := { t with begun := false }

/-- `timer_detach_interrupt(timer)` (R180). -/
def timerDetach (t : Timer) : Timer := { t with attached := false, latched := false, age := 0 }

/-- `timer_end(timer)` (R180). -/
def timerEnd (t : Timer) : Timer :=
  { t with begun := false, alarmEn := false, attached := false, latched := false, age := 0 }

/-- STOP step 1 on one timer (R249). -/
def timerShutdown (t : Timer) : Timer := timerEnd (timerDetach (timerStop (timerAlarmDisable t)))

/-- The waiting time of a latched interrupt grows by the tick (R192). -/
def ageTick (t : Timer) : Timer := if t.deliverable then { t with age := t.age + 1 } else t

/-- The alarm fires: it latches if attached and is dropped otherwise, and the timer reloads or, a one-shot, disables itself
(R182). An alarm that fires while its interrupt is latched merges with it, keeping the older one's age (R183). -/
def alarmFire (t : Timer) : Timer :=
  { t with
    latched := t.attached || t.latched
    counter := if t.autoreload then 0 else t.counter
    alarmEn := t.autoreload && t.alarmEn
    age := if t.latched then t.age else 0 }

/-- One tick of a timer (R182, R192). -/
def timerTick (t : Timer) : Timer :=
  let t := ageTick t
  if t.begun then
    let t := { t with counter := t.counter + 1 }
    if t.alarmEn && t.counter == t.alarm then alarmFire t else t
  else t

/-- One tick of a generator's two timers. -/
def GenState.tick (G : GenState) : GenState := { G with full := timerTick G.full, pulse := timerTick G.pulse }

/-- The CLOCK step: `now <- now + 1`, then every timer ticks (R190). -/
def clockStep (s : State) : State := { s with now := s.now + 1, ops := s.ops.tick, prog := s.prog.tick }

end Sys2Proof.Machine
end

