-- ==== Sys2Proof/Machine/Controller.lean ====
section
/-! DEFINITION. The generator controller: CONFIGURE (R231), START (R240, R241) and STOP (R249, R250). -/

namespace Sys2Proof.Machine

/-! ### START -/

/-- START's entry checks, then its first load (R240). -/
def startEntry (g : Gen) (s : State) : Result :=
  if (s.gen g).mode = .unconfigured then raiseFault .contractViolation s
  else if (s.gen g).mode = .running then raiseFault .contractViolation s
  else .next (s.setPhase (.load .bootReset .entry))

/-- Both timers begun, attached and armed with the shape of a "1" cell, the pulse timer a one-shot (R241). -/
def armTimers (g : Gen) (G : GenState) : GenState :=
  { G with
    full := timerAlarmEnable (timerAlarmWrite Config.t1Full true
      (timerAttach (timerBegin (Config.timerIndex g .full) G.full)))
    pulse := timerAlarmEnable (timerAlarmWrite Config.t1Half false
      (timerAttach (timerBegin (Config.timerIndex g .pulse) G.pulse)))
    mode := .running }

/-- START step 3: on a failed timer setup the mode stays Idle (R233, R241). -/
def startArm (g : Gen) (s : State) : Result :=
  let d := drawTimerOk s
  .next (if d.1 then respond .ok 0 (d.2.modGen g (armTimers g)) else respond .hardwareSetupFailure 0 d.2)

/-- The steps of START, which CONFIGURE continues with (R231, R240, R241). -/
def startSteps (g : Gen) (s : State) : Result :=
  match s.host.phase with
  | .startEntry => startEntry g s
  | .load .bootReset .entry => loadEntry g resetPayload.length resetPayload Config.bootResetRepeats .bootReset s
  | .load .bootReset stage => loadStage .bootReset (fun t => .next (t.setPhase (.load .bootIdle .entry))) stage s
  | .load .bootIdle .entry => loadEntry g idlePayload.length idlePayload Config.bootIdleRepeats .bootIdle s
  | .load .bootIdle stage => loadStage .bootIdle (fun t => .next (t.setPhase .arm)) stage s
  | .arm => startArm g s
  | _ => .refused .notAtThisCommand

/-- START (R240, R241). -/
def execStart (g : Gen) (s : State) : Result :=
  unlessFaulted s <|
    match s.host.phase with
    | .entry => startEntry g s
    | .startEntry => .refused .notAtThisCommand
    | _ => startSteps g s

/-! ### CONFIGURE -/

/-- The idle singleton at `configure`: the frame `FF 00 FF`, 49 bits, no repeats, cursor 0 (R29, R231); the bits past 49 keep what
they held (R127). -/
def idlePacket (old : Packet) : Packet := fillPacket old (frameOf idlePayload) 0

/-- The pool, the queues, the cursor and the idle singleton of a generator being configured (R152, R231). -/
def createPool (pin : BitVec 8) (size : Nat) (G : GenState) : GenState :=
  { G with
    dirPin := pin
    poolSize := size
    slots := List.replicate size Packet.zero
    free := List.range size
    pending := []
    filling := none
    current := .none
    idle := idlePacket G.idle }

/-- The pin set up, LOW first and then Output, the mode Idle, and START to follow (R231, R353). -/
def configured (g : Gen) (s : State) : State :=
  ((pinWrite g .low s).modGen g fun G => { G with pinMode := .output, mode := .idle }).setPhase .startEntry

/-- CONFIGURE's own step (R231, R232, R233). -/
def configureEntry (g : Gen) (pin : BitVec 8) (pool : BitVec 16) (s : State) : Result :=
  if (s.gen g).mode ≠ .unconfigured then raiseFault .contractViolation s
  else if pool.toNat < Config.poolMin then raiseFault .contractViolation s
  else
    let d := drawGpioOk (s.modGen g (createPool pin pool.toNat))
    .next (if d.1 then configured g d.2 else respond .hardwareSetupFailure 0 (d.2.modGen g fun G => { G with mode := .idle }))

/-- CONFIGURE: its own step, then the steps of START, whose response is CONFIGURE's (R231). -/
def execConfigure (g : Gen) (pin : BitVec 8) (pool : BitVec 16) (s : State) : Result :=
  unlessFaulted s <|
    match s.host.phase with
    | .entry => configureEntry g pin pool s
    | _ => startSteps g s

/-! ### STOP -/

/-- `zero(p)` on slot `i`, and the slot pushed on `free` (R250). -/
def returnZeroed (G : GenState) (i : Nat) : GenState :=
  { G with slots := G.slots.write i Packet.zero, free := fifoPush G.free i }

/-- STOP step 3: the current slot first, then `pending` from head to tail (R250). -/
def drainGen (G : GenState) : GenState :=
  { (G.current.slotIndices ++ G.pending).foldl returnZeroed G with current := .none, pending := [] }

/-- STOP step 1: both timers disabled, stopped, detached and ended, the mode Idle, and the wait of step 2 begun (R249). -/
def stopEntry (g : Gen) (s : State) : Result :=
  if (s.gen g).mode = .unconfigured then raiseFault .contractViolation s
  else
    .next (delay Config.stopWaitUs ((s.modGen g fun G =>
      { G with full := timerShutdown G.full, pulse := timerShutdown G.pulse, mode := .idle }).setPhase .drain))

/-- STOP (R249, R250). -/
def execStop (g : Gen) (s : State) : Result :=
  unlessFaulted s <|
    match s.host.phase with
    | .entry => stopEntry g s
    | .drain => .next (respond .ok 0 (s.modGen g drainGen))
    | _ => .refused .notAtThisCommand

end Sys2Proof.Machine
end

