-- ==== Sys2Proof/Machine/Cursor.lean ====
section
/-! DEFINITION. The bit cursor `GetNextBit` (43_bit_cursor.md) as three steps on one generator's state, and the two interrupt
service routines (R185, R186). -/

namespace Sys2Proof.Machine

/-- The packet `current` names (R210). None when there is none, or when it names a slot that does not exist. -/
def GenState.currentPacket (G : GenState) : Option Packet := G.current.ref.bind G.packet

/-- The packet `current` names replaced. -/
def GenState.setCurrentPacket (G : GenState) (p : Packet) : GenState :=
  match G.current.ref with
  | some r => G.setPacket r p
  | none => G

/-- The current packet's slot goes back to `free`, the idle singleton does not, and `current` becomes None (R158, R211). -/
def GenState.release (G : GenState) : GenState :=
  match G.current with
  | .slot i => { G with free := fifoPush G.free i, current := .none }
  | _ => { G with current := .none }

/-- Step 1, end of pass (R211). -/
def closePass (G : GenState) : GenState :=
  match G.currentPacket with
  | none => G
  | some p =>
    if p.currentBit = p.numBits then
      if 0 < p.repeats then G.setCurrentPacket { p with repeats := p.repeats - 1, currentBit := 0 }
      else G.release
    else G

/-- Step 2, selection: the head of `pending`, else the idle singleton at bit 0 (R157, R212). -/
def selectPacket (G : GenState) : GenState :=
  match G.current with
  | .none =>
    match fifoPop G.pending with
    | some (i, rest) => { G with current := .slot i, pending := rest }
    | none => { G with current := .idlePkt, idle := { G.idle with currentBit := 0 } }
  | _ => G

/-- Step 3, extraction: the bit under the cursor, and the cursor moved on; none where the guard of R213 fires. A cursor at a place
the storage does not have (no such slot, or an index above 79) is the same impossible condition (R60, R214, R320). -/
def extractBit (G : GenState) : Option (Bool × GenState) :=
  match G.currentPacket with
  | none => none
  | some p =>
    if p.currentBit < p.numBits ∧ p.currentBit.toNat < 80 then
      some (bufBit p.buffer p.currentBit.toNat, G.setCurrentPacket { p with currentBit := p.currentBit + 1 })
    else none

/-- `GetNextBit(g)`: steps 1, 2 and 3 in that order (R210). -/
def getNextBit (G : GenState) : Option (Bool × GenState) := extractBit (selectPacket (closePass G))

/-- The timers reprogrammed for a cell of bit `b`, the pulse timer re-armed as a one-shot (R185). -/
def armCell (b : Bool) (G : GenState) : GenState :=
  { G with
    full := timerAlarmWrite (fullPeriod b) true G.full
    pulse := timerAlarmEnable (timerWrite 0 (timerAlarmWrite (halfPeriod b) false G.pulse)) }

/-- IRQ_FULL, the full-cycle ISR of `g` (R185): the next bit, both timers, the pin HIGH; the guard of `GetNextBit` raises
`CursorOverrun` and changes nothing else (R213, R322). -/
def execIrqFull (g : Gen) (s : State) : Result :=
  unlessFaulted s <|
    match takeInterrupt .full g s with
    | none => .refused .interruptNotLatched
    | some s1 =>
      match getNextBit (s1.gen g) with
      | none => raiseFault .cursorOverrun s
      | some (b, G) => .next (pinWrite g .high (s1.setGen g (armCell b G)))

/-- IRQ_PULSE, the pulse ISR of `g`: the pin LOW (R186). -/
def execIrqPulse (g : Gen) (s : State) : Result :=
  unlessFaulted s <|
    match takeInterrupt .pulse g s with
    | none => .refused .interruptNotLatched
    | some s1 => .next (pinWrite g .low s1)

end Sys2Proof.Machine
end

