-- ==== Sys2Proof/Machine/Queues.lean ====
section
/-! DEFINITION. The commands that read the pending queue: IS_EMPTY (R159) and WAIT_EMPTY (R160). -/

namespace Sys2Proof.Machine

/-- IS_EMPTY: it reads `pending` only (R159). -/
def execIsEmpty (g : Gen) (s : State) : Result :=
  unlessFaulted s <|
    match s.host.phase with
    | .entry =>
      if (s.gen g).mode = .unconfigured then raiseFault .contractViolation s
      else .next (respond .ok (boolValue (fifoEmpty (s.gen g).pending)) s)
    | _ => .refused .notAtThisCommand

/-- One test of the wait: it ends when `pending` is empty, else the host sleeps `EMPTY_POLL_US` and tests again (R160). -/
def pollEmpty (g : Gen) (done : State → Result) (s : State) : Result :=
  if fifoEmpty (s.gen g).pending then done s
  else .next (delay s.params.emptyPollUs (s.setPhase .poll))

/-- WAIT_EMPTY: the generator is checked once, at entry, in the step of the first test (R160, D40). -/
def execWaitEmpty (g : Gen) (s : State) : Result :=
  unlessFaulted s <|
    match s.host.phase with
    | .entry =>
      if (s.gen g).mode = .unconfigured then raiseFault .contractViolation s
      else pollEmpty g (fun t => .next (respond .ok 0 t)) s
    | .poll => pollEmpty g (fun t => .next (respond .ok 0 t)) s
    | _ => .refused .notAtThisCommand

end Sys2Proof.Machine
end

