-- ==== Sys2Proof/Machine/Service.lean ====
section
/-! DEFINITION. The service-mode engine (45_service_mode.md): READ_CV, WRITE_PROG_CV_BYTE and WRITE_PROG_CV_BIT as sequences of host
steps on the PROG generator (R260, R281). -/

namespace Sys2Proof.Machine

/-- The engine's state changed by `f`. -/
def State.modSm (s : State) (f : SmState → SmState) : State := { s with sm := f s.sm }

/-- The next load of the engine, at its entry (R269). -/
def State.toLoad (s : State) (p : SmPhase) : State :=
  (s.modSm fun m => { m with phase := p }).setPhase (.load .engine .entry)

/-- The command responds and `op` becomes None (R280, R285). -/
def smRespond (value : BitVec 16) (s : State) : Result :=
  .next (respond .ok value (s.modSm fun m => { m with op := .none, phase := .done }))

/-- Entry checks, in R261's order; every field of the engine is set. What the model sets `bit` and `value` to in a command that has no such
operand is the caller's choice (log entry 22). -/
def smEntry (op : SmOp) (cv : BitVec 11) (bit : BitVec 3) (value : BitVec 8) (s : State) : Result :=
  if (s.gen .prog).mode = .unconfigured then raiseFault .contractViolation s
  else if cvLegal cv = false then raiseFault .contractViolation s
  else if s.params.maxMaProg = 0 then raiseFault .contractViolation s
  else
    .next ({ s with sm :=
      { op := op, cv := cv.setWidth 16, bit := bit, value := value, bitIndex := 0, acc := 0, attempt := 0
        thr := BitVec.ofNat 32 (ackThreshold s.params.maxMaProg.toNat)
        k := 0, sum := 0, nOk := 0, phase := .entry, verifying := false } }.setPhase (.load .engine .entry))

/-- The loop begins: READ_CV at bit 0 with an empty accumulator (R282), a write at attempt 1 (R283). -/
def smBegin (m : SmState) : SmState :=
  match m.phase with
  | .entry =>
    match m.op with
    | .readCv => { m with acc := 0, bitIndex := 0, phase := .loadReset }
    | _ => { m with attempt := 1, verifying := false, phase := .loadReset }
  | _ => m

/-- The frame packet of the engine's current group and its repeat count (R268, R282 to R284): a read verifies bit `bit_index`, and
after bit 7 the accumulated byte; a write attempt first writes, then verifies. -/
def smFrame (m : SmState) : List Byte × BitVec 8 :=
  match m.op with
  | .writeByte => if m.verifying then (verifyByte m.cv m.value, 5) else (writeByte m.cv m.value, 4)
  | .writeBit =>
    if m.verifying then (verifyBit m.cv (m.value.getLsbD 0) m.bit, 5)
    else (writeBit m.cv (m.value.getLsbD 0) m.bit, 4)
  | .readCv | .none =>
    if m.bitIndex < 8 then (verifyBit m.cv true (m.bitIndex.setWidth 3), 5) else (verifyByte m.cv m.acc, 5)

/-- The repeat count of the group's reset packet: 1 before a write, 3 before a verify (R282, R283). -/
def smResetRepeats (m : SmState) : BitVec 8 :=
  match m.op with
  | .writeByte | .writeBit => if m.verifying then 3 else 1
  | .readCv | .none => 3

/-- What the engine loads next: the group's reset, its frame, or a trailing reset of 3 (R269, R283). -/
def smLoad (m : SmState) : List Byte × BitVec 8 :=
  match m.phase with
  | .loadFrame => smFrame m
  | .loadTrail => (resetPayload, 3)
  | _ => (resetPayload, smResetRepeats m)

/-- The entry step of an internal load (R125, R268), which begins the command's loop the first time. -/
def smLoadEntry (s : State) : Result :=
  if (s.gen .prog).mode = .unconfigured then raiseFault .contractViolation s
  else
    let t := s.modSm smBegin
    .next (beginLoad .prog (smLoad t.sm).1 (smLoad t.sm).2 .engine t)

/-- After a load is published: reset, then frame, then the wait; after a trailing reset the next attempt, or the end after the fifth
(R269, R283). `phase` moves on in this step (DEDUCED, log entry 11), but after the fifth trailing reset it stays LoadTrail until the final
step (DESIGN CHOICE, log entry 24). -/
def smAfterLoad (s : State) : Result :=
  match s.sm.phase with
  | .loadReset => .next (s.toLoad .loadFrame)
  | .loadFrame => .next ((s.modSm fun m => { m with phase := .wait }).setPhase .poll)
  | .loadTrail =>
    if s.sm.attempt < Config.maxCvAttempts then
      .next ((s.modSm fun m => { m with attempt := m.attempt + 1, verifying := false }).toLoad .loadReset)
    else .next (s.setPhase .finish)
  | _ => .refused .notAtThisCommand

/-- One test of the group's WAIT_EMPTY on PROG; when it ends ACK_CHECK begins with its counters 0 (R160, R269, R272). PROG stays
configured once it is (R350), so the entry check of R160 holds here. -/
def smPoll (s : State) : Result :=
  pollEmpty .prog
    (fun t => .next ((t.modSm fun m => { m with phase := .sample, k := 0, sum := 0, nOk := 0 }).setPhase .sample)) s

/-- One ADC read is counted; a zero is discarded (R272). -/
def countSample (x : BitVec 12) (m : SmState) : SmState :=
  if x = 0 then { m with k := m.k + 1 }
  else { m with sum := m.sum + x.setWidth 32, nOk := m.nOk + 1, k := m.k + 1 }

/-- ACK_CHECK: a read and a delay, 250 times, then the decision (R271 to R273). -/
def smSample (decide : Bool → State → Result) (s : State) : Result :=
  if s.sm.k < Config.adcSamples then
    let d := drawAdc s
    .next (delay Config.adcSampleIntervalUs (d.2.modSm (countSample d.1)))
  else decide (ackDecide s.sm.sum.toNat s.sm.nOk.toNat s.sm.thr.toNat) s

/-- READ_CV after an ACK check: the bit goes into the accumulator and the next group follows; after the byte verify the command
responds the byte, or −1 (R282). -/
def readDecide (ack : Bool) (s : State) : Result :=
  if s.sm.bitIndex < 8 then
    .next ((s.modSm fun m =>
      { m with acc := if ack then m.acc ||| (1#8 <<< m.bitIndex.toNat) else m.acc, bitIndex := m.bitIndex + 1 }).toLoad
        .loadReset)
  else smRespond (if ack then s.sm.acc.setWidth 16 else 0xFFFF) s

/-- A write after an ACK check: the first ACK leads to the verify group, the second ends the command with true, and a missing one leads
to a trailing reset (R283, R284). -/
def writeDecide (ack : Bool) (s : State) : Result :=
  match ack, s.sm.verifying with
  | true, true => smRespond 1 s
  | true, false => .next ((s.modSm fun m => { m with verifying := true }).toLoad .loadReset)
  | false, _ => .next (s.toLoad .loadTrail)

/-- The steps of a service-mode command after its entry (R281). -/
def smSteps (decide : Bool → State → Result) (s : State) : Result :=
  match s.host.phase with
  | .load .engine .entry => smLoadEntry s
  | .load .engine stage => loadStage .engine smAfterLoad stage s
  | .poll => smPoll s
  | .sample => smSample decide s
  | _ => .refused .notAtThisCommand

/-- READ_CV (R282). It has no bit and no value operand, and R261 says only that `sm.bit` and `sm.value` are set: 0 is DESIGN CHOICE (log
entry 22). -/
def execReadCv (cv : BitVec 11) (s : State) : Result :=
  unlessFaulted s <|
    match s.host.phase with
    | .entry => smEntry .readCv cv 0 0 s
    | _ => smSteps readDecide s

/-- The steps of a write after its entry: those of R281, and after the fifth failed attempt the response false (R283), which finds `phase` at
LoadTrail (DESIGN CHOICE, log entry 24). -/
def writeSteps (s : State) : Result :=
  match s.host.phase with
  | .finish => smRespond 0 s
  | _ => smSteps writeDecide s

/-- WRITE_PROG_CV_BYTE (R283). It has no bit operand, and R261 says only that `sm.bit` is set: 0 is DESIGN CHOICE (log entry 22). -/
def execWriteProgCvByte (cv : BitVec 11) (val : Byte) (s : State) : Result :=
  unlessFaulted s <|
    match s.host.phase with
    | .entry => smEntry .writeByte cv 0 val s
    | _ => writeSteps s

/-- WRITE_PROG_CV_BIT (R284). -/
def execWriteProgCvBit (cv : BitVec 11) (bit : BitVec 3) (val : Bool) (s : State) : Result :=
  unlessFaulted s <|
    match s.host.phase with
    | .entry => smEntry .writeBit cv bit ((BitVec.ofBool val).setWidth 8) s
    | _ => writeSteps s

end Sys2Proof.Machine
end

