-- ==== Sys2Proof/Machine/Dispatch.lean ====
section
/-! DEFINITION. One step of each instruction: the agent's one atomic step (R65), a host command's at the host's position (R33). -/

namespace Sys2Proof.Machine

def exec (i : Instr) (s : State) : Host.Outcome State Fault Refusal :=
  match i with
  | .configure g pin pool => Sys2Proof.Machine.execConfigure g pin pool s
  | .start g => Sys2Proof.Machine.execStart g s
  | .stop g => Sys2Proof.Machine.execStop g s
  | .loadPacket g len rep p0 p1 p2 p3 p4 => Sys2Proof.Machine.execLoadPacket g len rep p0 p1 p2 p3 p4 s
  | .isEmpty g => Sys2Proof.Machine.execIsEmpty g s
  | .waitEmpty g => Sys2Proof.Machine.execWaitEmpty g s
  | .readCv cv => Sys2Proof.Machine.execReadCv cv s
  | .writeProgCvByte cv val => Sys2Proof.Machine.execWriteProgCvByte cv val s
  | .writeProgCvBit cv bit val => Sys2Proof.Machine.execWriteProgCvBit cv bit val s
  | .illegal w => Sys2Proof.Machine.execIllegal w s
  | .irqFull g => Sys2Proof.Machine.execIrqFull g s
  | .irqPulse g => Sys2Proof.Machine.execIrqPulse g s
  | .dccReset => Sys2Proof.Machine.execDccReset s
  | .dccIdle => Sys2Proof.Machine.execDccIdle s
  | .smVerifyByte a d x => Sys2Proof.Machine.execSmVerifyByte a d x s
  | .smWriteByte a d x => Sys2Proof.Machine.execSmWriteByte a d x s
  | .smVerifyBit a v b x => Sys2Proof.Machine.execSmVerifyBit a v b x s
  | .smWriteBit a v b x => Sys2Proof.Machine.execSmWriteBit a v b x s

end Sys2Proof.Machine
end

