-- ==== Sys2Proof/Machine/Schedule.lean ====
section
/-! DEFINITION. Which agent moves (R11, R183, R190 to R192, R331), and what the host fetches (R33, R82). -/

namespace Sys2Proof.Machine

/-- Some timer interrupt is latched and attached. -/
def anyDeliverable (s : State) : Bool :=
  s.ops.full.deliverable || s.ops.pulse.deliverable || s.prog.full.deliverable || s.prog.pulse.deliverable

/-- Some latched interrupt has reached the latency bound (R192). -/
def anyDue (s : State) : Bool :=
  let l := s.params.isrLatencyMax
  s.ops.full.due l || s.ops.pulse.due l || s.prog.full.due l || s.prog.pulse.due l

/-- The host has a step: it has a command in execution or one to take, its delay is over, and, under the ideal latency, no interrupt is
latched and attached (R33, R191, R331). -/
def hostEnabled (s : State) : Bool :=
  (s.host.cmd.isSome || !s.inputs.cmds.isEmpty) && decide (s.host.wakeAt ≤ s.now) &&
    (!anyDeliverable s || decide (0 < s.params.isrLatencyMax))

/-- The agent has a step in a block that is not faulted (R183, R190, R191). -/
def enabled (s : State) : Agent → Bool
  | .host => hostEnabled s
  | .isr k g => ((s.gen g).timer k).deliverable
  | .clock => !anyDue s

/-- The agents (R11). -/
def agents : List Agent :=
  [.isr .full .ops, .isr .pulse .ops, .isr .full .prog, .isr .pulse .prog, .host, .clock]

/-- The agents that have a step. -/
def enabledAgents (s : State) : List Agent := agents.filter (enabled s)

/-- The host has had a step for as many steps in a row as this wait of it may last, so it is its turn (R191, log entry 10). -/
def hostMustMove (s : State) : Bool :=
  hostEnabled s && decide (Config.hostPatience s.inputs.waits ≤ s.inputs.passed)

/-- A free choice among the agents that have a step: the spec admits every order its priority rules allow (R331, D1) in which the host
is not passed over for ever (R191). -/
def freeAgent (s : State) : Agent :=
  let l := enabledAgents s
  if hostMustMove s then .host else l.getD (Config.freeChoice s.inputs.draws % l.length) .clock

/-- The agent that moves next: the next of the given order if it has a step, else a free choice. -/
def nextAgent (s : State) : Agent :=
  match s.inputs.sched with
  | a :: _ => if enabled s a then a else freeAgent s
  | [] => freeAgent s

/-- A host passed over while it had a step has waited one step more; its wait ends where it moves or has no step (R191). -/
def countWait (s : State) (a : Agent) : Inputs :=
  if hostEnabled s && a != .host then { s.inputs with passed := s.inputs.passed + 1 }
  else { s.inputs with passed := 0, waits := s.inputs.waits + 1 }

/-- The agent that moves next, and the state once it is chosen: the given order is used up by one, and the host's wait is counted. -/
def pickAgent (s : State) : Agent × State :=
  (nextAgent s, { s with
    inputs := { countWait s (nextAgent s) with sched := s.inputs.sched.tail, draws := s.inputs.draws + 1 } })

/-- The code the host is at: the frame in the fill step of a load the block makes itself, else its command word. -/
def hostCode (h : HostState) (w : CommandWord) : Code :=
  match h.phase with
  | .load .caller .fill => .word w
  | .load _ .fill => .frame h.load.frame
  | _ => .word w

/-- The instruction the host is at. A load register that holds no frame of the table is laid out by the command itself. -/
def hostInstr (h : HostState) (w : CommandWord) : Instr :=
  match decode (hostCode h w) with
  | .ok i => i
  | .error _ => decodeWord w

/-- The host's delay is over, and a host that is ready takes its next command word (R33, R191). `wake_at` keeps its value past the time it
names and becomes 0 here, at the host's next step (DESIGN CHOICE, log entry 23). -/
def takeCommand (s : State) : State :=
  let s := { s with host := { s.host with wakeAt := 0 } }
  match s.host.cmd, s.inputs.cmds with
  | none, w :: ws =>
    { s with host := { s.host with cmd := some w, phase := .entry }, inputs := { s.inputs with cmds := ws } }
  | _, _ => s

/-- The instruction the host runs and the state it runs it in. A host with no command has no step (`hostEnabled`). -/
def hostFetch (s : State) : Instr × State :=
  let t := takeCommand s
  (hostInstr t.host (t.host.cmd.getD 0), t)

/-! ### Giving the block one code to run (`State.withFetchWord`) -/

/-- A timer with no interrupt latched. -/
def Timer.quiet (t : Timer) : Timer := { t with latched := false, age := 0 }

/-- The host is the next agent to move: the block is not faulted, no interrupt is latched and no delay runs. -/
def hostNext (s : State) : State :=
  { s with
    ops := { s.ops with full := s.ops.full.quiet, pulse := s.ops.pulse.quiet }
    prog := { s.prog with full := s.prog.full.quiet, pulse := s.prog.pulse.quiet }
    faulted := none
    host := { s.host with wakeAt := 0 }
    inputs := { s.inputs with sched := .host :: s.inputs.sched } }

/-- A word is the next command the host takes (R33). -/
def offerWord (w : CommandWord) (s : State) : State :=
  let s := hostNext s
  { s with
    host := { s.host with cmd := none, phase := .entry }
    inputs := { s.inputs with cmds := w :: s.inputs.cmds } }

/-- A further slot of the pool, held by the host (R126). -/
def holdNewSlot (G : GenState) : GenState :=
  { G with poolSize := G.poolSize + 1, slots := G.slots ++ [Packet.zero], filling := some G.slots.length }

/-- A frame is in the load register of a boot load of PROG that holds a slot and is at its fill step (R127, R240). -/
def offerFrame (bytes : List Byte) (s : State) : State :=
  let s := (hostNext s).modGen .prog holdNewSlot
  { s with host := { s.host with
      cmd := some (0x2#4 ++ Gen.prog.code ++ 0#59)
      phase := .load .bootReset .fill
      load := { gen := .prog, frame := bytes, repeats := 0 } } }

end Sys2Proof.Machine
end

