-- ==== Sys2Proof/Machine/Step.lean ====
section
/-! DEFINITION. One step of the block: the agent that moves next takes its one atomic step (R11, R65, R331). -/

namespace Sys2Proof.Machine

/-- The agent's step: an ISR runs its entry point's body, the host the instruction it is at, and the clock ticks (R11, R183, R190). -/
def runAgent (a : Agent) (s : State) : Host.Outcome State Fault Refusal :=
  match a with
  | .clock => .next (clockStep s)
  | .isr k g => exec (decodeInterrupt k g) s
  | .host => exec (hostFetch s).1 (hostFetch s).2

/-- One step. A faulted block has none (R322). -/
def step (s : State) : Host.Outcome State Fault Refusal :=
  match s.faulted with
  | some r => .fault (.quiescent r)
  | none => runAgent (pickAgent s).1 (pickAgent s).2

/-- The state whose very next step runs the instruction that a table row's bits spell: a command word is offered to the ready host; a
frame stands in the load register of a boot load at its fill step. Bits of another width spell no instruction. -/
def State.withFetchWord (s : State) (nbits w : Nat) : State :=
  match tableCode nbits w with
  | some (.word c) => offerWord c s
  | some (.frame bytes) => offerFrame bytes s
  | some (.interrupt _ _) => s
  | none => s

end Sys2Proof.Machine
end

