-- ==== Sys2Proof/Safety.lean ====
section
/-! DEFINITION. What counts as a safe run, in the terms the claims use: the invariants of the pool and its queues (R30, R32, R68), of
the packets they hold (R24, R29, R132), of the host's position (R33, R280), of the timers (R182, R194, R252) and of the pin
(R188), runs of the block and the host's weak fairness in them (R191), and whole runs of the host's own steps. -/

namespace Sys2Proof.Machine

/-! ### Pool and packets -/

/-- Conservation and ownership: the slot indices held by `free`, `pending`, `filling` and `current` are exactly `0..pool_size−1`, each
once (R30, R32, R68), and there are `pool_size` slots (R152). -/
structure PoolInv (G : GenState) : Prop where
  owned : G.owned.Perm (List.range G.poolSize)
  slots : G.slots.wf G.poolSize = true

/-- The buffer holds the layout of a frame of a legal payload, and `num_bits` is that frame's (R91, R121, R122). -/
def PacketLaid (p : Packet) : Prop :=
  ∃ payload : List Byte, lenLegal payload.length = true ∧
    p.numBits = BitVec.ofNat 8 (numBitsOf (frameOf payload).length) ∧
    ∀ k, k < numBitsOf (frameOf payload).length → bufBit p.buffer k = (layout (frameOf payload)).getD k false

/-- The idle singleton once its generator is configured (R29). -/
structure IdleInv (p : Packet) : Prop where
  bits : ∀ k, k < 49 → bufBit p.buffer k = (layout idleFrame).getD k false
  numBits : p.numBits = 49
  repeats : p.repeats = 0
  cursor : p.currentBit ≤ 49

/-- The packets a generator's ISR can meet: a pending slot is laid out with its cursor at 0 (R132, R156), the current slot is laid out
with its cursor within it (R24), and the idle singleton is the idle frame (R29). -/
structure PacketsInv (G : GenState) : Prop where
  pending : ∀ i ∈ G.pending, ∃ p, G.slots.read i = some p ∧ PacketLaid p ∧ p.currentBit = 0
  current : ∀ i, G.current = .slot i → ∃ p, G.slots.read i = some p ∧ PacketLaid p ∧ p.currentBit ≤ p.numBits
  idle : G.mode ≠ .unconfigured → IdleInv G.idle
  unconfigured : G.mode = .unconfigured → G.current = .none

/-- A frame byte recovered from the stream: bits `23 + 9·j` to `30 + 9·j`, the first the most significant (R91). -/
def recoveredByte (b : Buffer) (j : Nat) : Byte :=
  (List.range 8).foldl (fun y m => setByteBit y (7 - m) (bufBit b (23 + 9 * j + m))) 0

/-! ### The host's position -/

/-- The stages of a load in which the host holds a slot (R31). -/
def holdsSlot : HostPhase → Bool
  | .load _ .fill => true
  | .load _ .publish => true
  | _ => false

/-- The stages of a load in which its frame is in the load register. -/
def holdsFrame : HostPhase → Bool
  | .load _ .acquire => true
  | .load _ .fill => true
  | .load _ .publish => true
  | _ => false

/-- The positions of a boot load or of the arming step (R240, R241). -/
def startPhase : HostPhase → Bool
  | .load .bootReset _ => true
  | .load .bootIdle _ => true
  | .arm => true
  | _ => false

/-- The engine's phases inside a load (R280). -/
def smLoadPhase (write : Bool) : SmPhase → LoadStage → Bool
  | .loadReset, _ => true
  | .loadFrame, _ => true
  | .loadTrail, _ => write
  | .entry, .entry => true
  | _, _ => false

/-- The positions of a service-mode command between two of its steps (R280, R281). -/
def smPositions (write : Bool) (sm : SmState) : HostPhase → Bool
  | .load .engine stage => smLoadPhase write sm.phase stage
  | .poll => sm.phase == .wait
  | .sample => sm.phase == .sample
  | .finish => write
  | _ => false

/-- The positions the host can rest at inside a command, between two of its steps, and the mode of its generator there. -/
def commandPosition (s : State) : Instr → Bool
  | .configure g _ _ =>
    (startPhase s.host.phase || s.host.phase == .startEntry) && (s.gen g).mode == .idle
  | .start g => startPhase s.host.phase && (s.gen g).mode == .idle
  | .stop g => s.host.phase == .drain && (s.gen g).mode == .idle
  | .loadPacket _ _ _ _ _ _ _ _ =>
    s.host.phase == .load .caller .acquire || s.host.phase == .load .caller .fill ||
      s.host.phase == .load .caller .publish
  | .waitEmpty _ => s.host.phase == .poll
  | .readCv _ => smPositions false s.sm s.host.phase && s.sm.op == .readCv && (s.gen .prog).mode != .unconfigured
  | .writeProgCvByte _ _ =>
    smPositions true s.sm s.host.phase && s.sm.op == .writeByte && (s.gen .prog).mode != .unconfigured
  | .writeProgCvBit _ _ _ =>
    smPositions true s.sm s.host.phase && s.sm.op == .writeBit && (s.gen .prog).mode != .unconfigured
  | _ => false

/-- The generator a command loads packets into (R124, R240, R260). -/
def loadTarget : Instr → Gen
  | .configure g _ _ | .start g | .stop g | .loadPacket g _ _ _ _ _ _ _ | .isEmpty g | .waitEmpty g => g
  | _ => .prog

/-- The host's position agrees with the command in execution and with the slots and frame it holds (R31, R33, R127, R156). -/
structure HostInv (s : State) : Prop where
  ready : s.faulted = none → s.host.cmd = none → s.host.phase = .entry
  position : s.faulted = none → ∀ w, s.host.cmd = some w → commandPosition s (decodeWord w) = true
  target : s.faulted = none → holdsFrame s.host.phase = true → ∀ w, s.host.cmd = some w →
    s.host.load.gen = loadTarget (decodeWord w)
  filling : ∀ g, (s.gen g).filling ≠ none ↔ (holdsSlot s.host.phase = true ∧ s.host.load.gen = g)
  frame : holdsFrame s.host.phase = true →
    ∃ payload : List Byte, lenLegal payload.length = true ∧ s.host.load.frame = frameOf payload
  publish : ∀ site, s.host.phase = .load site .publish → ∀ i, (s.gen s.host.load.gen).filling = some i →
    ∃ p, (s.gen s.host.load.gen).slots.read i = some p ∧ PacketLaid p ∧ p.currentBit = 0
  bootFrame : ∀ site stage, s.host.phase = .load site stage → site ≠ .caller → holdsFrame s.host.phase = true →
    ∃ i, decodeFrame s.host.load.frame = .ok i
  rest : ∀ g, (s.gen g).mode ≠ .running → (s.gen g).current ≠ .none →
    s.host.phase = .drain ∧ ∃ w, s.host.cmd = some w ∧ decodeWord w = .stop g

/-! ### Timers and pin -/

/-- The timer has been ended: nothing runs and nothing can be delivered (R252). -/
def Timer.ended (t : Timer) : Bool := !t.begun && !t.attached && !t.alarmEn && !t.latched

/-- The timers of a generator by its mode: ended unless Running (R252); Running, both begun and attached, the full-cycle timer an enabled
auto-reload and the pulse timer a one-shot, with the alarms of one bit (R194). -/
structure TimerInv (G : GenState) : Prop where
  off : G.mode ≠ .running → G.full.ended = true ∧ G.pulse.ended = true
  on : G.mode = .running → G.full.begun = true ∧ G.full.attached = true ∧ G.full.alarmEn = true ∧ G.full.autoreload = true ∧
    G.pulse.begun = true ∧ G.pulse.attached = true ∧ G.pulse.autoreload = false ∧
    ∃ b, G.full.alarm = fullPeriod b ∧ G.pulse.alarm = halfPeriod b

/-- The block's invariant: pool conservation, well-laid packets, timers that agree with the mode, and
an agreeing host position (R24, R29 to R33, R132, R194, R252). -/
structure Inv (s : State) : Prop where
  pool : ∀ g, PoolInv (s.gen g)
  packets : ∀ g, PacketsInv (s.gen g)
  timers : ∀ g, TimerInv (s.gen g)
  host : HostInv s

/-- Where a running generator is in its cell under the ideal latency (R187, R188, R193, R194, R195): in the first half both counters
agree and the pulse alarm is armed; then the pulse interrupt is latched at the half-period; then the second half; then the full-cycle
interrupt is latched with its counter reloaded. -/
inductive CellPhase (G : GenState) : Prop where
  | firstHalf (armed : G.pulse.alarmEn = true) (noFull : G.full.latched = false) (noPulse : G.pulse.latched = false)
      (together : G.pulse.counter = G.full.counter) (before : G.full.counter < G.pulse.alarm)
  | pulseDue (unarmed : G.pulse.alarmEn = false) (noFull : G.full.latched = false) (pulse : G.pulse.latched = true)
      (mid : G.full.counter = G.pulse.alarm)
  | secondHalf (unarmed : G.pulse.alarmEn = false) (noFull : G.full.latched = false) (noPulse : G.pulse.latched = false)
      (after : G.pulse.alarm ≤ G.full.counter) (before : G.full.counter < G.full.alarm)
  | cellDue (unarmed : G.pulse.alarmEn = false) (full : G.full.latched = true) (noPulse : G.pulse.latched = false)
      (reloaded : G.full.counter = 0)

/-- The direction pin is HIGH exactly from a full-cycle ISR to the pulse ISR that follows it (R188), once a first cell has begun. -/
def PinInv (G : GenState) : Prop :=
  G.current ≠ .none → (G.pinLevel = .high ↔ (G.pulse.alarmEn = true ∨ G.pulse.latched = true))

/-- The block under the ideal latency (Λ = 0, R192), every running generator inside one cell of the right shape. -/
structure IdealInv (s : State) : Prop where
  ideal : s.params.isrLatencyMax = 0
  timers : ∀ g, TimerInv (s.gen g)
  cell : ∀ g, (s.gen g).mode = .running → CellPhase (s.gen g)
  pin : ∀ g, (s.gen g).mode = .running → PinInv (s.gen g)

/-- A latched interrupt has waited no longer than the latency bound: the full-cycle timer's counter has counted exactly that wait, and a
pulse timer re-armed since its interrupt latched has counted no more than it. An enabled alarm is still ahead of its counter, so none is
missed and none fires while its interrupt waits (R182, R183, R192, R360). -/
structure LatencyInv (s : State) : Prop where
  budget : s.params.isrLatencyMax < Config.isrBudgetUs
  timers : ∀ g, TimerInv (s.gen g)
  waited : ∀ g, (s.gen g).mode = .running → (s.gen g).full.latched = true →
    (s.gen g).full.counter = (s.gen g).full.age ∧ (s.gen g).full.age ≤ s.params.isrLatencyMax
  below : ∀ g, (s.gen g).mode = .running → (s.gen g).full.counter < (s.gen g).full.alarm
  pulseWaited : ∀ g, (s.gen g).mode = .running → (s.gen g).pulse.latched = true →
    (s.gen g).pulse.age ≤ s.params.isrLatencyMax ∧ ((s.gen g).pulse.alarmEn = true → (s.gen g).pulse.counter ≤ (s.gen g).pulse.age)
  pulseBelow : ∀ g, (s.gen g).mode = .running → (s.gen g).pulse.alarmEn = true → (s.gen g).pulse.counter < (s.gen g).pulse.alarm

/-- The counters of an ACK check in progress (R272). -/
def SampleInv (m : SmState) : Prop :=
  m.phase = .sample → m.k ≤ Config.adcSamples ∧ m.nOk ≤ m.k ∧ m.sum.toNat ≤ 4095 * m.nOk.toNat

/-! ### Where a step stores, which pin it writes, and when a command violates its contract -/

/-- The slot a load's fill step stores to: the one the host holds for the load's generator (R127). -/
def storedSlot (s : State) : Option (Gen × Nat) :=
  match s.host.phase with
  | .load _ .fill => (s.gen s.host.load.gen).filling.map fun i => (s.host.load.gen, i)
  | _ => none

/-- The step from `s` to `t` writes the pin of `g` with `level`: CONFIGURE's first step where it goes on to START, and every ISR that does
not fault (R38, R39, R185, R186, R231). -/
def writesPin (i : Instr) (s t : State) (g : Gen) (level : Level) : Prop :=
  (∃ pin pool, i = .configure g pin pool ∧ s.host.phase = .entry ∧ t.host.phase = .startEntry ∧ level = .low) ∨
  (i = .irqFull g ∧ t.faulted = none ∧ level = .high) ∨ (i = .irqPulse g ∧ level = .low)

/-- The causes of ContractViolation at a command's entry step (R321's table). -/
def contractCause (s : State) : Instr → Bool
  | .configure g _ pool => (s.gen g).mode != .unconfigured || decide (pool.toNat < 2)
  | .start g => (s.gen g).mode == .unconfigured || (s.gen g).mode == .running
  | .stop g | .loadPacket g _ _ _ _ _ _ _ | .isEmpty g | .waitEmpty g => (s.gen g).mode == .unconfigured
  | .readCv cv | .writeProgCvByte cv _ | .writeProgCvBit cv _ _ =>
    (s.gen .prog).mode == .unconfigured || decide (cv.toNat < 1) || decide (1024 < cv.toNat) || s.params.maxMaProg == 0
  | .illegal _ | .irqFull _ | .irqPulse _ | .dccReset | .dccIdle | .smVerifyByte _ _ _ | .smWriteByte _ _ _
  | .smVerifyBit _ _ _ _ | .smWriteBit _ _ _ _ => false

/-! ### Runs of the block, of the host, of the cursor and of the timers -/

/-- A run of the block that never ends: each state is the step of the one before. -/
def IsRun (run : Nat → State) : Prop := ∀ n, step (run n) = .next (run (n + 1))

/-- The host is weakly fair in a run: if it has a step from some time on, it eventually takes one (R191, D43). -/
def HostWeaklyFair (run : Nat → State) : Prop :=
  ∀ n, (∀ m, n ≤ m → hostEnabled (run m) = true) → ∃ m, n ≤ m ∧ (pickAgent (run m)).1 = .host

/-- `n` host steps of one instruction, with no other agent's step between them: each from the state the one before left. -/
def hostSteps (i : Instr) : Nat → State → Host.Outcome State Fault Refusal
  | 0, s => .next s
  | n + 1, s =>
    match exec i s with
    | .next t => hostSteps i n t
    | .fault r => .fault r
    | .refused r => .refused r

/-- The bits of `n` successive calls of `GetNextBit`, and the generator after them; none if a guard fires on the way. -/
def nextBits : Nat → GenState → Option (List Bool × GenState)
  | 0, G => some ([], G)
  | n + 1, G =>
    match getNextBit G with
    | none => none
    | some (b, G') =>
      match nextBits n G' with
      | none => none
      | some (bs, G'') => some (b :: bs, G'')

/-- `n` ticks of a generator's timers. -/
def ticks : Nat → GenState → GenState
  | 0, G => G
  | n + 1, G => ticks n G.tick

/-- The block has not faulted: a run is safe when every state of it is (R322). -/
def State.safe (s : State) : Prop := s.faulted = none

end Sys2Proof.Machine
end

