-- ==== Sys2Proof/Certificates/Slice0/Obligations.lean ====
section
/-! DEFINITION. The statements for the provers. Each docstring names the rules of spec/ it formalises, or the sections it rests on where
the spec marks the point as derived. -/

open Sys2Proof Sys2Proof.Machine

/-! ### Encodings -/

/-- R81, R82, R88, R89: every well-formed instruction, with every operand at every value its fields admit, is what its own code decodes
to. -/
def Obligations.DecodeEncodeAgree : Prop :=
  ∀ i : Instr, i.wf = true → decode (encode i) = .ok i

/-- R82: every word is one of the nine commands, and is then that command's own encoding, or it is illegal; a word with an unassigned `OP`
or with `G = 1` in a service-mode command is illegal, as is one with a reserved bit set (it fits no row of the table); an illegal word
raises IllegalCommand in every state of a block that is not faulted and changes nothing else. -/
def Obligations.IllegalWordsRaiseIllegalCommand : Prop :=
  (∀ w : CommandWord, spellsCommand w = true →
    encode (decodeWord w) = .word w ∧ decode (.word w) = .ok (decodeWord w) ∧ ∀ v, decodeWord w ≠ .illegal v) ∧
  (∀ w : CommandWord, spellsCommand w = false → decodeWord w = .illegal w) ∧
  (∀ w : CommandWord, (opField w = 0 ∨ 0xA#4 ≤ opField w) → spellsCommand w = false) ∧
  (∀ w : CommandWord, 7#4 ≤ opField w → w.getLsbD 59 = true → spellsCommand w = false) ∧
  (∀ (w : CommandWord) (s : State), spellsCommand w = false → s.faulted = none →
    exec (decodeWord w) s = .next { s with faulted := some .illegalCommand })

/-- R95: the spec's twelve worked encodings decode to the instructions they stand for, and so do a word of a pseudo-instruction (R94) and a
frame of each row (R287). -/
def Obligations.WorkedEncodingsDecode : Prop :=
  decodeTableWord 64 0x1800190000400000 = some (.configure .prog 25 64) ∧
  decodeTableWord 64 0x2800000000000000 = some (.start .prog) ∧
  decodeTableWord 64 0x3000000000000000 = some (.stop .ops) ∧
  decodeTableWord 64 0x4300033F80000000 = some (.loadPacket .ops 3 0 0x03 0x3F 0x80 0 0) ∧
  decodeTableWord 64 0x4A14000000000000 = some (loadReset .prog 20) ∧
  decodeTableWord 64 0x4A0AFF0000000000 = some (loadIdle .prog 10) ∧
  decodeTableWord 64 0x5000000000000000 = some (.isEmpty .ops) ∧
  decodeTableWord 64 0x6800000000000000 = some (.waitEmpty .prog) ∧
  decodeTableWord 64 0x7000000100000000 = some (.readCv 1) ∧
  decodeTableWord 64 0x7000040000000000 = some (.readCv 1024) ∧
  decodeTableWord 64 0x8000000700000055 = some (.writeProgCvByte 7 0x55) ∧
  decodeTableWord 64 0x9000001D00000501 = some (.writeProgCvBit 29 5 true) ∧
  decodeTableWord 24 0x000000 = some .dccReset ∧
  decodeTableWord 24 0xFF00FF = some .dccIdle ∧
  decodeTableWord 32 0x74000175 = some (.smVerifyByte 0 0x01 0x75) ∧
  decodeTableWord 32 0x7FFFFF7F = some (.smWriteByte 1023 0xFF 0x7F) ∧
  decodeTableWord 32 0x781CED89 = some (.smVerifyBit 28 true 5 0x89) ∧
  decodeTableWord 32 0x781CFD99 = some (.smWriteBit 28 true 5 0x99)

/-- R262, R264 to R267: for every CV, the frames the serializer makes of the engine's builders are the four service-mode rows of the table,
with `A = cv − 1`, and are well formed. -/
def Obligations.EngineBuildersGiveTableFrames : Prop :=
  ∀ (cv : BitVec 11) (d : Byte) (v : Bool) (b : BitVec 3), 1 ≤ cv.toNat → cv.toNat ≤ 1024 →
    ∃ a : BitVec 10, a.toNat = cv.toNat - 1 ∧
      (∃ x, decodeFrame (frameOf (verifyByte (cv.setWidth 16) d)) = .ok (.smVerifyByte a d x) ∧
        (Instr.smVerifyByte a d x).wf = true) ∧
      (∃ x, decodeFrame (frameOf (writeByte (cv.setWidth 16) d)) = .ok (.smWriteByte a d x) ∧
        (Instr.smWriteByte a d x).wf = true) ∧
      (∃ x, decodeFrame (frameOf (verifyBit (cv.setWidth 16) v b)) = .ok (.smVerifyBit a v b x) ∧
        (Instr.smVerifyBit a v b x).wf = true) ∧
      (∃ x, decodeFrame (frameOf (writeBit (cv.setWidth 16) v b)) = .ok (.smWriteBit a v b x) ∧
        (Instr.smWriteBit a v b x).wf = true)

/-- R86: a response's fields, the status codes and the truth values; every bit between the two fields is 0. -/
def Obligations.ResponseWordFields : Prop :=
  (∀ (st : Status) (v : BitVec 16), (responseWord st v).extractLsb' 56 8 = st.code ∧
    (responseWord st v).extractLsb' 0 16 = v ∧ (responseWord st v).extractLsb' 16 40 = 0) ∧
  Status.ok.code = 0x00 ∧ Status.invalidPayloadLen.code = 0x01 ∧ Status.hardwareSetupFailure.code = 0x02 ∧
  boolValue true = 1 ∧ boolValue false = 0

/-! ### The serialized stream -/

/-- R91: the stream of a frame: 22 ones, then for each byte a 0 and its eight bits, most significant first; `22 + 9·L` bits in all. -/
def Obligations.LayoutPlacesEveryBit : Prop :=
  ∀ frame : List Byte,
    (layout frame).length = 22 + 9 * frame.length ∧
    (∀ i, i ≤ 21 → (layout frame)[i]? = some true) ∧
    (∀ j, j < frame.length → (layout frame)[22 + 9 * j]? = some false) ∧
    (∀ j y, frame[j]? = some y → ∀ m, m ≤ 7 → (layout frame)[23 + 9 * j + m]? = some (y.getLsbD (7 - m)))

/-- R87, R120: the checksum is the XOR of the payload bytes, and a frame's bytes XOR to 0. -/
def Obligations.ChecksumIsXorOfPayload : Prop :=
  (∀ payload : List Byte, checksum payload = payload.foldr (· ^^^ ·) 0) ∧
  (∀ payload : List Byte, frameOf payload = payload ++ [checksum payload] ∧ checksum (frameOf payload) = 0)

/-- R123 (derived in the spec from R8 and R122): the byte form of a frame of 3 to 6 bytes laid out in a zeroed buffer; a byte the frame
does not have stands as 0, and the bits past the stream are the zeroed buffer's. -/
def Obligations.LayoutByteForm : Prop :=
  ∀ (F : List Byte) (r : BitVec 8), 3 ≤ F.length → F.length ≤ 6 →
    (fillPacket Packet.zero F r).buffer =
      (#v[(0xFF : Byte), 0xFF, 0xFC ||| (F.getD 0 0 >>> 7), F.getD 0 0 <<< 1, F.getD 1 0, F.getD 2 0 >>> 1,
        (F.getD 2 0 <<< 7) ||| (F.getD 3 0 >>> 2), (F.getD 3 0 <<< 6) ||| (F.getD 4 0 >>> 3),
        (F.getD 4 0 <<< 5) ||| (F.getD 5 0 >>> 4), F.getD 5 0 <<< 4] : Buffer)

/-- R132 (derived in the spec): in every state that meets the block's invariant, every pending packet's stream begins with 22 ones and a 0,
its first three bytes are as given, the bit before every frame byte is 0, its frame bytes XOR to 0, its length is a legal one and its cursor is
at 0. -/
def Obligations.PendingPacketsAreWellFormed : Prop :=
  ∀ (s : State) (g : Gen) (i : Nat), Inv s → i ∈ (s.gen g).pending →
    ∃ p, (s.gen g).slots.read i = some p ∧ p.currentBit = 0 ∧
      p.numBits.toNat ∈ [49, 58, 67, 76] ∧
      (∀ k, k ≤ 21 → bufBit p.buffer k = true) ∧ bufBit p.buffer 22 = false ∧
      p.buffer[0] = 0xFF ∧ p.buffer[1] = 0xFF ∧ p.buffer[2] >>> 2 = 0x3F ∧
      (∀ j, 22 + 9 * j < p.numBits.toNat → bufBit p.buffer (22 + 9 * j) = false) ∧
      (List.range ((p.numBits.toNat - 22) / 9)).foldr (fun j x => recoveredByte p.buffer j ^^^ x) 0 = 0

/-! ### The step -/

/-- R33, R82, R88: when the host is the agent that moves, the step is exec of what it is at: a ready host takes the next word, which it
decodes; a host inside a command goes on with that command, and at the fill step of a load the block makes itself it runs the frame in
the load register (that a load's frame stands as an instruction is the model's reading, log entry 9). Moving on clears `wake_at` (that it keeps
its value until then is the model's choice, log entry 23). -/
def Obligations.StepRunsHostInstruction : Prop :=
  ∀ (s s1 : State) (w : CommandWord), s.faulted = none → pickAgent s = (.host, s1) →
    (∀ ws, s.host.cmd = none → s.inputs.cmds = w :: ws →
      step s = exec (decodeWord w)
        { s1 with
          host := { s1.host with cmd := some w, phase := .entry, wakeAt := 0 }
          inputs := { s1.inputs with cmds := ws } }) ∧
    (s.host.cmd = some w → (∀ site, s.host.phase = .load site .fill → site = .caller) →
      step s = exec (decodeWord w) { s1 with host := { s1.host with wakeAt := 0 } }) ∧
    (∀ site i, s.host.cmd = some w → s.host.phase = .load site .fill → site ≠ .caller →
      decodeFrame s.host.load.frame = .ok i →
      step s = exec i { s1 with host := { s1.host with wakeAt := 0 } })

/-- R183, R190, R330: when an ISR is the agent that moves, the step is exec of its entry point; when the clock moves, time and every timer
advance by one tick and nothing else changes: no mode, no packet, queue or cursor, no pin, host, engine, trace or fault mark. Choosing the
agent changes the inputs alone. -/
def Obligations.StepRunsInterruptOrClock : Prop :=
  ∀ (s s1 : State), s.faulted = none →
    (∀ g, pickAgent s = (.isr .full g, s1) → step s = exec (.irqFull g) s1) ∧
    (∀ g, pickAgent s = (.isr .pulse g, s1) → step s = exec (.irqPulse g) s1) ∧
    (pickAgent s = (.clock, s1) → step s = .next
      { s1 with
        now := s1.now + 1
        ops := { s1.ops with full := timerTick s1.ops.full, pulse := timerTick s1.ops.pulse }
        prog := { s1.prog with full := timerTick s1.prog.full, pulse := timerTick s1.prog.pulse } }) ∧
    (pickAgent s).2 = { s with inputs := (pickAgent s).2.inputs }

/-- R11, R33, R183, R190 to R192, R331 (1): in a block that is not faulted the agent that moves has a step, and under the ideal latency a latched
and attached interrupt is taken before any host step and before the next tick. Each agent has a step exactly when: an ISR while its interrupt is
latched and attached; the clock while none of those has reached its bound; the host while it has a command in execution or a word to take, its
delay is over, and no interrupt waits or the latency is above 0 (host steps may then interleave). That an order given from outside
(`inputs.sched`) is followed while its next agent has a step is no rule of the spec but the model's choice (log entries 5 and 10), and that a
ready host has a step only while a word is given it in `inputs.cmds` is log entry 5. -/
def Obligations.InterruptsPreemptHostAndClock : Prop :=
  ∀ s : State, s.faulted = none → enabled s (pickAgent s).1 = true ∧
    (∀ a rest, s.inputs.sched = a :: rest → enabled s a = true → (pickAgent s).1 = a) ∧
    (s.params.isrLatencyMax = 0 → anyDeliverable s = true → ∃ k g, (pickAgent s).1 = .isr k g) ∧
    (∀ k g, enabled s (.isr k g) = true ↔ ((s.gen g).timer k).latched = true ∧ ((s.gen g).timer k).attached = true) ∧
    (enabled s .clock = true ↔ ∀ k g, ((s.gen g).timer k).latched = true → ((s.gen g).timer k).attached = true →
      ((s.gen g).timer k).age < s.params.isrLatencyMax) ∧
    (enabled s .host = true ↔ (s.host.cmd ≠ none ∨ s.inputs.cmds ≠ []) ∧ s.host.wakeAt ≤ s.now ∧
      ((∀ k g, ¬ (((s.gen g).timer k).latched = true ∧ ((s.gen g).timer k).attached = true)) ∨ 0 < s.params.isrLatencyMax))

/-- A word or frame given by `withFetchWord` is what the very next step runs, in a block that is not faulted, with the host at that
instruction (the model's interface to its host; log entry 8). -/
def Obligations.OfferedCodeIsRunNext : Prop :=
  (∀ (s : State) (i : Instr) (w : CommandWord), i.wf = true → encode i = .word w →
    ∃ t, step (s.withFetchWord 64 w.toNat) = exec i t ∧ t.faulted = none ∧ t.host.cmd = some w ∧ t.host.phase = .entry ∧
      ∀ g, (t.gen g).mode = (s.gen g).mode ∧ (t.gen g).slots = (s.gen g).slots ∧ (t.gen g).free = (s.gen g).free ∧
        (t.gen g).pending = (s.gen g).pending) ∧
  (∀ (s : State) (i : Instr) (bytes : List Byte) (n w : Nat), encode i = .frame bytes → tableCode n w = some (.frame bytes) →
    ∃ t j p, step (s.withFetchWord n w) = exec i t ∧ t.faulted = none ∧ t.host.phase = .load .bootReset .fill ∧
      t.host.load.frame = bytes ∧ (t.gen .prog).filling = some j ∧ (t.gen .prog).slots.read j = some p)

/-! ### Faults -/

/-- R40, R322: once faulted, no agent has a step and every instruction answers so; the step that raises a fault makes no other change; the
block is not faulted at power-on. (A step of a faulted block answers a fault of the model's own, log entry 1.) -/
def Obligations.FaultsArePermanentAndPrecise : Prop :=
  State.reset.faulted = none ∧
  (∀ (s : State) (r : FaultReason), s.faulted = some r →
    step s = .fault (.quiescent r) ∧ ∀ i, exec i s = .fault (.quiescent r)) ∧
  (∀ (i : Instr) (s t : State) (r : FaultReason), s.faulted = none → exec i s = .next t → t.faulted = some r →
    t = { s with faulted := some r })

/-- R213, R217, R321: the reasons with their codes and exact causes. IllegalCommand is raised by an illegal word alone. ContractViolation is
raised by a host command alone: at its entry exactly on the causes of the table; and by a step of a block that meets the invariant exactly
where a ready host takes a word that has a cause, never later in a command, and never by an ISR, a frame or the clock. CursorOverrun is raised
by the full-cycle ISR alone, exactly when the packet `GetNextBit` has come to has its cursor at or past its length, so always when the current
packet's `current_bit` exceeds its `num_bits`. (A cursor at no stored place counts as past the length: log entry 13.) -/
def Obligations.FaultReasonsHaveTheirCauses : Prop :=
  FaultReason.illegalCommand.code = 1 ∧ FaultReason.contractViolation.code = 2 ∧ FaultReason.cursorOverrun.code = 3 ∧
  (∀ (i : Instr) (s : State), s.faulted = none → s.host.phase = .entry →
    (contractCause s i = true → exec i s = .next { s with faulted := some .contractViolation }) ∧
    (contractCause s i = false → ∀ t, exec i s = .next t → t.faulted ≠ some .contractViolation)) ∧
  (∀ (i : Instr) (s t : State), s.faulted = none → exec i s = .next t →
    (t.faulted = some .illegalCommand ↔ ∃ w, i = .illegal w) ∧
    (t.faulted = some .contractViolation → (∃ w, encode i = .word w) ∧ ∀ w, i ≠ .illegal w) ∧
    (t.faulted = some .cursorOverrun → ∃ g, i = .irqFull g)) ∧
  (∀ s t : State, Inv s → s.faulted = none → step s = .next t →
    (t.faulted = some .contractViolation ↔
      (pickAgent s).1 = .host ∧ s.host.cmd = none ∧ ∃ w ws, s.inputs.cmds = w :: ws ∧ contractCause s (decodeWord w) = true)) ∧
  (∀ (g : Gen) (s : State), s.faulted = none → (s.gen g).full.latched = true → (s.gen g).full.attached = true →
    (exec (.irqFull g) s = .next { s with faulted := some .cursorOverrun } ↔
      ¬ ∃ p, (selectPacket (closePass (s.gen g))).currentPacket = some p ∧ p.currentBit < p.numBits ∧ p.currentBit.toNat < 80) ∧
    (∀ p, (s.gen g).currentPacket = some p → p.numBits < p.currentBit →
      exec (.irqFull g) s = .next { s with faulted := some .cursorOverrun }))

/-! ### Invariants -/

/-- R350: every field the power-on column gives a value has that value right after power-on. -/
def Obligations.PowerOnValues : Prop :=
  State.reset.now = 0 ∧ State.reset.trace = [] ∧ State.reset.faulted = none ∧ State.reset.host.cmd = none ∧
    State.reset.host.resp = none ∧ State.reset.host.wakeAt = 0 ∧ State.reset.sm.op = .none ∧
    ∀ g, (State.reset.gen g).mode = .unconfigured ∧ (State.reset.gen g).slots = [] ∧ (State.reset.gen g).free = [] ∧
      (State.reset.gen g).pending = [] ∧ (State.reset.gen g).filling = none ∧ (State.reset.gen g).current = .none ∧
      (State.reset.gen g).pinMode = .input ∧
      ∀ k, ((State.reset.gen g).timer k).begun = false ∧ ((State.reset.gen g).timer k).counter = 0 ∧
        ((State.reset.gen g).timer k).alarm = 0 ∧ ((State.reset.gen g).timer k).autoreload = false ∧
        ((State.reset.gen g).timer k).alarmEn = false ∧ ((State.reset.gen g).timer k).attached = false ∧
        ((State.reset.gen g).timer k).latched = false

/-- The invariants hold at power-on: the block's own; the ideal-latency one where the latency is 0, and the bounded-latency one where it
is below the ISR budget (the latency is an OPEN parameter, so it is a premise here). They rest on values the model chose for fields R41 calls
unspecified or gives no value: an unconfigured generator's pool size of 0 (the pool's conservation, which R32 states of configured generators
alone), the engine's phase Done (the sample counters) and the host's entry position: DESIGN CHOICE, log entry 2. -/
def Obligations.ResetMeetsInvariants : Prop :=
  Inv State.reset ∧ SampleInv State.reset.sm ∧
  (∀ p : Params, p.isrLatencyMax = 0 → IdealInv { State.reset with params := p }) ∧
  (∀ p : Params, p.isrLatencyMax < 58 → LatencyInv { State.reset with params := p })

/-- R24, R29 to R32, R165, R194, R252: every step keeps pool conservation and ownership, the packets the ISR can meet, the timers' agreement
with the mode, and the host's agreement with the command in execution. (That a host with no command rests at the entry position is the model's
choice: log entry 2.) -/
def Obligations.StepKeepsInvariant : Prop :=
  ∀ s t : State, Inv s → step s = .next t → Inv t

/-- R182, R187, R188, R193, R194: under the ideal latency every step keeps each running generator inside one cell of the right shape, its two
interrupts never latched together, and its pin HIGH exactly during the first half of the cell. -/
def Obligations.StepKeepsIdealCells : Prop :=
  (∀ s t : State, Inv s → IdealInv s → step s = .next t → IdealInv t) ∧
  (∀ s : State, IdealInv s → ∀ g, ¬ ((s.gen g).full.latched = true ∧ (s.gen g).pulse.latched = true))

/-- R182, R192, R360: with a latency below the 58 µs budget every step keeps each latched interrupt, full-cycle and pulse, within its bound
and each enabled alarm ahead of its counter, so no alarm is missed and none fires while its interrupt waits. (The wait is the model's field
`age`, which R192 asks for: log entry 7.) -/
def Obligations.StepKeepsLatencyBound : Prop :=
  ∀ s t : State, LatencyInv s → step s = .next t → LatencyInv t

/-- R272: the counters of an ACK check stay within 250 reads of at most 4095 each, so the sum stays within 1023750. -/
def Obligations.StepKeepsSampleCounters : Prop :=
  (∀ s t : State, SampleInv s.sm → step s = .next t → SampleInv t.sm) ∧
  (∀ m : SmState, SampleInv m → m.phase = .sample → m.sum.toNat ≤ 1023750)

/-- R214: in a state that meets the invariant no step raises CursorOverrun. -/
def Obligations.CursorNeverOverruns : Prop :=
  ∀ s t : State, Inv s → s.faulted = none → step s = .next t → t.faulted ≠ some .cursorOverrun

/-- R11, R191, R322, R362: a block that meets the invariant and is not faulted always has a step: it never stops with a fault or a refusal.
And in every run without end the host is weakly fair: if it has a step from some time on, it eventually takes one (how long it may be passed
over is a free value: log entry 10). -/
def Obligations.UnfaultedBlockAlwaysSteps : Prop :=
  (∀ s : State, Inv s → s.faulted = none → ∃ t, step s = .next t) ∧
  (∀ run : Nat → State, IsRun run → HostWeaklyFair run)

/-! ### Whole-machine rules -/

/-- R37, R20: only the clock advances time, by one tick; no step writes a parameter (that State holds the parameters is log entry 6). -/
def Obligations.OnlyClockAdvancesTime : Prop :=
  ∀ s t : State, step s = .next t →
    t.params = s.params ∧ (t.now = s.now + 1 ∧ (pickAgent s).1 = .clock ∨ t.now = s.now ∧ (pickAgent s).1 ≠ .clock)

/-- R38, R39: CONFIGURE's first step where it goes on to START (LOW), every full-cycle ISR that does not fault (HIGH) and every pulse ISR
(LOW) write their own generator's pin, and append the time, generator and level to the trace whether or not the level changes; every other
step leaves both pin levels and the trace as they were. -/
def Obligations.PinWritesAreTraced : Prop :=
  ∀ (i : Instr) (s t : State), exec i s = .next t →
    (∀ g l, writesPin i s t g l →
      t.trace = s.trace ++ [{ time := s.now, gen := g, level := l }] ∧ (t.gen g).pinLevel = l ∧
      (t.gen g.other).pinLevel = (s.gen g.other).pinLevel) ∧
    ((∀ g l, ¬ writesPin i s t g l) → t.trace = s.trace ∧ ∀ g, (t.gen g).pinLevel = (s.gen g).pinLevel)

/-- R27, R254: a generator's mode is changed by its own CONFIGURE (Unconfigured to Idle), by START's arming step (to Running, also inside
CONFIGURE) and by STOP (to Idle), and by nothing else; no instruction makes a generator Unconfigured. -/
def Obligations.ModeChangesOnlyByController : Prop :=
  ∀ (i : Instr) (s t : State) (g : Gen), exec i s = .next t → (t.gen g).mode ≠ (s.gen g).mode →
    (∃ pin pool, i = .configure g pin pool ∧ s.host.phase = .entry ∧ (s.gen g).mode = .unconfigured ∧ (t.gen g).mode = .idle) ∨
    ((i = .start g ∨ ∃ pin pool, i = .configure g pin pool) ∧ s.host.phase = .arm ∧ (t.gen g).mode = .running) ∨
    (i = .stop g ∧ s.host.phase = .entry ∧ (s.gen g).mode ≠ .unconfigured ∧ (t.gen g).mode = .idle)

/-- R29: once a generator is configured, no step changes the idle singleton's buffer, length or repeat count (its repeat count stays 0 in
states that meet the invariant). -/
def Obligations.IdleSingletonNeverChanges : Prop :=
  ∀ (s t : State) (g : Gen), Inv s → step s = .next t → (s.gen g).mode ≠ .unconfigured →
    (t.gen g).idle.buffer = (s.gen g).idle.buffer ∧ (t.gen g).idle.numBits = 49 ∧ (t.gen g).idle.repeats = 0

/-- R36, R41: a timer of `g` is touched only by START's arming step (also inside CONFIGURE, whose own first step leaves both timers), by STOP's
first step, by the full-cycle ISR of `g` (both timers) and by the pulse ISR of `g` (the pulse timer). -/
def Obligations.TimersTouchedOnlyByStartStopAndIsrs : Prop :=
  ∀ (i : Instr) (s t : State) (g : Gen) (k : TimerKind), exec i s = .next t → ((t.gen g).timer k) ≠ ((s.gen g).timer k) →
    ((i = .start g ∨ ∃ pin pool, i = .configure g pin pool) ∧ s.host.phase = .arm) ∨ (i = .stop g ∧ s.host.phase = .entry) ∨
      i = .irqFull g ∨ (i = .irqPulse g ∧ k = .pulse)

/-! ### Timers and the waveform -/

/-- R182, R183, R192: one tick of any timer. A begun one counts; at its enabled alarm an attached timer latches and an unattached one drops
the alarm; an auto-reloading timer restarts at 0 and a one-shot disables itself. A timer that is not begun does not count. A latched and
attached interrupt ages by the tick; an alarm that fires while its interrupt is latched merges into it. (That a merged interrupt keeps the
older age, and a new one begins at 0, is the model's choice: log entry 7.) -/
def Obligations.AlarmFiresAtItsCount : Prop :=
  ∀ (t : Timer) (age : Nat), (age = if t.latched = true ∧ t.attached = true then t.age + 1 else t.age) →
    (t.begun = false → timerTick t = { t with age := age }) ∧
    (t.begun = true → ¬ (t.alarmEn = true ∧ t.counter + 1 = t.alarm) →
      timerTick t = { t with counter := t.counter + 1, age := age }) ∧
    (t.begun = true → t.alarmEn = true → t.counter + 1 = t.alarm →
      timerTick t = { t with
        latched := t.attached || t.latched
        counter := if t.autoreload then 0 else t.alarm
        alarmEn := t.autoreload
        age := if t.latched then age else 0 })

/-- R181, R189: the cell shapes, and that both halves of every cell are equal. -/
def Obligations.CellShapes : Prop :=
  fullPeriod true = 116 ∧ halfPeriod true = 58 ∧ fullPeriod false = 196 ∧ halfPeriod false = 98 ∧
    ∀ b, fullPeriod b = 2 * halfPeriod b

/-- R182, R188 (derived in the spec): after a full-cycle ISR for bit `b` with the counter just reloaded, no interrupt latches before
`Half(b)` ticks, the pulse interrupt latches at `Half(b)`, and, delivered at once, the full-cycle interrupt latches `Full(b)` ticks after
the ISR and not before. (The delivery also sets the model's `age` to 0: log entry 7.) -/
def Obligations.CellLastsFullPeriod : Prop :=
  ∀ (G : GenState) (b : Bool), TimerInv G → G.mode = .running → G.full.counter = 0 → G.full.latched = false →
    G.pulse.latched = false →
    (∀ n, n < halfPeriod b → (ticks n (armCell b G)).pulse.latched = false ∧ (ticks n (armCell b G)).full.latched = false) ∧
    (ticks (halfPeriod b) (armCell b G)).pulse.latched = true ∧
    (ticks (halfPeriod b) (armCell b G)).full.latched = false ∧
    (∀ H, H = (ticks (halfPeriod b) (armCell b G)).setTimer .pulse
        { (ticks (halfPeriod b) (armCell b G)).pulse with latched := false, age := 0 } →
      (∀ n, halfPeriod b + n < fullPeriod b → (ticks n H).full.latched = false ∧ (ticks n H).pulse.latched = false) ∧
      (ticks (fullPeriod b - halfPeriod b) H).full.latched = true ∧
      (ticks (fullPeriod b - halfPeriod b) H).full.counter = 0)

/-- R183, R185, R210: the full-cycle ISR of a configured generator whose packets are as the invariant says completes: it fetches the next bit,
reprograms both timers for it, restarts and arms the pulse timer as a one-shot, clears its own interrupt (R183) and drives the pin HIGH. (That the
full-cycle timer's `age` is 0 after the delivery is the model's choice: log entry 7.) -/
def Obligations.FullCycleIsrBeginsCell : Prop :=
  ∀ (g : Gen) (s : State), s.faulted = none → PoolInv (s.gen g) → PacketsInv (s.gen g) → (s.gen g).mode ≠ .unconfigured →
    (s.gen g).full.latched = true → (s.gen g).full.attached = true →
    ∃ t b G, exec (.irqFull g) s = .next t ∧ getNextBit (s.gen g) = some (b, G) ∧
      (t.gen g).slots = G.slots ∧ (t.gen g).free = G.free ∧ (t.gen g).pending = G.pending ∧ (t.gen g).current = G.current ∧
      (t.gen g).idle = G.idle ∧
      (t.gen g).full = { (s.gen g).full with alarm := fullPeriod b, autoreload := true, latched := false, age := 0 } ∧
      (t.gen g).pulse = { (s.gen g).pulse with
        alarm := halfPeriod b, autoreload := false, counter := 0, alarmEn := true } ∧
      (t.gen g).pinLevel = .high ∧ t.trace = s.trace ++ [{ time := s.now, gen := g, level := .high }]

/-- R39, R183, R186: delivery of the pulse interrupt clears it (R183) and the body drives the pin LOW (R186), which the trace records (R39);
it reads and writes no packet state and no other timer field of the spec's. (That the pulse timer's `age` is 0 after the delivery is the
model's choice: log entry 7.) -/
def Obligations.PulseIsrDrivesLow : Prop :=
  ∀ (g : Gen) (s : State), s.faulted = none → (s.gen g).pulse.latched = true → (s.gen g).pulse.attached = true →
    exec (.irqPulse g) s = .next
      { s.setGen g { s.gen g with
          pinLevel := .low, pulse := { (s.gen g).pulse with latched := false, age := 0 } } with
        trace := s.trace ++ [{ time := s.now, gen := g, level := .low }] }

/-- R68, R183, R335 (frame): an ISR changes nothing of the other generator, of the host, of the engine, of time or of the inputs, and no stored
bit of any packet; the pulse ISR changes no packet field either. -/
def Obligations.IsrFrame : Prop :=
  ∀ (g : Gen) (s t : State), (exec (.irqFull g) s = .next t ∨ exec (.irqPulse g) s = .next t) → t.faulted = none →
    t.now = s.now ∧ t.host = s.host ∧ t.sm = s.sm ∧ t.inputs = s.inputs ∧ t.params = s.params ∧
    t.gen g.other = s.gen g.other ∧ (t.gen g).mode = (s.gen g).mode ∧ (t.gen g).dirPin = (s.gen g).dirPin ∧
    (t.gen g).poolSize = (s.gen g).poolSize ∧ (t.gen g).filling = (s.gen g).filling ∧ (t.gen g).pinMode = (s.gen g).pinMode ∧
    (∀ h r k, t.readBit h r k = s.readBit h r k) ∧
    (exec (.irqPulse g) s = .next t → (t.gen g).slots = (s.gen g).slots ∧ (t.gen g).idle = (s.gen g).idle ∧
      (t.gen g).free = (s.gen g).free ∧ (t.gen g).pending = (s.gen g).pending ∧ (t.gen g).current = (s.gen g).current ∧
      (t.gen g).full = (s.gen g).full)

/-! ### The bit cursor and the arbiter -/

/-- R161, R211 to R213, R217: `GetNextBit` row by row: a packet in mid-pass gives its next bit; at the end of a pass it repeats if repeats are
left; else it is released (the idle singleton is not pushed on `free`) and the head of `pending` is played from its cursor, or, with nothing
pending, the idle singleton from bit 0. -/
def Obligations.ArbiterPlaysRepeatThenPendingThenIdle : Prop :=
  ∀ G : GenState,
    (∀ i p, G.current = .slot i → G.slots.read i = some p → p.currentBit < p.numBits → p.numBits.toNat ≤ 80 →
      getNextBit G = some (bufBit p.buffer p.currentBit.toNat,
        { G with slots := G.slots.write i { p with currentBit := p.currentBit + 1 } })) ∧
    (∀ i p, G.current = .slot i → G.slots.read i = some p → p.currentBit = p.numBits → 0 < p.numBits →
      p.numBits.toNat ≤ 80 → 0 < p.repeats →
      getNextBit G = some (bufBit p.buffer 0,
        { G with slots := G.slots.write i { p with repeats := p.repeats - 1, currentBit := 1 } })) ∧
    (∀ i p j rest q, G.current = .slot i → G.slots.read i = some p → p.currentBit = p.numBits → p.repeats = 0 →
      G.pending = j :: rest → G.slots.read j = some q → q.currentBit < q.numBits → q.numBits.toNat ≤ 80 →
      getNextBit G = some (bufBit q.buffer q.currentBit.toNat,
        { G with free := G.free ++ [i], pending := rest, current := .slot j
                 slots := G.slots.write j { q with currentBit := q.currentBit + 1 } })) ∧
    (∀ i p, G.current = .slot i → G.slots.read i = some p → p.currentBit = p.numBits → p.repeats = 0 → G.pending = [] →
      0 < G.idle.numBits → G.idle.numBits.toNat ≤ 80 →
      getNextBit G = some (bufBit G.idle.buffer 0,
        { G with free := G.free ++ [i], current := .idlePkt, idle := { G.idle with currentBit := 1 } })) ∧
    (∀ j rest q, (G.current = .none ∨ G.current = .idlePkt ∧ G.idle.currentBit = G.idle.numBits ∧ G.idle.repeats = 0) →
      G.pending = j :: rest → G.slots.read j = some q → q.currentBit < q.numBits → q.numBits.toNat ≤ 80 →
      getNextBit G = some (bufBit q.buffer q.currentBit.toNat,
        { G with pending := rest, current := .slot j, slots := G.slots.write j { q with currentBit := q.currentBit + 1 } })) ∧
    ((G.current = .none ∨ G.current = .idlePkt ∧ G.idle.currentBit = G.idle.numBits ∧ G.idle.repeats = 0) → G.pending = [] →
      0 < G.idle.numBits → G.idle.numBits.toNat ≤ 80 →
      getNextBit G = some (bufBit G.idle.buffer 0,
        { G with current := .idlePkt, idle := { G.idle with currentBit := 1 } })) ∧
    (G.current = .idlePkt → G.idle.currentBit < G.idle.numBits → G.idle.numBits.toNat ≤ 80 →
      getNextBit G = some (bufBit G.idle.buffer G.idle.currentBit.toNat,
        { G with idle := { G.idle with currentBit := G.idle.currentBit + 1 } }))

/-- R216 (derived in the spec): a pending packet with `repeats_remaining = r`, taken at a packet boundary (nothing current, or the idle singleton
or another slot at the end of its last pass), makes exactly `r + 1` passes, each its stored bits in index order, and rests at the end of the
last one; the slot before it went back to `free` when it was taken, and the call after that releases it. -/
def Obligations.PacketMakesRepeatsPlusOnePasses : Prop :=
  ∀ (G : GenState) (i : Nat) (rest : List Nat) (p : Packet),
    (G.current = .none ∨ G.current = .idlePkt ∧ G.idle.currentBit = G.idle.numBits ∧ G.idle.repeats = 0 ∨
      ∃ k q, G.current = .slot k ∧ G.slots.read k = some q ∧ q.currentBit = q.numBits ∧ q.repeats = 0) →
    G.pending = i :: rest → G.slots.read i = some p → p.currentBit = 0 → 0 < p.numBits →
    p.numBits.toNat ≤ 80 →
    ∃ H, nextBits (p.numBits.toNat * (p.repeats.toNat + 1)) G =
        some ((List.replicate (p.repeats.toNat + 1)
          ((List.range p.numBits.toNat).map (bufBit p.buffer))).flatten, H) ∧
      H.current = .slot i ∧ H.slots.read i = some { p with currentBit := p.numBits, repeats := 0 } ∧
      H.pending = rest ∧ H.free = G.free ++ G.current.slotIndices ∧ (closePass H).free = H.free ++ [i] ∧ (closePass H).current = .none

/-! ### LOAD_PACKET and the frame rows -/

/-- R124 to R128: LOAD_PACKET with a legal length on a configured generator with a free slot completes in four host steps, each exec of it: the head
of `free` is laid out with the frame, its repeat count and a cursor of 0, the bits past the frame keep what they held, the slot goes to the tail of
`pending`, and the response is OK. (That a ready host rests at the entry position is the model's choice: log entry 2.) -/
def Obligations.LoadPacketPublishesFrame : Prop :=
  ∀ (g : Gen) (len : BitVec 3) (rep : BitVec 8) (p0 p1 p2 p3 p4 : Byte) (s : State) (i : Nat) (rest : List Nat) (p : Packet),
    s.faulted = none → s.host.phase = .entry → (s.gen g).mode ≠ .unconfigured → 2 ≤ len.toNat → len.toNat ≤ 5 →
    (s.gen g).free = i :: rest → (s.gen g).slots.read i = some p →
    ∃ u t q, exec (.loadPacket g len rep p0 p1 p2 p3 p4) s = .next u ∧
      hostSteps (.loadPacket g len rep p0 p1 p2 p3 p4) 3 u = .next t ∧
      t.host.resp = some (responseWord .ok 0) ∧ t.host.cmd = none ∧ t.host.phase = .entry ∧
      (t.gen g).free = rest ∧ (t.gen g).pending = (s.gen g).pending ++ [i] ∧ (t.gen g).filling = none ∧
      (t.gen g).slots = (s.gen g).slots.write i q ∧
      q.numBits.toNat = 22 + 9 * (len.toNat + 1) ∧ q.repeats = rep ∧ q.currentBit = 0 ∧
      (∀ k, k < 22 + 9 * (len.toNat + 1) →
        bufBit q.buffer k = (layout (frameOf (payloadOf len p0 p1 p2 p3 p4))).getD k false) ∧
      (∀ k, 22 + 9 * (len.toNat + 1) ≤ k → bufBit q.buffer k = bufBit p.buffer k)

/-- R125: LOAD_PACKET with a length outside 2..5 responds InvalidPayloadLen and changes nothing but the host's readiness. (A ready host's position
and `wake_at`: log entries 2 and 23.) -/
def Obligations.LoadPacketRejectsLength : Prop :=
  ∀ (g : Gen) (len : BitVec 3) (rep : BitVec 8) (p0 p1 p2 p3 p4 : Byte) (s : State), s.faulted = none →
    s.host.phase = .entry → (s.gen g).mode ≠ .unconfigured → ¬ (2 ≤ len.toNat ∧ len.toNat ≤ 5) →
    exec (.loadPacket g len rep p0 p1 p2 p3 p4) s = .next
      { s with host := { s.host with
          cmd := none, phase := .entry, wakeAt := 0, resp := some 0x0100000000000000 } }

/-- R126 (also for the loads of R240 and R268): an acquisition attempt of LOAD_PACKET, of START's boot loads (also inside CONFIGURE) or of the
engine's loads takes the head of `free` into `filling` and goes on to the fill, changing nothing else; with nothing free the host waits 2000 µs
at the same position and holds nothing. -/
def Obligations.LoadPacketWaitsForFreeSlot : Prop :=
  ∀ (i : Instr) (site : LoadSite) (s : State), s.faulted = none → s.host.phase = .load site .acquire →
    (site = .caller ∧ (∃ g len rep p0 p1 p2 p3 p4, i = .loadPacket g len rep p0 p1 p2 p3 p4) ∨
      (site = .bootReset ∨ site = .bootIdle) ∧ (∃ g, i = .start g ∨ ∃ pin pool, i = .configure g pin pool) ∨
      site = .engine ∧ ((∃ cv, i = .readCv cv) ∨ (∃ cv v, i = .writeProgCvByte cv v) ∨ ∃ cv b v, i = .writeProgCvBit cv b v)) →
    (∀ j rest, (s.gen s.host.load.gen).free = j :: rest → exec i s = .next
      { s.setGen s.host.load.gen { s.gen s.host.load.gen with free := rest, filling := some j } with
        host := { s.host with phase := .load site .fill } }) ∧
    ((s.gen s.host.load.gen).free = [] → exec i s = .next { s with host := { s.host with wakeAt := s.now + 2000 } })

/-- R65, R68, R127, R335 (frame): a step of LOAD_PACKET or of a frame row changes no time, engine, trace, input or parameter, nothing of the
generator the load is not for, and of the load's own generator no mode, pin, timer, cursor or idle singleton; and every stored bit outside the
slot the fill step stores to reads as before (a step that is not the fill step stores nothing). -/
def Obligations.LoadFrame : Prop :=
  ∀ (i : Instr) (s t : State),
    ((∃ g len rep p0 p1 p2 p3 p4, i = .loadPacket g len rep p0 p1 p2 p3 p4) ∨ ∃ bytes, encode i = .frame bytes) →
    exec i s = .next t →
    t.now = s.now ∧ t.sm = s.sm ∧ t.trace = s.trace ∧ t.inputs = s.inputs ∧ t.params = s.params ∧
    t.gen s.host.load.gen.other = s.gen s.host.load.gen.other ∧
    (∀ g, (t.gen g).mode = (s.gen g).mode ∧ (t.gen g).dirPin = (s.gen g).dirPin ∧ (t.gen g).poolSize = (s.gen g).poolSize ∧
      (t.gen g).current = (s.gen g).current ∧ (t.gen g).idle = (s.gen g).idle ∧ (t.gen g).full = (s.gen g).full ∧
      (t.gen g).pulse = (s.gen g).pulse ∧ (t.gen g).pinMode = (s.gen g).pinMode ∧ (t.gen g).pinLevel = (s.gen g).pinLevel) ∧
    (∀ h r k, (∀ j, storedSlot s = some (h, j) → r ≠ .slot j) → t.readBit h r k = s.readBit h r k)

/-- R88, R89, R127: each of the six frame rows, at the fill step of a load that holds a slot, lays its own bytes out in that slot, with the
load's repeat count, its length and a cursor of 0, and the host goes on to publication; the bits past the frame keep what they held. It does
what every command with such a load does there when the load register holds its bytes: LOAD_PACKET; START and CONFIGURE at a boot load;
READ_CV and both writes at an engine load. (A frame row runs as the fill step: log entry 9. Its checksum byte is laid out as given, right or
wrong: log entry 17. The held slot's index stands in `filling`: log entry 3.) -/
def Obligations.FrameRowsFillHeldSlot : Prop :=
  ∀ (i : Instr) (bytes : List Byte) (s : State) (site : LoadSite) (j : Nat) (p : Packet), encode i = .frame bytes →
    s.faulted = none → s.host.phase = .load site .fill → (s.gen s.host.load.gen).filling = some j →
    (s.gen s.host.load.gen).slots.read j = some p →
    (∃ t q, exec i s = .next t ∧ t.host.phase = .load site .publish ∧
      (t.gen s.host.load.gen).slots = (s.gen s.host.load.gen).slots.write j q ∧
      q.numBits.toNat = 22 + 9 * bytes.length ∧ q.repeats = s.host.load.repeats ∧ q.currentBit = 0 ∧
      (∀ k, k < 22 + 9 * bytes.length → bufBit q.buffer k = (layout bytes).getD k false) ∧
      (∀ k, 22 + 9 * bytes.length ≤ k → bufBit q.buffer k = bufBit p.buffer k)) ∧
    (s.host.load.frame = bytes →
      (site = .caller → ∀ g len rep p0 p1 p2 p3 p4, exec (.loadPacket g len rep p0 p1 p2 p3 p4) s = exec i s) ∧
      (site = .bootReset ∨ site = .bootIdle → ∀ g, exec (.start g) s = exec i s ∧
        ∀ pin pool, exec (.configure g pin pool) s = exec i s) ∧
      (site = .engine → ∀ cv, exec (.readCv cv) s = exec i s ∧
        (∀ v, exec (.writeProgCvByte cv v) s = exec i s) ∧ ∀ b v, exec (.writeProgCvBit cv b v) s = exec i s))

/-! ### The queue commands -/

/-- R159: IS_EMPTY answers from `pending` alone, in one step. (A ready host's position and `wake_at`: log entries 2 and 23.) -/
def Obligations.IsEmptyReadsPending : Prop :=
  ∀ (g : Gen) (s : State), s.faulted = none → s.host.phase = .entry →
    ((s.gen g).mode = .unconfigured → exec (.isEmpty g) s = .next { s with faulted := some .contractViolation }) ∧
    ((s.gen g).mode ≠ .unconfigured → exec (.isEmpty g) s = .next
      { s with host := { s.host with
          cmd := none, phase := .entry, wakeAt := 0
          resp := some (responseWord .ok (if (s.gen g).pending = [] then 1 else 0)) } })

/-- R160: WAIT_EMPTY completes in the step that finds `pending` empty, which may be its first; else it waits `EMPTY_POLL_US` and tests again;
the generator is checked at entry alone. (A ready host's position and `wake_at`: log entries 2 and 23.) -/
def Obligations.WaitEmptyPollsPending : Prop :=
  ∀ (g : Gen) (s : State), s.faulted = none → (s.host.phase = .entry ∨ s.host.phase = .poll) →
    (s.host.phase = .entry → (s.gen g).mode = .unconfigured →
      exec (.waitEmpty g) s = .next { s with faulted := some .contractViolation }) ∧
    ((s.host.phase = .entry → (s.gen g).mode ≠ .unconfigured) → (s.gen g).pending = [] → exec (.waitEmpty g) s = .next
      { s with host := { s.host with cmd := none, phase := .entry, wakeAt := 0, resp := some (responseWord .ok 0) } }) ∧
    ((s.host.phase = .entry → (s.gen g).mode ≠ .unconfigured) → (s.gen g).pending ≠ [] → exec (.waitEmpty g) s = .next
      { s with host := { s.host with phase := .poll, wakeAt := s.now + s.params.emptyPollUs } })

/-- R159, R160, R335 (frame): the queue commands and ILLEGAL change nothing but the host interface and the fault mark: no generator, no engine,
no stored bit. -/
def Obligations.QueueCommandsFrame : Prop :=
  ∀ (i : Instr) (s t : State), ((∃ g, i = .isEmpty g) ∨ (∃ g, i = .waitEmpty g) ∨ ∃ w, i = .illegal w) → exec i s = .next t →
    (∀ g, t.gen g = s.gen g) ∧ t.sm = s.sm ∧ t.now = s.now ∧ t.trace = s.trace ∧ t.inputs = s.inputs ∧ t.params = s.params ∧
    t.host.load = s.host.load ∧ (∀ h r k, t.readBit h r k = s.readBit h r k)

/-! ### The controller -/

/-- R231, R240, R241, R351 (derived in the spec): CONFIGURE of an unconfigured generator with a pool of two or more slots and both setup draws true
completes in eleven host steps, each exec of it: the pin is driven LOW and made an output, the pool is created, the boot RESET (20 repeats) and IDLE
(10) packets are pending in slots 0 and 1, both timers are armed with the shape of a "1", the mode is Running and the response is OK. (The count of
eleven is the model's, not the spec's: it rests on the boundaries between host steps that log entry 11 deduces. Both timers' `age` of 0 is the
model's choice: log entry 7.) -/
def Obligations.ConfigureBootsGenerator : Prop :=
  ∀ (g : Gen) (pin : BitVec 8) (pool : BitVec 16) (s : State) (a b : List Bool), s.faulted = none → s.host.phase = .entry →
    (s.gen g).mode = .unconfigured → 2 ≤ pool.toNat → s.inputs.gpioOk = true :: a → s.inputs.timerOk = true :: b →
    ∃ u t p0 p1, exec (.configure g pin pool) s = .next u ∧ hostSteps (.configure g pin pool) 10 u = .next t ∧
      (t.gen g).mode = .running ∧ (t.gen g).dirPin = pin ∧ (t.gen g).poolSize = pool.toNat ∧
      (t.gen g).slots = [p0, p1] ++ List.replicate (pool.toNat - 2) Packet.zero ∧
      p0 = { buffer := #v[0xFF, 0xFF, 0xFC, 0, 0, 0, 0, 0, 0, 0], numBits := 49, currentBit := 0, repeats := 20 } ∧
      p1 = { buffer := #v[0xFF, 0xFF, 0xFD, 0xFE, 0x00, 0x7F, 0x80, 0, 0, 0], numBits := 49, currentBit := 0, repeats := 10 } ∧
      (t.gen g).free = (List.range pool.toNat).drop 2 ∧ (t.gen g).pending = [0, 1] ∧ (t.gen g).filling = none ∧
      (t.gen g).current = .none ∧ IdleInv (t.gen g).idle ∧ (t.gen g).idle.currentBit = 0 ∧
      (t.gen g).full = { begun := true, counter := 0, alarm := 116, autoreload := true, alarmEn := true, attached := true
                         latched := false, age := 0 } ∧
      (t.gen g).pulse = { begun := true, counter := 0, alarm := 58, autoreload := false, alarmEn := true, attached := true
                          latched := false, age := 0 } ∧
      (t.gen g).pinMode = .output ∧ (t.gen g).pinLevel = .low ∧
      t.trace = s.trace ++ [{ time := s.now, gen := g, level := .low }] ∧
      t.host.resp = some 0x0000000000000000 ∧ t.host.cmd = none ∧ t.gen g.other = s.gen g.other ∧ t.now = s.now

/-- R231, R233, D12: a failed GPIO setup ends CONFIGURE in its first step: the pool exists, the mode is Idle, no pin is written, nothing is
loaded, and the response is HardwareSetupFailure. -/
def Obligations.ConfigureReportsGpioFailure : Prop :=
  ∀ (g : Gen) (pin : BitVec 8) (pool : BitVec 16) (s : State) (a : List Bool), s.faulted = none → s.host.phase = .entry →
    (s.gen g).mode = .unconfigured → 2 ≤ pool.toNat → s.inputs.gpioOk = false :: a →
    ∃ t, exec (.configure g pin pool) s = .next t ∧ (t.gen g).mode = .idle ∧ (t.gen g).free = List.range pool.toNat ∧
      (t.gen g).slots = List.replicate pool.toNat Packet.zero ∧ (t.gen g).pending = [] ∧ (t.gen g).current = .none ∧
      (t.gen g).pinMode = (s.gen g).pinMode ∧ (t.gen g).pinLevel = (s.gen g).pinLevel ∧ t.trace = s.trace ∧
      t.host.resp = some 0x0200000000000000 ∧ t.host.cmd = none

/-- R240, R241: START of an idle generator with two free slots and a true timer draw completes in ten host steps, each exec of it: RESET with 20
repeats and IDLE with 10 go behind whatever was pending, both timers are begun, attached and armed, the mode is Running and the response is OK. (The
count of ten is the model's, not the spec's: log entry 11 makes START's entry checks a step apart from its first load's.) -/
def Obligations.StartLoadsBootPacketsAndArms : Prop :=
  ∀ (g : Gen) (s : State) (i j : Nat) (rest : List Nat) (p q : Packet) (b : List Bool), s.faulted = none →
    s.host.phase = .entry → (s.gen g).mode = .idle → (s.gen g).free = i :: j :: rest → i ≠ j →
    (s.gen g).slots.read i = some p → (s.gen g).slots.read j = some q → s.inputs.timerOk = true :: b →
    ∃ u t, exec (.start g) s = .next u ∧ hostSteps (.start g) 9 u = .next t ∧ (t.gen g).mode = .running ∧ (t.gen g).free = rest ∧
      (t.gen g).pending = (s.gen g).pending ++ [i, j] ∧ (t.gen g).filling = none ∧
      (t.gen g).slots = ((s.gen g).slots.write i (fillPacket p [0x00, 0x00, 0x00] 20)).write j (fillPacket q [0xFF, 0x00, 0xFF] 10) ∧
      (∀ k, ((t.gen g).timer k).begun = true ∧ ((t.gen g).timer k).attached = true ∧ ((t.gen g).timer k).alarmEn = true ∧
        ((t.gen g).timer k).counter = 0 ∧ ((t.gen g).timer k).latched = false) ∧
      (t.gen g).full.alarm = 116 ∧ (t.gen g).full.autoreload = true ∧ (t.gen g).pulse.alarm = 58 ∧
      (t.gen g).pulse.autoreload = false ∧ (t.gen g).pinLevel = (s.gen g).pinLevel ∧ t.trace = s.trace ∧
      t.host.resp = some 0x0000000000000000 ∧ t.host.cmd = none ∧ t.gen g.other = s.gen g.other ∧ t.now = s.now

/-- R233, R241, D22: a failed timer setup ends START at its third step: the mode stays what it was, the boot packets stay pending, no timer is
touched, and the response is HardwareSetupFailure. (A ready host's position and `wake_at`: log entries 2 and 23.) -/
def Obligations.StartReportsTimerFailure : Prop :=
  ∀ (g : Gen) (s : State) (b : List Bool), s.faulted = none → s.host.phase = .arm → s.inputs.timerOk = false :: b →
    exec (.start g) s = .next
      { s with
        host := { s.host with cmd := none, phase := .entry, wakeAt := 0, resp := some 0x0200000000000000 }
        inputs := { s.inputs with timerOk := b } }

/-- R180, R249, R251: STOP's first step on a configured generator, Idle or Running, ends both timers, sets the mode to Idle and begins a wait of
250000 µs; the packet that plays, the queues, the pin and the trace stay. -/
def Obligations.StopEndsTimersThenWaits : Prop :=
  ∀ (g : Gen) (s : State), s.faulted = none → s.host.phase = .entry → (s.gen g).mode ≠ .unconfigured →
    ∃ t, exec (.stop g) s = .next t ∧ (t.gen g).mode = .idle ∧ (t.gen g).full.ended = true ∧ (t.gen g).pulse.ended = true ∧
      t.host.wakeAt = s.now + 250000 ∧ t.host.phase = .drain ∧ t.host.cmd = s.host.cmd ∧
      (t.gen g).slots = (s.gen g).slots ∧ (t.gen g).free = (s.gen g).free ∧ (t.gen g).pending = (s.gen g).pending ∧
      (t.gen g).current = (s.gen g).current ∧ (t.gen g).filling = (s.gen g).filling ∧ (t.gen g).idle = (s.gen g).idle ∧
      (t.gen g).pinLevel = (s.gen g).pinLevel ∧ t.trace = s.trace ∧ t.gen g.other = s.gen g.other

/-- R250, R252: STOP's drain zeroes the current slot and every pending slot and pushes them on `free` in that order; afterwards nothing is
pending or current, the idle singleton is as it was, every other stored bit reads as before, and the response is OK. -/
def Obligations.StopReturnsZeroedPackets : Prop :=
  ∀ (g : Gen) (s : State), s.faulted = none → s.host.phase = .drain → PoolInv (s.gen g) →
    ∃ t, exec (.stop g) s = .next t ∧ (t.gen g).pending = [] ∧ (t.gen g).current = .none ∧
      (t.gen g).free = (s.gen g).free ++ (s.gen g).current.slotIndices ++ (s.gen g).pending ∧
      (∀ i, i ∈ (s.gen g).current.slotIndices ++ (s.gen g).pending → (t.gen g).slots.read i = some Packet.zero) ∧
      (∀ i, i ∉ (s.gen g).current.slotIndices ++ (s.gen g).pending → (t.gen g).slots.read i = (s.gen g).slots.read i) ∧
      (t.gen g).idle = (s.gen g).idle ∧ (t.gen g).mode = (s.gen g).mode ∧ (t.gen g).pinLevel = (s.gen g).pinLevel ∧
      (t.gen g).full = (s.gen g).full ∧ (t.gen g).pulse = (s.gen g).pulse ∧ t.trace = s.trace ∧
      ((s.gen g).filling = none → (t.gen g).free.length = (t.gen g).poolSize) ∧
      t.gen g.other = s.gen g.other ∧ t.host.resp = some 0x0000000000000000 ∧ t.host.cmd = none

/-- R65, R335, R339 (frame): CONFIGURE, START and STOP, at every position of theirs, change no time, engine, parameter or other input than the setup
draws, and nothing of the other generator. Of their own generator, a step that is not CONFIGURE's first changes no pin, pin number, pool size or
idle singleton and no trace, and one of START (also inside CONFIGURE) changes no cursor and no stored bit outside the slot its fill step stores to.
-/
def Obligations.ControllerFrame : Prop :=
  ∀ (i : Instr) (g h : Gen) (s t : State), ((∃ pin pool, i = .configure g pin pool) ∨ i = .start g ∨ i = .stop g) →
    exec i s = .next t → h ≠ g → (holdsFrame s.host.phase = true → s.host.load.gen = g) →
    t.now = s.now ∧ t.sm = s.sm ∧ t.params = s.params ∧
    t.inputs = { s.inputs with gpioOk := t.inputs.gpioOk, timerOk := t.inputs.timerOk, draws := t.inputs.draws } ∧
    t.gen h = s.gen h ∧ (∀ r k, t.readBit h r k = s.readBit h r k) ∧
    ((∀ pin pool, i = .configure g pin pool → s.host.phase ≠ .entry) →
      t.trace = s.trace ∧ (t.gen g).dirPin = (s.gen g).dirPin ∧ (t.gen g).poolSize = (s.gen g).poolSize ∧
      (t.gen g).pinMode = (s.gen g).pinMode ∧ (t.gen g).pinLevel = (s.gen g).pinLevel ∧ (t.gen g).idle = (s.gen g).idle ∧
      (i ≠ .stop g → (t.gen g).current = (s.gen g).current ∧
        ∀ r k, (∀ j, storedSlot s = some (g, j) → r ≠ .slot j) → t.readBit g r k = s.readBit g r k))

/-! ### The service-mode engine -/

/-- R261: the entry step of a service-mode command on a configured PROG with a CV in 1..1024 and a nonzero `max_ma` sets every field of the
engine, with the threshold `245760 div max_ma`; the three causes of ContractViolation are taken in order. (`verifying` is the model's own
field, log entry 4; that `sm.bit` and `sm.value` are 0 in a command that has no such operand is the model's choice, log entry 22.) -/
def Obligations.ServiceEntrySetsEngine : Prop :=
  ∀ (i : Instr) (op : SmOp) (cv : BitVec 11) (bit : BitVec 3) (value : BitVec 8) (s : State), s.faulted = none →
    s.host.phase = .entry →
    (i = .readCv cv ∧ op = .readCv ∧ bit = 0 ∧ value = 0 ∨ i = .writeProgCvByte cv value ∧ op = .writeByte ∧ bit = 0 ∨
      (∃ v : Bool, i = .writeProgCvBit cv bit v ∧ op = .writeBit ∧ value = if v then 1 else 0)) →
    (((s.gen .prog).mode = .unconfigured ∨ cv.toNat < 1 ∨ 1024 < cv.toNat ∨ s.params.maxMaProg = 0) →
      exec i s = .next { s with faulted := some .contractViolation }) ∧
    ((s.gen .prog).mode ≠ .unconfigured → 1 ≤ cv.toNat → cv.toNat ≤ 1024 → s.params.maxMaProg ≠ 0 →
      exec i s = .next
        { s with
          host := { s.host with phase := .load .engine .entry }
          sm := { op := op, cv := BitVec.ofNat 16 cv.toNat, bit := bit, value := value, bitIndex := 0, acc := 0, attempt := 0
                  thr := BitVec.ofNat 32 (245760 / s.params.maxMaProg.toNat), k := 0, sum := 0, nOk := 0
                  phase := .entry, verifying := false } })

/-- R268, R269, R282, R283: from the entry of one of the engine's loads, with a free slot, four host steps publish one packet on PROG: a RESET with
the group's reset repeats, or the group's frame with its own; a read begins at bit 0 with an empty accumulator and a write at attempt 1; a reset
leads to the frame, the frame to the wait, a trailing reset of 3 to the next attempt, or, after the fifth, to the end. (`verifying` is the
model's own field, log entry 4; that the loop's first assignments fall in the first load, and that the phase moves on at the publication, is
log entry 11; that it stays LoadTrail after the fifth trailing reset is the model's choice, log entry 24.) -/
def Obligations.ServiceLoadsPublishGroups : Prop :=
  ∀ (i : Instr) (s : State) (j : Nat) (rest : List Nat) (p : Packet), s.faulted = none →
    ((∃ cv, i = .readCv cv) ∨ (∃ cv v, i = .writeProgCvByte cv v) ∨ ∃ cv b v, i = .writeProgCvBit cv b v) →
    s.host.phase = .load .engine .entry → (s.gen .prog).mode ≠ .unconfigured → (s.gen .prog).free = j :: rest →
    (s.gen .prog).slots.read j = some p →
    (s.sm.phase = .entry ∨ s.sm.phase = .loadReset ∨ s.sm.phase = .loadFrame ∨ s.sm.phase = .loadTrail) →
    ∃ t, hostSteps i 4 s = .next t ∧ (t.gen .prog).free = rest ∧ (t.gen .prog).pending = (s.gen .prog).pending ++ [j] ∧
      (t.gen .prog).filling = none ∧
      (t.gen .prog).slots = (s.gen .prog).slots.write j
        (fillPacket p (frameOf (smLoad (smBegin s.sm)).1) (smLoad (smBegin s.sm)).2) ∧
      t.host.resp = s.host.resp ∧ t.gen .ops = s.gen .ops ∧
      (s.sm.phase = .entry →
        (s.sm.op = .readCv → smBegin s.sm = { s.sm with acc := 0, bitIndex := 0, phase := .loadReset }) ∧
        (s.sm.op = .writeByte ∨ s.sm.op = .writeBit →
          smBegin s.sm = { s.sm with attempt := 1, verifying := false, phase := .loadReset } ∧ t.sm.attempt = 1)) ∧
      (s.sm.phase ≠ .entry → smBegin s.sm = s.sm) ∧
      ((s.sm.phase = .entry ∨ s.sm.phase = .loadReset) →
        smLoad (smBegin s.sm) = ([0x00, 0x00], smResetRepeats (smBegin s.sm)) ∧
        t.sm = { smBegin s.sm with phase := .loadFrame } ∧ t.host.phase = .load .engine .entry) ∧
      (s.sm.phase = .loadFrame →
        smLoad (smBegin s.sm) = smFrame s.sm ∧ t.sm = { s.sm with phase := .wait } ∧ t.host.phase = .poll) ∧
      (s.sm.phase = .loadTrail → smLoad (smBegin s.sm) = ([0x00, 0x00], 3) ∧
        (s.sm.attempt < 5 → t.sm = { s.sm with attempt := s.sm.attempt + 1, verifying := false, phase := .loadReset } ∧
          t.host.phase = .load .engine .entry) ∧
        (¬ s.sm.attempt < 5 → t.sm = s.sm ∧ t.host.phase = .finish))

/-- R282, R283, R284: what each group sends, by operation: a read sends resets of 3 and a verify of bit `bit_index` with value 1, then of the
accumulated byte, each with 5; a write sends a reset of 1 and the write with 4, then a reset of 3 and the verify with 5. (`verifying`, the
model's own field, says which of the two it is: log entry 4.) -/
def Obligations.GroupsFollowTheProcedures : Prop :=
  ∀ m : SmState,
    (m.op = .readCv → smResetRepeats m = 3 ∧
      smFrame m = if m.bitIndex.toNat < 8 then (verifyBit m.cv true (m.bitIndex.setWidth 3), 5) else (verifyByte m.cv m.acc, 5)) ∧
    (m.op = .writeByte → m.verifying = false → smResetRepeats m = 1 ∧ smFrame m = (writeByte m.cv m.value, 4)) ∧
    (m.op = .writeByte → m.verifying = true → smResetRepeats m = 3 ∧ smFrame m = (verifyByte m.cv m.value, 5)) ∧
    (m.op = .writeBit → m.verifying = false → smResetRepeats m = 1 ∧ smFrame m = (writeBit m.cv (m.value.getLsbD 0) m.bit, 4)) ∧
    (m.op = .writeBit → m.verifying = true → smResetRepeats m = 3 ∧ smFrame m = (verifyBit m.cv (m.value.getLsbD 0) m.bit, 5))

/-- R160, R269, R272: the engine's wait ends when PROG's `pending` is empty, and the ACK check begins with its counters at 0; else the host waits
`EMPTY_POLL_US`. Each of the first 250 sample steps draws one sample, counts it, adds it if it is not 0, and waits 2000 µs. (That the counters
are zeroed in the step in which the wait ends is log entry 11, and that the wait inside a group makes no entry check is log entry 18: the
model's, DEDUCED.) -/
def Obligations.AckCheckCountsSamples : Prop :=
  ∀ (i : Instr) (s : State), s.faulted = none →
    ((∃ cv, i = .readCv cv) ∨ (∃ cv v, i = .writeProgCvByte cv v) ∨ ∃ cv b v, i = .writeProgCvBit cv b v) →
    (s.host.phase = .poll → (s.gen .prog).pending = [] →
      exec i s = .next { s with
        host := { s.host with phase := .sample }, sm := { s.sm with phase := .sample, k := 0, sum := 0, nOk := 0 } }) ∧
    (s.host.phase = .poll → (s.gen .prog).pending ≠ [] →
      exec i s = .next { s with host := { s.host with phase := .poll, wakeAt := s.now + s.params.emptyPollUs } }) ∧
    (∀ x xs, s.host.phase = .sample → s.sm.k.toNat < 250 → s.inputs.adc = x :: xs →
      exec i s = .next { s with
        host := { s.host with wakeAt := s.now + 2000 }
        inputs := { s.inputs with adc := xs }
        sm := if x = 0 then { s.sm with k := s.sm.k + 1 }
          else { s.sm with k := s.sm.k + 1, sum := s.sm.sum + x.setWidth 32, nOk := s.sm.nOk + 1 } })

/-- R273 (its equivalent form derived in the spec): the ACK decision in division and in product form; no ACK without a nonzero read. -/
def Obligations.AckDecisionInProductForm : Prop :=
  ∀ sum nOk thr : Nat, (ackDecide sum nOk thr = true ↔ 0 < nOk ∧ thr < sum / nOk) ∧
    (ackDecide sum nOk thr = true ↔ 0 < nOk ∧ (thr + 1) * nOk ≤ sum)

/-- R270: the threshold `245760 div max_ma`, its worked examples, and that with `max_ma ≤ 60` no average of samples can exceed it. -/
def Obligations.AckThresholdFormula : Prop :=
  (∀ m, ackThreshold m = 245760 / m) ∧ ackThreshold 1000 = 245 ∧ ackThreshold 2500 = 98 ∧ ackThreshold 3000 = 81 ∧
    ackThreshold 4096 = 60 ∧ ackThreshold 5000 = 49 ∧ ackThreshold 65535 = 3 ∧
    (∀ m sum nOk, 0 < m → m ≤ 60 → sum ≤ 4095 * nOk → ackDecide sum nOk (ackThreshold m) = false)

/-- R282: after the 250th read of a READ_CV group: for bits 0 to 7 an ACK sets the bit of the accumulator and the next group follows; after the
byte verify the command completes with the accumulated byte, or with −1. (That a decision is a host step of its own is the model's, DEDUCED:
log entry 11. A ready host's position and `wake_at`: log entries 2 and 23.) -/
def Obligations.ReadCvAccumulatesAndResponds : Prop :=
  ∀ (cv : BitVec 11) (s : State) (ack : Bool), s.faulted = none → s.host.phase = .sample → 250 ≤ s.sm.k.toNat →
    ack = ackDecide s.sm.sum.toNat s.sm.nOk.toNat s.sm.thr.toNat →
    (s.sm.bitIndex.toNat < 8 → exec (.readCv cv) s = .next { s with
      host := { s.host with phase := .load .engine .entry }
      sm := { s.sm with
        acc := if ack then s.sm.acc ||| (1#8 <<< s.sm.bitIndex.toNat) else s.sm.acc
        bitIndex := s.sm.bitIndex + 1, phase := .loadReset } }) ∧
    (8 ≤ s.sm.bitIndex.toNat → exec (.readCv cv) s = .next { s with
      host := { s.host with
        cmd := none, phase := .entry, wakeAt := 0
        resp := some (responseWord .ok (if ack then s.sm.acc.setWidth 16 else 0xFFFF)) }
      sm := { s.sm with op := .none, phase := .done } })

/-- R283, R284: after the 250th read of a write's group: a first ACK leads to the verify group, a second completes the command with true, and a
missing one leads to a trailing reset; after the fifth attempt's trailing reset the command completes with false. Both writes do the same.
(That the decision, and the final false after the trailing reset, are host steps of their own is the model's, DEDUCED: log entry 11. `verifying` is
the model's own field, log entry 4. A ready host's position and `wake_at`: log entries 2 and 23.) -/
def Obligations.WritesConfirmOrRetry : Prop :=
  ∀ (i : Instr) (s : State) (ack : Bool), s.faulted = none →
    ((∃ cv v, i = .writeProgCvByte cv v) ∨ ∃ cv b v, i = .writeProgCvBit cv b v) →
    (s.host.phase = .sample → 250 ≤ s.sm.k.toNat → ack = ackDecide s.sm.sum.toNat s.sm.nOk.toNat s.sm.thr.toNat →
      (ack = true → s.sm.verifying = false → exec i s = .next { s with
        host := { s.host with phase := .load .engine .entry }, sm := { s.sm with verifying := true, phase := .loadReset } }) ∧
      (ack = true → s.sm.verifying = true → exec i s = .next { s with
        host := { s.host with cmd := none, phase := .entry, wakeAt := 0, resp := some 0x0000000000000001 }
        sm := { s.sm with op := .none, phase := .done } }) ∧
      (ack = false → exec i s = .next { s with
        host := { s.host with phase := .load .engine .entry }, sm := { s.sm with phase := .loadTrail } })) ∧
    (s.host.phase = .finish → exec i s = .next { s with
      host := { s.host with cmd := none, phase := .entry, wakeAt := 0, resp := some 0x0000000000000000 }
      sm := { s.sm with op := .none, phase := .done } })

/-- R260, R335 (frame): a service-mode command leaves OPS as it is, and of PROG the mode, the pool size, the cursor, the idle singleton, the timers
and the pin; it changes no time, no trace and no input but the ADC samples it draws; and every stored bit outside the slot its fill step stores to
reads as before. -/
def Obligations.ServiceLeavesOpsAlone : Prop :=
  ∀ (i : Instr) (s t : State),
    ((∃ cv, i = .readCv cv) ∨ (∃ cv v, i = .writeProgCvByte cv v) ∨ ∃ cv b v, i = .writeProgCvBit cv b v) →
    (holdsFrame s.host.phase = true → s.host.load.gen = .prog) → exec i s = .next t →
    t.gen .ops = s.gen .ops ∧ t.now = s.now ∧ t.trace = s.trace ∧ t.params = s.params ∧
    t.inputs = { s.inputs with adc := t.inputs.adc, draws := t.inputs.draws } ∧
    (t.gen .prog).mode = (s.gen .prog).mode ∧ (t.gen .prog).current = (s.gen .prog).current ∧
    (t.gen .prog).idle = (s.gen .prog).idle ∧ (t.gen .prog).full = (s.gen .prog).full ∧
    (t.gen .prog).pulse = (s.gen .prog).pulse ∧ (t.gen .prog).pinLevel = (s.gen .prog).pinLevel ∧
    (t.gen .prog).pinMode = (s.gen .prog).pinMode ∧ (t.gen .prog).dirPin = (s.gen .prog).dirPin ∧
    (t.gen .prog).poolSize = (s.gen .prog).poolSize ∧
    (∀ h r k, (∀ j, storedSlot s = some (h, j) → r ≠ .slot j) → t.readBit h r k = s.readBit h r k)
end

