-- ==== Sys2Proof/Laws/State.lean ====
section
/-! SUPPORT. One lemma for each field after each update of the state, so that no later proof unfolds a record update. -/

namespace Sys2Proof.Machine

/-! ### Generators -/

@[simp] theorem State.gen_setGen_same (s : State) (g : Gen) (G : GenState) : (s.setGen g G).gen g = G := by
  cases g <;> rfl

theorem State.gen_setGen_ne (s : State) {g h : Gen} (G : GenState) (hne : h ≠ g) : (s.setGen g G).gen h = s.gen h := by
  cases g <;> cases h <;> first | rfl | exact absurd rfl hne

@[simp] theorem State.gen_setGen_other (s : State) (g : Gen) (G : GenState) : (s.setGen g G).gen g.other = s.gen g.other := by
  cases g <;> rfl

@[simp] theorem State.setGen_gen (s : State) (g : Gen) : s.setGen g (s.gen g) = s := by cases g <;> rfl

@[simp] theorem State.gen_modGen_same (s : State) (g : Gen) (f : GenState → GenState) : (s.modGen g f).gen g = f (s.gen g) := by
  cases g <;> rfl

theorem State.gen_modGen_ne (s : State) {g h : Gen} (f : GenState → GenState) (hne : h ≠ g) : (s.modGen g f).gen h = s.gen h := by
  cases g <;> cases h <;> first | rfl | exact absurd rfl hne

/-- A generator after an update of generator `g`. -/
theorem State.gen_modGen (s : State) (g h : Gen) (f : GenState → GenState) :
    (s.modGen g f).gen h = if h = g then f (s.gen g) else s.gen h := by
  cases g <;> cases h <;> rfl

/-- A generator after generator `g` is replaced. -/
theorem State.gen_setGen (s : State) (g h : Gen) (G : GenState) :
    (s.setGen g G).gen h = if h = g then G else s.gen h := by
  cases g <;> cases h <;> rfl

theorem Gen.other_ne (g : Gen) : g.other ≠ g := by cases g <;> decide

theorem Gen.ne_iff_other {g h : Gen} : h ≠ g ↔ h = g.other := by cases g <;> cases h <;> decide

@[simp] theorem State.setGen_now (s : State) (g : Gen) (G : GenState) : (s.setGen g G).now = s.now := by cases g <;> rfl
@[simp] theorem State.setGen_host (s : State) (g : Gen) (G : GenState) : (s.setGen g G).host = s.host := by cases g <;> rfl
@[simp] theorem State.setGen_sm (s : State) (g : Gen) (G : GenState) : (s.setGen g G).sm = s.sm := by cases g <;> rfl
@[simp] theorem State.setGen_trace (s : State) (g : Gen) (G : GenState) : (s.setGen g G).trace = s.trace := by cases g <;> rfl
@[simp] theorem State.setGen_faulted (s : State) (g : Gen) (G : GenState) : (s.setGen g G).faulted = s.faulted := by cases g <;> rfl
@[simp] theorem State.setGen_inputs (s : State) (g : Gen) (G : GenState) : (s.setGen g G).inputs = s.inputs := by cases g <;> rfl
@[simp] theorem State.setGen_params (s : State) (g : Gen) (G : GenState) : (s.setGen g G).params = s.params := by cases g <;> rfl

@[simp] theorem State.modGen_now (s : State) (g : Gen) (f : GenState → GenState) : (s.modGen g f).now = s.now := by cases g <;> rfl
@[simp] theorem State.modGen_host (s : State) (g : Gen) (f : GenState → GenState) : (s.modGen g f).host = s.host := by cases g <;> rfl
@[simp] theorem State.modGen_sm (s : State) (g : Gen) (f : GenState → GenState) : (s.modGen g f).sm = s.sm := by cases g <;> rfl
@[simp] theorem State.modGen_trace (s : State) (g : Gen) (f : GenState → GenState) : (s.modGen g f).trace = s.trace := by cases g <;> rfl
@[simp] theorem State.modGen_faulted (s : State) (g : Gen) (f : GenState → GenState) : (s.modGen g f).faulted = s.faulted := by cases g <;> rfl
@[simp] theorem State.modGen_inputs (s : State) (g : Gen) (f : GenState → GenState) : (s.modGen g f).inputs = s.inputs := by cases g <;> rfl
@[simp] theorem State.modGen_params (s : State) (g : Gen) (f : GenState → GenState) : (s.modGen g f).params = s.params := by cases g <;> rfl

/-! ### Host position, engine, pin, delay, response -/

@[simp] theorem State.setPhase_now (s : State) (p : HostPhase) : (s.setPhase p).now = s.now := rfl
@[simp] theorem State.setPhase_ops (s : State) (p : HostPhase) : (s.setPhase p).ops = s.ops := rfl
@[simp] theorem State.setPhase_prog (s : State) (p : HostPhase) : (s.setPhase p).prog = s.prog := rfl
@[simp] theorem State.setPhase_sm (s : State) (p : HostPhase) : (s.setPhase p).sm = s.sm := rfl
@[simp] theorem State.setPhase_trace (s : State) (p : HostPhase) : (s.setPhase p).trace = s.trace := rfl
@[simp] theorem State.setPhase_faulted (s : State) (p : HostPhase) : (s.setPhase p).faulted = s.faulted := rfl
@[simp] theorem State.setPhase_inputs (s : State) (p : HostPhase) : (s.setPhase p).inputs = s.inputs := rfl
@[simp] theorem State.setPhase_params (s : State) (p : HostPhase) : (s.setPhase p).params = s.params := rfl
@[simp] theorem State.setPhase_gen (s : State) (p : HostPhase) (g : Gen) : (s.setPhase p).gen g = s.gen g := by cases g <;> rfl
@[simp] theorem State.setPhase_phase (s : State) (p : HostPhase) : (s.setPhase p).host.phase = p := rfl
@[simp] theorem State.setPhase_cmd (s : State) (p : HostPhase) : (s.setPhase p).host.cmd = s.host.cmd := rfl
@[simp] theorem State.setPhase_wakeAt (s : State) (p : HostPhase) : (s.setPhase p).host.wakeAt = s.host.wakeAt := rfl
@[simp] theorem State.setPhase_resp (s : State) (p : HostPhase) : (s.setPhase p).host.resp = s.host.resp := rfl
@[simp] theorem State.setPhase_load (s : State) (p : HostPhase) : (s.setPhase p).host.load = s.host.load := rfl

@[simp] theorem State.modSm_now (s : State) (f : SmState → SmState) : (s.modSm f).now = s.now := rfl
@[simp] theorem State.modSm_ops (s : State) (f : SmState → SmState) : (s.modSm f).ops = s.ops := rfl
@[simp] theorem State.modSm_prog (s : State) (f : SmState → SmState) : (s.modSm f).prog = s.prog := rfl
@[simp] theorem State.modSm_host (s : State) (f : SmState → SmState) : (s.modSm f).host = s.host := rfl
@[simp] theorem State.modSm_trace (s : State) (f : SmState → SmState) : (s.modSm f).trace = s.trace := rfl
@[simp] theorem State.modSm_faulted (s : State) (f : SmState → SmState) : (s.modSm f).faulted = s.faulted := rfl
@[simp] theorem State.modSm_inputs (s : State) (f : SmState → SmState) : (s.modSm f).inputs = s.inputs := rfl
@[simp] theorem State.modSm_params (s : State) (f : SmState → SmState) : (s.modSm f).params = s.params := rfl
@[simp] theorem State.modSm_sm (s : State) (f : SmState → SmState) : (s.modSm f).sm = f s.sm := rfl
@[simp] theorem State.modSm_gen (s : State) (f : SmState → SmState) (g : Gen) : (s.modSm f).gen g = s.gen g := by cases g <;> rfl

@[simp] theorem pinWrite_now (g : Gen) (l : Level) (s : State) : (pinWrite g l s).now = s.now := by cases g <;> rfl
@[simp] theorem pinWrite_host (g : Gen) (l : Level) (s : State) : (pinWrite g l s).host = s.host := by cases g <;> rfl
@[simp] theorem pinWrite_sm (g : Gen) (l : Level) (s : State) : (pinWrite g l s).sm = s.sm := by cases g <;> rfl
@[simp] theorem pinWrite_faulted (g : Gen) (l : Level) (s : State) : (pinWrite g l s).faulted = s.faulted := by cases g <;> rfl
@[simp] theorem pinWrite_inputs (g : Gen) (l : Level) (s : State) : (pinWrite g l s).inputs = s.inputs := by cases g <;> rfl
@[simp] theorem pinWrite_params (g : Gen) (l : Level) (s : State) : (pinWrite g l s).params = s.params := by cases g <;> rfl
@[simp] theorem pinWrite_trace (g : Gen) (l : Level) (s : State) :
    (pinWrite g l s).trace = s.trace ++ [{ time := s.now, gen := g, level := l }] := rfl
theorem pinWrite_gen (g h : Gen) (l : Level) (s : State) :
    (pinWrite g l s).gen h = if h = g then { s.gen g with pinLevel := l } else s.gen h := by cases g <;> cases h <;> rfl
@[simp] theorem pinWrite_gen_same (g : Gen) (l : Level) (s : State) :
    (pinWrite g l s).gen g = { s.gen g with pinLevel := l } := by cases g <;> rfl
@[simp] theorem pinWrite_gen_other (g : Gen) (l : Level) (s : State) : (pinWrite g l s).gen g.other = s.gen g.other := by
  cases g <;> rfl

@[simp] theorem delay_now (d : Nat) (s : State) : (delay d s).now = s.now := rfl
@[simp] theorem delay_ops (d : Nat) (s : State) : (delay d s).ops = s.ops := rfl
@[simp] theorem delay_prog (d : Nat) (s : State) : (delay d s).prog = s.prog := rfl
@[simp] theorem delay_sm (d : Nat) (s : State) : (delay d s).sm = s.sm := rfl
@[simp] theorem delay_trace (d : Nat) (s : State) : (delay d s).trace = s.trace := rfl
@[simp] theorem delay_faulted (d : Nat) (s : State) : (delay d s).faulted = s.faulted := rfl
@[simp] theorem delay_inputs (d : Nat) (s : State) : (delay d s).inputs = s.inputs := rfl
@[simp] theorem delay_params (d : Nat) (s : State) : (delay d s).params = s.params := rfl
@[simp] theorem delay_gen (d : Nat) (s : State) (g : Gen) : (delay d s).gen g = s.gen g := by cases g <;> rfl

@[simp] theorem respond_now (st : Status) (v : BitVec 16) (s : State) : (respond st v s).now = s.now := rfl
@[simp] theorem respond_ops (st : Status) (v : BitVec 16) (s : State) : (respond st v s).ops = s.ops := rfl
@[simp] theorem respond_prog (st : Status) (v : BitVec 16) (s : State) : (respond st v s).prog = s.prog := rfl
@[simp] theorem respond_sm (st : Status) (v : BitVec 16) (s : State) : (respond st v s).sm = s.sm := rfl
@[simp] theorem respond_trace (st : Status) (v : BitVec 16) (s : State) : (respond st v s).trace = s.trace := rfl
@[simp] theorem respond_faulted (st : Status) (v : BitVec 16) (s : State) : (respond st v s).faulted = s.faulted := rfl
@[simp] theorem respond_inputs (st : Status) (v : BitVec 16) (s : State) : (respond st v s).inputs = s.inputs := rfl
@[simp] theorem respond_params (st : Status) (v : BitVec 16) (s : State) : (respond st v s).params = s.params := rfl
@[simp] theorem respond_gen (st : Status) (v : BitVec 16) (s : State) (g : Gen) : (respond st v s).gen g = s.gen g := by cases g <;> rfl

@[simp] theorem beginLoad_now (g : Gen) (p : List Byte) (r : BitVec 8) (c : LoadSite) (s : State) : (beginLoad g p r c s).now = s.now := rfl
@[simp] theorem beginLoad_ops (g : Gen) (p : List Byte) (r : BitVec 8) (c : LoadSite) (s : State) : (beginLoad g p r c s).ops = s.ops := rfl
@[simp] theorem beginLoad_prog (g : Gen) (p : List Byte) (r : BitVec 8) (c : LoadSite) (s : State) : (beginLoad g p r c s).prog = s.prog := rfl
@[simp] theorem beginLoad_sm (g : Gen) (p : List Byte) (r : BitVec 8) (c : LoadSite) (s : State) : (beginLoad g p r c s).sm = s.sm := rfl
@[simp] theorem beginLoad_trace (g : Gen) (p : List Byte) (r : BitVec 8) (c : LoadSite) (s : State) : (beginLoad g p r c s).trace = s.trace := rfl
@[simp] theorem beginLoad_faulted (g : Gen) (p : List Byte) (r : BitVec 8) (c : LoadSite) (s : State) : (beginLoad g p r c s).faulted = s.faulted := rfl
@[simp] theorem beginLoad_inputs (g : Gen) (p : List Byte) (r : BitVec 8) (c : LoadSite) (s : State) : (beginLoad g p r c s).inputs = s.inputs := rfl
@[simp] theorem beginLoad_params (g : Gen) (p : List Byte) (r : BitVec 8) (c : LoadSite) (s : State) : (beginLoad g p r c s).params = s.params := rfl
@[simp] theorem beginLoad_gen (g : Gen) (p : List Byte) (r : BitVec 8) (c : LoadSite) (s : State) (h : Gen) : (beginLoad g p r c s).gen h = s.gen h := by cases h <;> rfl

@[simp] theorem delay_wakeAt (d : Nat) (s : State) : (delay d s).host.wakeAt = s.now + d := rfl
@[simp] theorem delay_cmd (d : Nat) (s : State) : (delay d s).host.cmd = s.host.cmd := rfl
@[simp] theorem delay_phase (d : Nat) (s : State) : (delay d s).host.phase = s.host.phase := rfl
@[simp] theorem delay_resp (d : Nat) (s : State) : (delay d s).host.resp = s.host.resp := rfl
@[simp] theorem delay_load (d : Nat) (s : State) : (delay d s).host.load = s.host.load := rfl
@[simp] theorem respond_cmd (st : Status) (v : BitVec 16) (s : State) : (respond st v s).host.cmd = none := rfl
@[simp] theorem respond_phase (st : Status) (v : BitVec 16) (s : State) : (respond st v s).host.phase = .entry := rfl
@[simp] theorem respond_wakeAt (st : Status) (v : BitVec 16) (s : State) : (respond st v s).host.wakeAt = 0 := rfl
@[simp] theorem respond_resp (st : Status) (v : BitVec 16) (s : State) :
    (respond st v s).host.resp = some (responseWord st v) := rfl
@[simp] theorem respond_load (st : Status) (v : BitVec 16) (s : State) : (respond st v s).host.load = s.host.load := rfl
@[simp] theorem beginLoad_cmd (g : Gen) (p : List Byte) (r : BitVec 8) (c : LoadSite) (s : State) :
    (beginLoad g p r c s).host.cmd = s.host.cmd := rfl
@[simp] theorem beginLoad_phase (g : Gen) (p : List Byte) (r : BitVec 8) (c : LoadSite) (s : State) :
    (beginLoad g p r c s).host.phase = .load c .acquire := rfl
@[simp] theorem beginLoad_wakeAt (g : Gen) (p : List Byte) (r : BitVec 8) (c : LoadSite) (s : State) :
    (beginLoad g p r c s).host.wakeAt = s.host.wakeAt := rfl
@[simp] theorem beginLoad_resp (g : Gen) (p : List Byte) (r : BitVec 8) (c : LoadSite) (s : State) :
    (beginLoad g p r c s).host.resp = s.host.resp := rfl
@[simp] theorem beginLoad_load (g : Gen) (p : List Byte) (r : BitVec 8) (c : LoadSite) (s : State) :
    (beginLoad g p r c s).host.load = { gen := g, frame := frameOf p, repeats := r } := rfl

/-! ### Draws: only the inputs change -/

@[simp] theorem drawAdc_now (s : State) : (drawAdc s).2.now = s.now := rfl
@[simp] theorem drawAdc_ops (s : State) : (drawAdc s).2.ops = s.ops := rfl
@[simp] theorem drawAdc_prog (s : State) : (drawAdc s).2.prog = s.prog := rfl
@[simp] theorem drawAdc_host (s : State) : (drawAdc s).2.host = s.host := rfl
@[simp] theorem drawAdc_sm (s : State) : (drawAdc s).2.sm = s.sm := rfl
@[simp] theorem drawAdc_trace (s : State) : (drawAdc s).2.trace = s.trace := rfl
@[simp] theorem drawAdc_faulted (s : State) : (drawAdc s).2.faulted = s.faulted := rfl
@[simp] theorem drawAdc_params (s : State) : (drawAdc s).2.params = s.params := rfl
@[simp] theorem drawAdc_gen (s : State) (g : Gen) : (drawAdc s).2.gen g = s.gen g := by cases g <;> rfl
@[simp] theorem drawAdc_cmds (s : State) : (drawAdc s).2.inputs.cmds = s.inputs.cmds := rfl
@[simp] theorem drawAdc_sched (s : State) : (drawAdc s).2.inputs.sched = s.inputs.sched := rfl

@[simp] theorem drawGpioOk_now (s : State) : (drawGpioOk s).2.now = s.now := rfl
@[simp] theorem drawGpioOk_ops (s : State) : (drawGpioOk s).2.ops = s.ops := rfl
@[simp] theorem drawGpioOk_prog (s : State) : (drawGpioOk s).2.prog = s.prog := rfl
@[simp] theorem drawGpioOk_host (s : State) : (drawGpioOk s).2.host = s.host := rfl
@[simp] theorem drawGpioOk_sm (s : State) : (drawGpioOk s).2.sm = s.sm := rfl
@[simp] theorem drawGpioOk_trace (s : State) : (drawGpioOk s).2.trace = s.trace := rfl
@[simp] theorem drawGpioOk_faulted (s : State) : (drawGpioOk s).2.faulted = s.faulted := rfl
@[simp] theorem drawGpioOk_params (s : State) : (drawGpioOk s).2.params = s.params := rfl
@[simp] theorem drawGpioOk_gen (s : State) (g : Gen) : (drawGpioOk s).2.gen g = s.gen g := by cases g <;> rfl
@[simp] theorem drawGpioOk_cmds (s : State) : (drawGpioOk s).2.inputs.cmds = s.inputs.cmds := rfl
@[simp] theorem drawGpioOk_sched (s : State) : (drawGpioOk s).2.inputs.sched = s.inputs.sched := rfl

@[simp] theorem drawTimerOk_now (s : State) : (drawTimerOk s).2.now = s.now := rfl
@[simp] theorem drawTimerOk_ops (s : State) : (drawTimerOk s).2.ops = s.ops := rfl
@[simp] theorem drawTimerOk_prog (s : State) : (drawTimerOk s).2.prog = s.prog := rfl
@[simp] theorem drawTimerOk_host (s : State) : (drawTimerOk s).2.host = s.host := rfl
@[simp] theorem drawTimerOk_sm (s : State) : (drawTimerOk s).2.sm = s.sm := rfl
@[simp] theorem drawTimerOk_trace (s : State) : (drawTimerOk s).2.trace = s.trace := rfl
@[simp] theorem drawTimerOk_faulted (s : State) : (drawTimerOk s).2.faulted = s.faulted := rfl
@[simp] theorem drawTimerOk_params (s : State) : (drawTimerOk s).2.params = s.params := rfl
@[simp] theorem drawTimerOk_gen (s : State) (g : Gen) : (drawTimerOk s).2.gen g = s.gen g := by cases g <;> rfl
@[simp] theorem drawTimerOk_cmds (s : State) : (drawTimerOk s).2.inputs.cmds = s.inputs.cmds := rfl
@[simp] theorem drawTimerOk_sched (s : State) : (drawTimerOk s).2.inputs.sched = s.inputs.sched := rfl

/-! ### Timers of a generator -/

@[simp] theorem GenState.timer_full (G : GenState) : G.timer .full = G.full := rfl
@[simp] theorem GenState.timer_pulse (G : GenState) : G.timer .pulse = G.pulse := rfl
@[simp] theorem GenState.timer_setTimer_same (G : GenState) (k : TimerKind) (t : Timer) : (G.setTimer k t).timer k = t := by
  cases k <;> rfl
@[simp] theorem GenState.setTimer_mode (G : GenState) (k : TimerKind) (t : Timer) : (G.setTimer k t).mode = G.mode := by cases k <;> rfl
@[simp] theorem GenState.setTimer_dirPin (G : GenState) (k : TimerKind) (t : Timer) : (G.setTimer k t).dirPin = G.dirPin := by cases k <;> rfl
@[simp] theorem GenState.setTimer_poolSize (G : GenState) (k : TimerKind) (t : Timer) : (G.setTimer k t).poolSize = G.poolSize := by cases k <;> rfl
@[simp] theorem GenState.setTimer_slots (G : GenState) (k : TimerKind) (t : Timer) : (G.setTimer k t).slots = G.slots := by cases k <;> rfl
@[simp] theorem GenState.setTimer_free (G : GenState) (k : TimerKind) (t : Timer) : (G.setTimer k t).free = G.free := by cases k <;> rfl
@[simp] theorem GenState.setTimer_pending (G : GenState) (k : TimerKind) (t : Timer) : (G.setTimer k t).pending = G.pending := by cases k <;> rfl
@[simp] theorem GenState.setTimer_filling (G : GenState) (k : TimerKind) (t : Timer) : (G.setTimer k t).filling = G.filling := by cases k <;> rfl
@[simp] theorem GenState.setTimer_idle (G : GenState) (k : TimerKind) (t : Timer) : (G.setTimer k t).idle = G.idle := by cases k <;> rfl
@[simp] theorem GenState.setTimer_current (G : GenState) (k : TimerKind) (t : Timer) : (G.setTimer k t).current = G.current := by cases k <;> rfl
@[simp] theorem GenState.setTimer_pinMode (G : GenState) (k : TimerKind) (t : Timer) : (G.setTimer k t).pinMode = G.pinMode := by cases k <;> rfl
@[simp] theorem GenState.setTimer_pinLevel (G : GenState) (k : TimerKind) (t : Timer) : (G.setTimer k t).pinLevel = G.pinLevel := by cases k <;> rfl
@[simp] theorem GenState.setTimer_owned (G : GenState) (k : TimerKind) (t : Timer) : (G.setTimer k t).owned = G.owned := by cases k <;> rfl

/-! ### The CLOCK step -/

@[simp] theorem clockStep_host (s : State) : (clockStep s).host = s.host := rfl
@[simp] theorem clockStep_sm (s : State) : (clockStep s).sm = s.sm := rfl
@[simp] theorem clockStep_trace (s : State) : (clockStep s).trace = s.trace := rfl
@[simp] theorem clockStep_faulted (s : State) : (clockStep s).faulted = s.faulted := rfl
@[simp] theorem clockStep_inputs (s : State) : (clockStep s).inputs = s.inputs := rfl
@[simp] theorem clockStep_params (s : State) : (clockStep s).params = s.params := rfl
@[simp] theorem clockStep_now (s : State) : (clockStep s).now = s.now + 1 := rfl
@[simp] theorem clockStep_gen (s : State) (g : Gen) : (clockStep s).gen g = (s.gen g).tick := by cases g <;> rfl
@[simp] theorem GenState.tick_mode (G : GenState) : G.tick.mode = G.mode := rfl
@[simp] theorem GenState.tick_dirPin (G : GenState) : G.tick.dirPin = G.dirPin := rfl
@[simp] theorem GenState.tick_poolSize (G : GenState) : G.tick.poolSize = G.poolSize := rfl
@[simp] theorem GenState.tick_slots (G : GenState) : G.tick.slots = G.slots := rfl
@[simp] theorem GenState.tick_free (G : GenState) : G.tick.free = G.free := rfl
@[simp] theorem GenState.tick_pending (G : GenState) : G.tick.pending = G.pending := rfl
@[simp] theorem GenState.tick_filling (G : GenState) : G.tick.filling = G.filling := rfl
@[simp] theorem GenState.tick_idle (G : GenState) : G.tick.idle = G.idle := rfl
@[simp] theorem GenState.tick_current (G : GenState) : G.tick.current = G.current := rfl
@[simp] theorem GenState.tick_pinMode (G : GenState) : G.tick.pinMode = G.pinMode := rfl
@[simp] theorem GenState.tick_pinLevel (G : GenState) : G.tick.pinLevel = G.pinLevel := rfl
@[simp] theorem GenState.tick_owned (G : GenState) : G.tick.owned = G.owned := rfl

/-! ### The raised fault -/

@[simp] theorem unlessFaulted_none {s : State} (h : s.faulted = none) (k : Result) : unlessFaulted s k = k := by
  simp [unlessFaulted, h]

@[simp] theorem unlessFaulted_some {s : State} {r : FaultReason} (h : s.faulted = some r) (k : Result) :
    unlessFaulted s k = .fault (.quiescent r) := by
  simp [unlessFaulted, h]

/-- A step that answers a next state ran in a block that is not faulted. -/
theorem unlessFaulted_next {s t : State} {k : Result} (h : unlessFaulted s k = .next t) : s.faulted = none ∧ k = .next t := by
  unfold unlessFaulted at h
  split at h
  · cases h
  · exact ⟨‹_›, h⟩

/-- Raising a fault in a block that is not faulted changes `faulted` alone (R322). -/
theorem raiseFault_eq {s : State} (h : s.faulted = none) (r : FaultReason) :
    raiseFault r s = .next { s with faulted := some r } := by
  simp [raiseFault, h]

end Sys2Proof.Machine
end

