-- ==== Sys2Proof/Laws/Buffer.lean ====
section
/-! SUPPORT. The laws of the packet storage: reading a stream bit after writing one (R8, R62), after writing a stream (R127), and
that every write of a slot keeps the pool's form (R152). -/

namespace Sys2Proof.Machine

theorem setByteBit_getLsbD (y : Byte) {j k : Nat} (v : Bool) (hj : j < 8) (hk : k < 8) :
    (setByteBit y k v).getLsbD j = if j = k then v else y.getLsbD j := by
  cases v <;> interval_cases j <;> interval_cases k <;> simp [setByteBit]

theorem bufBit_setBufBit (b : Buffer) {i j : Nat} (v : Bool) (hi : i < 80) :
    bufBit (setBufBit b i v) j = if j = i then v else bufBit b j := by
  have hi' : i / 8 < 10 := by omega
  unfold bufBit setBufBit
  simp only [hi', dite_true]
  by_cases hj : j / 8 < 10
  · simp only [hj, dite_true, Vector.getElem_set]
    by_cases hq : i / 8 = j / 8
    · simp only [hq, if_true]
      rw [setByteBit_getLsbD _ _ (by omega) (by omega)]
      by_cases hji : j = i
      · subst hji; simp
      · have : 7 - j % 8 ≠ 7 - i % 8 := by omega
        simp [this, hji]
    · have : j ≠ i := by omega
      simp [hq, this]
  · have : j ≠ i := by omega
    simp [hj, this]

/-- Reading any stream bit after a stream is written from index `i` on. -/
theorem bufBit_writeBits (vs : List Bool) : ∀ (b : Buffer) (i k : Nat), i + vs.length ≤ 80 →
    bufBit (writeBits b i vs) k = if i ≤ k ∧ k < i + vs.length then vs.getD (k - i) false else bufBit b k := by
  induction vs with
  | nil =>
    intro b i k _
    have : ¬ (i ≤ k ∧ k < i) := by omega
    simp [writeBits, this]
  | cons v vs ih =>
    intro b i k h
    simp only [List.length_cons] at h
    rw [writeBits, ih _ _ _ (by omega), bufBit_setBufBit _ _ (by omega)]
    by_cases h1 : k = i
    · subst h1; simp
    · by_cases h2 : i ≤ k ∧ k < i + (v :: vs).length
      · simp only [List.length_cons] at h2
        have h3 : i + 1 ≤ k ∧ k < i + 1 + vs.length := by omega
        have h4 : k - i = (k - (i + 1)) + 1 := by omega
        simp [h2, h3, h4]
      · simp only [List.length_cons] at h2 ⊢
        have h3 : ¬ (i + 1 ≤ k ∧ k < i + 1 + vs.length) := by omega
        rw [if_neg h3, if_neg h2, if_neg h1]

@[simp] theorem byteBits_length (y : Byte) : (byteBits y).length = 8 := rfl

@[simp] theorem layout_length (frame : List Byte) : (layout frame).length = numBitsOf frame.length := by
  simp only [layout, numBitsOf, List.length_append, List.length_replicate, List.length_flatMap, List.length_cons,
    byteBits_length, Nat.add_left_cancel_iff]
  induction frame with
  | nil => rfl
  | cons y ys ih => simp only [List.map_cons, List.sum_cons, List.length_cons, ih]; omega

@[simp] theorem frameOf_length (p : List Byte) : (frameOf p).length = p.length + 1 := by simp [frameOf]

theorem lenLegal_iff {n : Nat} : lenLegal n = true ↔ 2 ≤ n ∧ n ≤ 5 := by
  rw [lenLegal, Bool.and_eq_true, decide_eq_true_iff, decide_eq_true_iff, Config.payloadLenMin, Config.payloadLenMax]

/-- A payload of a legal length has as many bytes as `LEN` says (R124). -/
theorem payloadOf_length {len : BitVec 3} (h : lenLegal len.toNat = true) (p0 p1 p2 p3 p4 : Byte) :
    (payloadOf len p0 p1 p2 p3 p4).length = len.toNat := by
  have := (lenLegal_iff.1 h).2
  rw [payloadOf, List.length_take]
  simp only [List.length_cons, List.length_nil]
  omega

theorem cvLegal_iff {cv : BitVec 11} : cvLegal cv = true ↔ 1 ≤ cv.toNat ∧ cv.toNat ≤ 1024 := by
  rw [cvLegal, Bool.and_eq_true, decide_eq_true_iff, decide_eq_true_iff, Config.cvMin, Config.cvMax]

theorem numBitsOf_frameOf_le {p : List Byte} (h : lenLegal p.length = true) : numBitsOf (frameOf p).length ≤ 76 := by
  have := (lenLegal_iff.1 h).2
  simp only [frameOf_length, numBitsOf, Config.preambleBits]; omega

/-- The stream bits of a packet after a frame of at most 6 bytes is laid out in it (R127). -/
theorem bufBit_fillPacket (p : Packet) (frame : List Byte) (r : BitVec 8) (h : frame.length ≤ 6) (k : Nat) :
    bufBit (fillPacket p frame r).buffer k =
      if k < numBitsOf frame.length then (layout frame).getD k false else bufBit p.buffer k := by
  have hl : 0 + (layout frame).length ≤ 80 := by simp [numBitsOf, Config.preambleBits]; omega
  simp only [fillPacket]
  rw [bufBit_writeBits _ _ _ _ hl]
  simp

@[simp] theorem fillPacket_currentBit (p : Packet) (f : List Byte) (r : BitVec 8) : (fillPacket p f r).currentBit = 0 := rfl
@[simp] theorem fillPacket_repeats (p : Packet) (f : List Byte) (r : BitVec 8) : (fillPacket p f r).repeats = r := rfl
@[simp] theorem fillPacket_numBits (p : Packet) (f : List Byte) (r : BitVec 8) :
    (fillPacket p f r).numBits = BitVec.ofNat 8 (numBitsOf f.length) := rfl

/-! ### Slots -/

@[simp] theorem Memory.wf_write {n i : Nat} {m : Memory} {p : Packet} : (m.write i p).wf n = m.wf n := by
  simp [Memory.wf, Memory.write]

/-- The block right after power-on has no slot, and its pools are well formed (R41, R152). -/
theorem Memory.wf_reset (g : Gen) : (State.reset.gen g).slots.wf (State.reset.gen g).poolSize = true := by cases g <;> rfl

/-- CONFIGURE's pool is well formed (R152, R231). -/
theorem Memory.wf_replicate (n : Nat) : Memory.wf n (List.replicate n Packet.zero) = true := by simp [Memory.wf]

theorem Memory.wf_iff {n : Nat} {m : Memory} : m.wf n = true ↔ m.length = n := by simp [Memory.wf]

theorem Memory.read_write_same {m : Memory} {i : Nat} {p q : Packet} (h : m.read i = some q) :
    (m.write i p).read i = some p := by
  have : i < m.length := by
    by_contra hn
    simp [Memory.read, List.getElem?_eq_none (not_lt.1 hn)] at h
  simp [Memory.read, Memory.write, this]

theorem Memory.read_write_ne {m : Memory} {i j : Nat} (p : Packet) (h : j ≠ i) : (m.write i p).read j = m.read j := by
  simp [Memory.read, Memory.write, List.getElem?_set_ne (Ne.symm h)]

theorem Memory.read_isSome {m : Memory} {i : Nat} (h : i < m.length) : ∃ p, m.read i = some p :=
  ⟨m[i], by simp [Memory.read, h]⟩

theorem Memory.lt_of_read {m : Memory} {i : Nat} {p : Packet} (h : m.read i = some p) : i < m.length := by
  by_contra hn
  simp [Memory.read, List.getElem?_eq_none (not_lt.1 hn)] at h

/-! ### FIFOs -/

theorem fifoPop_some {q rest : List Nat} {x : Nat} : fifoPop q = some (x, rest) ↔ q = x :: rest := by
  cases q with
  | nil => simp [fifoPop]
  | cons y ys => simp [fifoPop]

theorem fifoPop_none {q : List Nat} : fifoPop q = none ↔ q = [] := by cases q <;> simp [fifoPop]

end Sys2Proof.Machine
end

