-- ==== Sys2Proof/Laws/Ops.lean ====
section
/-! SUPPORT. One lemma for each shared operation that says everything it can do: if it answers a next state, then which, and under
which condition. Later proofs cite these and unfold no operation. -/

namespace Sys2Proof.Machine

variable {s t : State}

theorem next_inj {a b : State} : (Host.Outcome.next a : Result) = .next b ↔ a = b :=
  ⟨fun h => by injection h, fun h => by rw [h]⟩

/-! ### Faults and interrupts -/

theorem raiseFault_next {r : FaultReason} : raiseFault r s = .next t ↔ t = { s with faulted := some (s.faulted.getD r) } := by
  rw [raiseFault, next_inj, eq_comm]

theorem takeInterrupt_some {k : TimerKind} {g : Gen} :
    takeInterrupt k g s = some t ↔ ((s.gen g).timer k).deliverable = true ∧
      t = s.modGen g fun G => G.setTimer k { G.timer k with latched := false, age := 0 } := by
  unfold takeInterrupt
  split
  · rename_i h; rw [Option.some.injEq, eq_comm]; exact ⟨fun e => ⟨h, e⟩, fun e => e.2⟩
  · rename_i h; exact ⟨fun e => (by cases e), fun e => absurd e.1 h⟩

theorem deliverable_iff {t : Timer} : t.deliverable = true ↔ t.latched = true ∧ t.attached = true := by
  rw [Timer.deliverable, Bool.and_eq_true]

/-! ### The stages of a load -/

theorem loadEntry_next {g : Gen} {n : Nat} {p : List Byte} {r : BitVec 8} {site : LoadSite} (h : loadEntry g n p r site s = .next t) :
    ((s.gen g).mode = .unconfigured ∧ t = { s with faulted := some (s.faulted.getD .contractViolation) }) ∨
    ((s.gen g).mode ≠ .unconfigured ∧ lenLegal n = true ∧ t = beginLoad g p r site s) ∨
    ((s.gen g).mode ≠ .unconfigured ∧ lenLegal n = false ∧ t = respond .invalidPayloadLen 0 s) := by
  unfold loadEntry at h
  split at h
  · exact .inl ⟨‹_›, raiseFault_next.1 h⟩
  · split at h
    · exact .inr (.inl ⟨‹_›, ‹_›, (next_inj.1 h).symm⟩)
    · exact .inr (.inr ⟨‹_›, by simp_all, (next_inj.1 h).symm⟩)

/-- An acquisition attempt that finds a slot. -/
def acquired (site : LoadSite) (i : Nat) (rest : List Nat) (s : State) : State :=
  (s.modGen s.host.load.gen fun G => { G with free := rest, filling := some i }).setPhase (.load site .fill)

theorem loadAcquire_next {site : LoadSite} (h : loadAcquire site s = .next t) :
    (∃ i rest, (s.gen s.host.load.gen).free = i :: rest ∧ t = acquired site i rest s) ∨
    ((s.gen s.host.load.gen).free = [] ∧ t = delay Config.poolPollUs s) := by
  unfold loadAcquire at h
  dsimp only at h
  split at h
  · exact .inl ⟨_, _, fifoPop_some.1 ‹_›, (next_inj.1 h).symm⟩
  · exact .inr ⟨fifoPop_none.1 ‹_›, (next_inj.1 h).symm⟩

/-- The fill step on slot `i`, which held `p`. -/
def filled (frame : List Byte) (site : LoadSite) (i : Nat) (p : Packet) (s : State) : State :=
  (s.modGen s.host.load.gen fun G => { G with slots := G.slots.write i (fillPacket p frame s.host.load.repeats) }).setPhase
    (.load site .publish)

theorem fillHeld_next {frame : List Byte} {site : LoadSite} :
    fillHeld frame site s = .next t ↔ ∃ i p, (s.gen s.host.load.gen).filling = some i ∧
      (s.gen s.host.load.gen).slots.read i = some p ∧ t = filled frame site i p s := by
  unfold fillHeld
  dsimp only
  split
  · simp_all
  · rename_i i hi
    split
    · simp_all
    · rename_i p hp
      simp only [next_inj, hi, Option.some.injEq]
      constructor
      · rintro rfl
        exact ⟨i, p, rfl, hp, rfl⟩
      · rintro ⟨j, q, rfl, hq, rfl⟩
        rw [hp] at hq
        obtain rfl := Option.some.inj hq
        rfl

/-- The held slot `i` at the tail of `pending`. -/
def published (i : Nat) (s : State) : State :=
  s.modGen s.host.load.gen fun G => { G with pending := fifoPush G.pending i, filling := none }

theorem loadPublish_next {after : State → Result} :
    loadPublish after s = .next t ↔ ∃ i, (s.gen s.host.load.gen).filling = some i ∧ after (published i s) = .next t := by
  unfold loadPublish
  dsimp only
  split
  · simp_all
  · rename_i i hi
    simp only [hi, Option.some.injEq, exists_eq_left']
    rfl

theorem loadStage_next {site : LoadSite} {after : State → Result} {stage : LoadStage} (h : loadStage site after stage s = .next t) :
    (stage = .acquire ∧ loadAcquire site s = .next t) ∨ (stage = .fill ∧ fillHeld s.host.load.frame site s = .next t) ∨
    (stage = .publish ∧ loadPublish after s = .next t) := by
  cases stage
  · cases h
  · exact .inl ⟨rfl, h⟩
  · exact .inr (.inl ⟨rfl, h⟩)
  · exact .inr (.inr ⟨rfl, h⟩)

theorem execFrame_next {frame : List Byte} (h : execFrame frame s = .next t) :
    s.faulted = none ∧ ∃ site, s.host.phase = .load site .fill ∧ fillHeld frame site s = .next t := by
  obtain ⟨hf, h⟩ := unlessFaulted_next h
  split at h
  · exact ⟨hf, _, ‹_›, h⟩
  · cases h

theorem execLoadPacket_next {g : Gen} {len : BitVec 3} {rep : BitVec 8} {p0 p1 p2 p3 p4 : Byte}
    (h : execLoadPacket g len rep p0 p1 p2 p3 p4 s = .next t) :
    s.faulted = none ∧
      ((s.host.phase = .entry ∧ loadEntry g len.toNat (payloadOf len p0 p1 p2 p3 p4) rep .caller s = .next t) ∨
       (∃ stage, s.host.phase = .load .caller stage ∧
          loadStage .caller (fun t => .next (respond .ok 0 t)) stage s = .next t)) := by
  obtain ⟨hf, h⟩ := unlessFaulted_next h
  split at h
  · exact ⟨hf, .inl ⟨‹_›, h⟩⟩
  · exact ⟨hf, .inr ⟨_, ‹_›, h⟩⟩
  · cases h

/-! ### The queue commands -/

theorem execIsEmpty_next {g : Gen} (h : execIsEmpty g s = .next t) :
    s.faulted = none ∧ s.host.phase = .entry ∧
      (((s.gen g).mode = .unconfigured ∧ t = { s with faulted := some .contractViolation }) ∨
       ((s.gen g).mode ≠ .unconfigured ∧ t = respond .ok (boolValue (fifoEmpty (s.gen g).pending)) s)) := by
  obtain ⟨hf, h⟩ := unlessFaulted_next h
  split at h
  · refine ⟨hf, ‹_›, ?_⟩
    split at h
    · rw [raiseFault_eq hf] at h; exact .inl ⟨‹_›, (next_inj.1 h).symm⟩
    · exact .inr ⟨‹_›, (next_inj.1 h).symm⟩
  · cases h

theorem pollEmpty_next {g : Gen} {done : State → Result} (h : pollEmpty g done s = .next t) :
    ((s.gen g).pending = [] ∧ done s = .next t) ∨
    ((s.gen g).pending ≠ [] ∧ t = delay s.params.emptyPollUs (s.setPhase .poll)) := by
  unfold pollEmpty at h
  split at h
  · exact .inl ⟨by simpa [fifoEmpty] using ‹fifoEmpty _ = true›, h⟩
  · exact .inr ⟨by simpa [fifoEmpty] using ‹¬ fifoEmpty _ = true›, (next_inj.1 h).symm⟩

theorem execWaitEmpty_next {g : Gen} (h : execWaitEmpty g s = .next t) :
    s.faulted = none ∧
      ((s.host.phase = .entry ∧ (s.gen g).mode = .unconfigured ∧ t = { s with faulted := some .contractViolation }) ∨
       ((s.host.phase = .entry ∧ (s.gen g).mode ≠ .unconfigured ∨ s.host.phase = .poll) ∧
         ((s.gen g).pending = [] ∧ t = respond .ok 0 s ∨
          (s.gen g).pending ≠ [] ∧ t = delay s.params.emptyPollUs (s.setPhase .poll)))) := by
  obtain ⟨hf, h⟩ := unlessFaulted_next h
  refine ⟨hf, ?_⟩
  split at h
  · split at h
    · rw [raiseFault_eq hf] at h; exact .inl ⟨‹_›, ‹_›, (next_inj.1 h).symm⟩
    · refine .inr ⟨.inl ⟨‹_›, ‹_›⟩, ?_⟩
      exact (pollEmpty_next h).imp_left fun h => ⟨h.1, (next_inj.1 h.2).symm⟩
  · refine .inr ⟨.inr ‹_›, ?_⟩
    exact (pollEmpty_next h).imp_left fun h => ⟨h.1, (next_inj.1 h.2).symm⟩
  · cases h

/-! ### The controller -/

theorem startEntry_next {g : Gen} (h : startEntry g s = .next t) :
    ((s.gen g).mode ≠ .idle ∧ t = { s with faulted := some (s.faulted.getD .contractViolation) }) ∨
    ((s.gen g).mode = .idle ∧ t = s.setPhase (.load .bootReset .entry)) := by
  unfold startEntry at h
  split at h
  · exact .inl ⟨by simp_all, raiseFault_next.1 h⟩
  · split at h
    · exact .inl ⟨by simp_all, raiseFault_next.1 h⟩
    · refine .inr ⟨?_, (next_inj.1 h).symm⟩
      cases hm : (s.gen g).mode <;> simp_all

theorem drawTimerOk_snd (s : State) : ∃ l d, (drawTimerOk s).2 = { s with inputs := { s.inputs with timerOk := l, draws := d } } :=
  ⟨_, _, rfl⟩

theorem drawGpioOk_snd (s : State) : ∃ l d, (drawGpioOk s).2 = { s with inputs := { s.inputs with gpioOk := l, draws := d } } :=
  ⟨_, _, rfl⟩

theorem drawAdc_snd (s : State) : ∃ l d, (drawAdc s).2 = { s with inputs := { s.inputs with adc := l, draws := d } } :=
  ⟨_, _, rfl⟩

theorem startArm_next {g : Gen} (h : startArm g s = .next t) :
    ((drawTimerOk s).1 = true ∧ t = respond .ok 0 ((drawTimerOk s).2.modGen g (armTimers g))) ∨
    ((drawTimerOk s).1 = false ∧ t = respond .hardwareSetupFailure 0 (drawTimerOk s).2) := by
  rw [startArm, next_inj] at h
  cases hd : (drawTimerOk s).1
  · exact .inr ⟨rfl, by simpa [hd] using h.symm⟩
  · exact .inl ⟨rfl, by simpa [hd] using h.symm⟩

theorem startSteps_next {g : Gen} (h : startSteps g s = .next t) :
    (s.host.phase = .startEntry ∧ startEntry g s = .next t) ∨
    (s.host.phase = .load .bootReset .entry ∧ loadEntry g resetPayload.length resetPayload Config.bootResetRepeats .bootReset s = .next t) ∨
    (∃ stage, s.host.phase = .load .bootReset stage ∧ stage ≠ .entry ∧
      loadStage .bootReset (fun t => .next (t.setPhase (.load .bootIdle .entry))) stage s = .next t) ∨
    (s.host.phase = .load .bootIdle .entry ∧ loadEntry g idlePayload.length idlePayload Config.bootIdleRepeats .bootIdle s = .next t) ∨
    (∃ stage, s.host.phase = .load .bootIdle stage ∧ stage ≠ .entry ∧
      loadStage .bootIdle (fun t => .next (t.setPhase .arm)) stage s = .next t) ∨
    (s.host.phase = .arm ∧ startArm g s = .next t) := by
  unfold startSteps at h
  split at h
  · exact .inl ⟨‹_›, h⟩
  · exact .inr (.inl ⟨‹_›, h⟩)
  · exact .inr (.inr (.inl ⟨_, ‹_›, by rintro rfl; simp_all, h⟩))
  · exact .inr (.inr (.inr (.inl ⟨‹_›, h⟩)))
  · exact .inr (.inr (.inr (.inr (.inl ⟨_, ‹_›, by rintro rfl; simp_all, h⟩))))
  · exact .inr (.inr (.inr (.inr (.inr ⟨‹_›, h⟩))))
  · cases h

theorem execStart_next {g : Gen} (h : execStart g s = .next t) :
    s.faulted = none ∧ ((s.host.phase = .entry ∧ startEntry g s = .next t) ∨
      (s.host.phase ≠ .entry ∧ s.host.phase ≠ .startEntry ∧ startSteps g s = .next t)) := by
  obtain ⟨hf, h⟩ := unlessFaulted_next h
  split at h
  · exact ⟨hf, .inl ⟨‹_›, h⟩⟩
  · cases h
  · exact ⟨hf, .inr ⟨by assumption, by assumption, h⟩⟩

theorem configureEntry_next {g : Gen} {pin : BitVec 8} {pool : BitVec 16} (h : configureEntry g pin pool s = .next t) :
    (((s.gen g).mode ≠ .unconfigured ∨ pool.toNat < 2) ∧ t = { s with faulted := some (s.faulted.getD .contractViolation) }) ∨
    ((s.gen g).mode = .unconfigured ∧ 2 ≤ pool.toNat ∧
      ((drawGpioOk (s.modGen g (createPool pin pool.toNat))).1 = true ∧
          t = configured g (drawGpioOk (s.modGen g (createPool pin pool.toNat))).2 ∨
       (drawGpioOk (s.modGen g (createPool pin pool.toNat))).1 = false ∧
          t = respond .hardwareSetupFailure 0
            ((drawGpioOk (s.modGen g (createPool pin pool.toNat))).2.modGen g fun G => { G with mode := .idle }))) := by
  unfold configureEntry at h
  by_cases hm : (s.gen g).mode ≠ .unconfigured
  · rw [if_pos hm] at h
    exact .inl ⟨.inl hm, raiseFault_next.1 h⟩
  · rw [if_neg hm] at h
    by_cases hp : pool.toNat < Config.poolMin
    · rw [if_pos hp] at h
      exact .inl ⟨.inr hp, raiseFault_next.1 h⟩
    · rw [if_neg hp] at h
      refine .inr ⟨not_not.1 hm, not_lt.1 hp, ?_⟩
      dsimp only at h
      rw [next_inj] at h
      generalize hd : drawGpioOk (s.modGen g (createPool pin pool.toNat)) = d at h ⊢
      cases hd1 : d.1
      · exact .inr ⟨rfl, by simpa [hd1] using h.symm⟩
      · exact .inl ⟨rfl, by simpa [hd1] using h.symm⟩

theorem execConfigure_next {g : Gen} {pin : BitVec 8} {pool : BitVec 16} (h : execConfigure g pin pool s = .next t) :
    s.faulted = none ∧ ((s.host.phase = .entry ∧ configureEntry g pin pool s = .next t) ∨
      (s.host.phase ≠ .entry ∧ startSteps g s = .next t)) := by
  obtain ⟨hf, h⟩ := unlessFaulted_next h
  split at h
  · exact ⟨hf, .inl ⟨‹_›, h⟩⟩
  · exact ⟨hf, .inr ⟨by assumption, h⟩⟩

/-- STOP's first step on a configured generator. -/
def stopped (g : Gen) (s : State) : State :=
  delay Config.stopWaitUs ((s.modGen g fun G =>
    { G with full := timerShutdown G.full, pulse := timerShutdown G.pulse, mode := .idle }).setPhase .drain)

theorem execStop_next {g : Gen} (h : execStop g s = .next t) :
    s.faulted = none ∧
      ((s.host.phase = .entry ∧ (s.gen g).mode = .unconfigured ∧ t = { s with faulted := some .contractViolation }) ∨
       (s.host.phase = .entry ∧ (s.gen g).mode ≠ .unconfigured ∧ t = stopped g s) ∨
       (s.host.phase = .drain ∧ t = respond .ok 0 (s.modGen g drainGen))) := by
  obtain ⟨hf, h⟩ := unlessFaulted_next h
  refine ⟨hf, ?_⟩
  split at h
  · unfold stopEntry at h
    split at h
    · rw [raiseFault_eq hf] at h; exact .inl ⟨‹_›, ‹_›, (next_inj.1 h).symm⟩
    · exact .inr (.inl ⟨‹_›, ‹_›, (next_inj.1 h).symm⟩)
  · exact .inr (.inr ⟨‹_›, (next_inj.1 h).symm⟩)
  · cases h

/-! ### The service-mode engine -/

theorem smRespond_next {v : BitVec 16} :
    smRespond v s = .next t ↔ t = respond .ok v (s.modSm fun m => { m with op := .none, phase := .done }) := by
  rw [smRespond, next_inj, eq_comm]

/-- The engine and the host after a service-mode command's entry step (R261). -/
def smEntered (op : SmOp) (cv : BitVec 11) (bit : BitVec 3) (value : BitVec 8) (s : State) : State :=
  { s with sm :=
    { op := op, cv := cv.setWidth 16, bit := bit, value := value, bitIndex := 0, acc := 0, attempt := 0
      thr := BitVec.ofNat 32 (ackThreshold s.params.maxMaProg.toNat)
      k := 0, sum := 0, nOk := 0, phase := .entry, verifying := false } }.setPhase (.load .engine .entry)

theorem smEntry_next {op : SmOp} {cv : BitVec 11} {bit : BitVec 3} {value : BitVec 8} (h : smEntry op cv bit value s = .next t) :
    t = { s with faulted := some (s.faulted.getD .contractViolation) } ∨
    ((s.gen .prog).mode ≠ .unconfigured ∧ cvLegal cv = true ∧ s.params.maxMaProg ≠ 0 ∧ t = smEntered op cv bit value s) := by
  unfold smEntry at h
  split at h
  · exact .inl (raiseFault_next.1 h)
  · split at h
    · exact .inl (raiseFault_next.1 h)
    · split at h
      · exact .inl (raiseFault_next.1 h)
      · exact .inr ⟨‹_›, by simp_all, ‹_›, (next_inj.1 h).symm⟩

theorem smLoadEntry_next (h : smLoadEntry s = .next t) :
    ((s.gen .prog).mode = .unconfigured ∧ t = { s with faulted := some (s.faulted.getD .contractViolation) }) ∨
    ((s.gen .prog).mode ≠ .unconfigured ∧
      t = beginLoad .prog (smLoad (smBegin s.sm)).1 (smLoad (smBegin s.sm)).2 .engine (s.modSm smBegin)) := by
  unfold smLoadEntry at h
  split at h
  · exact .inl ⟨‹_›, raiseFault_next.1 h⟩
  · exact .inr ⟨‹_›, (next_inj.1 h).symm⟩

theorem smAfterLoad_next (h : smAfterLoad s = .next t) :
    (s.sm.phase = .loadReset ∧ t = s.toLoad .loadFrame) ∨
    (s.sm.phase = .loadFrame ∧ t = (s.modSm fun m => { m with phase := .wait }).setPhase .poll) ∨
    (s.sm.phase = .loadTrail ∧ s.sm.attempt < Config.maxCvAttempts ∧
      t = (s.modSm fun m => { m with attempt := m.attempt + 1, verifying := false }).toLoad .loadReset) ∨
    (s.sm.phase = .loadTrail ∧ ¬ s.sm.attempt < Config.maxCvAttempts ∧ t = s.setPhase .finish) := by
  unfold smAfterLoad at h
  split at h
  · exact .inl ⟨‹_›, (next_inj.1 h).symm⟩
  · exact .inr (.inl ⟨‹_›, (next_inj.1 h).symm⟩)
  · split at h
    · exact .inr (.inr (.inl ⟨‹_›, ‹_›, (next_inj.1 h).symm⟩))
    · exact .inr (.inr (.inr ⟨‹_›, ‹_›, (next_inj.1 h).symm⟩))
  · cases h

theorem smPoll_next (h : smPoll s = .next t) :
    ((s.gen .prog).pending = [] ∧
      t = (s.modSm fun m => { m with phase := .sample, k := 0, sum := 0, nOk := 0 }).setPhase .sample) ∨
    ((s.gen .prog).pending ≠ [] ∧ t = delay s.params.emptyPollUs (s.setPhase .poll)) :=
  (pollEmpty_next h).imp_left fun h => ⟨h.1, (next_inj.1 h.2).symm⟩

theorem smSample_next {decide : Bool → State → Result} (h : smSample decide s = .next t) :
    (s.sm.k < Config.adcSamples ∧
      t = delay Config.adcSampleIntervalUs ((drawAdc s).2.modSm (countSample (drawAdc s).1))) ∨
    (¬ s.sm.k < Config.adcSamples ∧ decide (ackDecide s.sm.sum.toNat s.sm.nOk.toNat s.sm.thr.toNat) s = .next t) := by
  unfold smSample at h
  split at h
  · exact .inl ⟨‹_›, (next_inj.1 h).symm⟩
  · exact .inr ⟨‹_›, h⟩

theorem readDecide_next {ack : Bool} (h : readDecide ack s = .next t) :
    (s.sm.bitIndex < 8 ∧ t = (s.modSm fun m =>
      { m with acc := if ack then m.acc ||| (1#8 <<< m.bitIndex.toNat) else m.acc, bitIndex := m.bitIndex + 1 }).toLoad .loadReset) ∨
    (¬ s.sm.bitIndex < 8 ∧ smRespond (if ack then s.sm.acc.setWidth 16 else 0xFFFF) s = .next t) := by
  unfold readDecide at h
  split at h
  · exact .inl ⟨‹_›, (next_inj.1 h).symm⟩
  · exact .inr ⟨‹_›, h⟩

theorem writeDecide_next {ack : Bool} (h : writeDecide ack s = .next t) :
    (ack = true ∧ s.sm.verifying = true ∧ smRespond 1 s = .next t) ∨
    (ack = true ∧ s.sm.verifying = false ∧ t = (s.modSm fun m => { m with verifying := true }).toLoad .loadReset) ∨
    (ack = false ∧ t = s.toLoad .loadTrail) := by
  unfold writeDecide at h
  split at h
  · exact .inl ⟨rfl, ‹_›, h⟩
  · exact .inr (.inl ⟨rfl, ‹_›, (next_inj.1 h).symm⟩)
  · exact .inr (.inr ⟨rfl, (next_inj.1 h).symm⟩)

theorem smSteps_next {decide : Bool → State → Result} (h : smSteps decide s = .next t) :
    (s.host.phase = .load .engine .entry ∧ smLoadEntry s = .next t) ∨
    (∃ stage, s.host.phase = .load .engine stage ∧ stage ≠ .entry ∧ loadStage .engine smAfterLoad stage s = .next t) ∨
    (s.host.phase = .poll ∧ smPoll s = .next t) ∨
    (s.host.phase = .sample ∧ smSample decide s = .next t) := by
  unfold smSteps at h
  split at h
  · exact .inl ⟨‹_›, h⟩
  · exact .inr (.inl ⟨_, ‹_›, by rintro rfl; simp_all, h⟩)
  · exact .inr (.inr (.inl ⟨‹_›, h⟩))
  · exact .inr (.inr (.inr ⟨‹_›, h⟩))
  · cases h

theorem execReadCv_next {cv : BitVec 11} (h : execReadCv cv s = .next t) :
    s.faulted = none ∧ ((s.host.phase = .entry ∧ smEntry .readCv cv 0 0 s = .next t) ∨
      (s.host.phase ≠ .entry ∧ smSteps readDecide s = .next t)) := by
  obtain ⟨hf, h⟩ := unlessFaulted_next h
  split at h
  · exact ⟨hf, .inl ⟨‹_›, h⟩⟩
  · exact ⟨hf, .inr ⟨by assumption, h⟩⟩

theorem writeSteps_next (h : writeSteps s = .next t) :
    (s.host.phase = .finish ∧ smRespond 0 s = .next t) ∨ (s.host.phase ≠ .finish ∧ smSteps writeDecide s = .next t) := by
  unfold writeSteps at h
  split at h
  · exact .inl ⟨‹_›, h⟩
  · exact .inr ⟨by assumption, h⟩

theorem execWriteProgCvByte_next {cv : BitVec 11} {v : Byte} (h : execWriteProgCvByte cv v s = .next t) :
    s.faulted = none ∧ ((s.host.phase = .entry ∧ smEntry .writeByte cv 0 v s = .next t) ∨
      (s.host.phase ≠ .entry ∧ writeSteps s = .next t)) := by
  obtain ⟨hf, h⟩ := unlessFaulted_next h
  split at h
  · exact ⟨hf, .inl ⟨‹_›, h⟩⟩
  · exact ⟨hf, .inr ⟨by assumption, h⟩⟩

theorem execWriteProgCvBit_next {cv : BitVec 11} {b : BitVec 3} {v : Bool} (h : execWriteProgCvBit cv b v s = .next t) :
    s.faulted = none ∧ ((s.host.phase = .entry ∧ smEntry .writeBit cv b ((BitVec.ofBool v).setWidth 8) s = .next t) ∨
      (s.host.phase ≠ .entry ∧ writeSteps s = .next t)) := by
  obtain ⟨hf, h⟩ := unlessFaulted_next h
  split at h
  · exact ⟨hf, .inl ⟨‹_›, h⟩⟩
  · exact ⟨hf, .inr ⟨by assumption, h⟩⟩

theorem execIllegal_next {w : CommandWord} (h : execIllegal w s = .next t) :
    s.faulted = none ∧ t = { s with faulted := some .illegalCommand } := by
  obtain ⟨hf, h⟩ := unlessFaulted_next h
  rw [raiseFault_eq hf] at h
  exact ⟨hf, (next_inj.1 h).symm⟩

/-! ### The interrupt service routines -/

theorem execIrqFull_next {g : Gen} (h : execIrqFull g s = .next t) :
    s.faulted = none ∧ (s.gen g).full.deliverable = true ∧ ∃ s1, s1 = s.modGen g (fun G => { G with full := { G.full with latched := false, age := 0 } }) ∧
      ((getNextBit (s1.gen g) = none ∧ t = { s with faulted := some .cursorOverrun }) ∨
       ∃ b G, getNextBit (s1.gen g) = some (b, G) ∧ t = pinWrite g .high (s1.setGen g (armCell b G))) := by
  obtain ⟨hf, h⟩ := unlessFaulted_next h
  split at h
  · cases h
  · rename_i s1 hs
    obtain ⟨hd, rfl⟩ := takeInterrupt_some.1 hs
    refine ⟨hf, hd, _, rfl, ?_⟩
    split at h
    · rw [raiseFault_eq hf] at h
      exact .inl ⟨‹_›, (next_inj.1 h).symm⟩
    · exact .inr ⟨_, _, ‹_›, (next_inj.1 h).symm⟩

theorem execIrqPulse_next {g : Gen} (h : execIrqPulse g s = .next t) :
    s.faulted = none ∧ (s.gen g).pulse.deliverable = true ∧
      t = pinWrite g .low (s.modGen g (fun G => { G with pulse := { G.pulse with latched := false, age := 0 } })) := by
  obtain ⟨hf, h⟩ := unlessFaulted_next h
  split at h
  · cases h
  · rename_i s1 hs
    obtain ⟨hd, rfl⟩ := takeInterrupt_some.1 hs
    exact ⟨hf, hd, (next_inj.1 h).symm⟩

end Sys2Proof.Machine
end

