-- ==== Sys2Proof/Laws/Codec.lean ====
section
/-! SUPPORT. The frame decoder answers only what the encoder gives back (R88, R89), the frames the block makes of its own payloads
decode (R262 to R267), and a frame row at a load's fill step is what the command whose load it is does there (R127). -/

namespace Sys2Proof.Machine

/-! ### Fields of a service-mode frame -/

theorem smByte_recover (b0 b1 : Byte) {hd : BitVec 6} (h : b0.extractLsb' 2 6 = hd) :
    smByte0 hd (smAddress b0 b1) = b0 ∧ smByte1 (smAddress b0 b1) = b1 := by
  subst h
  constructor
  · apply BitVec.eq_of_getLsbD_eq
    intro i hi
    interval_cases i <;> simp only [smByte0, smAddress, BitVec.getLsbD_append, BitVec.getLsbD_extractLsb'] <;> rfl
  · apply BitVec.eq_of_getLsbD_eq
    intro i hi
    interval_cases i <;> simp only [smByte1, smAddress, BitVec.getLsbD_append, BitVec.getLsbD_extractLsb'] <;> rfl

theorem smBit_recover (b2 : Byte) {hd : BitVec 4} (h : b2.extractLsb' 4 4 = hd) :
    smBitByte hd (b2.getLsbD 3) (b2.extractLsb' 0 3) = b2 := by
  subst h
  apply BitVec.eq_of_getLsbD_eq
  intro i hi
  interval_cases i <;> simp only [smBitByte, BitVec.getLsbD_append, BitVec.getLsbD_extractLsb', BitVec.getLsbD_ofBool] <;> rfl

/-- A frame decodes only to the instruction whose bytes it is. -/
theorem decodeFrame_sound {b : List Byte} {i : Instr} (h : decodeFrame b = .ok i) : encode i = .frame b := by
  unfold decodeFrame at h
  split at h
  · split_ifs at h with h1 h2
    · obtain ⟨rfl, rfl, rfl⟩ := h1
      injection h with h; subst h; rfl
    · obtain ⟨rfl, rfl, rfl⟩ := h2
      injection h with h; subst h; rfl
  · rename_i b0 b1 b2 x
    split_ifs at h with h1 h2 h3
    · injection h with h; subst h
      obtain ⟨e1, e2⟩ := smByte_recover b0 b1 h1
      exact congrArg Code.frame (congrArg₂ (fun p q => [p, q, b2, x]) e1 e2)
    · injection h with h; subst h
      obtain ⟨e1, e2⟩ := smByte_recover b0 b1 h2
      exact congrArg Code.frame (congrArg₂ (fun p q => [p, q, b2, x]) e1 e2)
    · obtain ⟨e1, e2⟩ := smByte_recover b0 b1 h3
      unfold decodeBitFrame at h
      split_ifs at h with h4 h5
      · injection h with h; subst h
        exact (congrArg Code.frame (congrArg₂ (fun p q => [p, q, _, x]) e1 e2)).trans
          (congrArg (fun q => Code.frame [b0, b1, q, x]) (smBit_recover _ h4))
      · injection h with h; subst h
        exact (congrArg Code.frame (congrArg₂ (fun p q => [p, q, _, x]) e1 e2)).trans
          (congrArg (fun q => Code.frame [b0, b1, q, x]) (smBit_recover _ h5))
  · cases h

/-! ### The block's own payloads give frames of the table -/

theorem addrHigh_header (c : BitVec 16) {h : Byte} (_ : h.extractLsb' 0 2 = 0) :
    (h ||| addrHigh c).extractLsb' 2 6 = h.extractLsb' 2 6 := by
  apply BitVec.eq_of_getLsbD_eq
  intro i hi
  interval_cases i <;> simp [addrHigh]

theorem bitOperand_header (base : Byte) (v : Bool) (b : BitVec 3) : (bitOperand base v b).extractLsb' 4 4 = base.extractLsb' 4 4 := by
  apply BitVec.eq_of_getLsbD_eq
  intro i hi
  interval_cases i <;> simp [bitOperand]

theorem decodeFrame_service {b0 b1 b2 x : Byte} (h : b0.extractLsb' 2 6 = 0b011101#6 ∨ b0.extractLsb' 2 6 = 0b011111#6 ∨
    (b0.extractLsb' 2 6 = 0b011110#6 ∧ (b2.extractLsb' 4 4 = 0b1110#4 ∨ b2.extractLsb' 4 4 = 0b1111#4))) :
    ∃ i, decodeFrame [b0, b1, b2, x] = .ok i := by
  rcases h with h | h | ⟨h, h2 | h2⟩ <;> simp [decodeFrame, h, decodeBitFrame] <;> simp_all

theorem verifyByte_decodes (c : BitVec 16) (d : Byte) : ∃ i, decodeFrame (frameOf (verifyByte c d)) = .ok i :=
  decodeFrame_service (.inl (addrHigh_header c (by decide)))

theorem writeByte_decodes (c : BitVec 16) (d : Byte) : ∃ i, decodeFrame (frameOf (writeByte c d)) = .ok i :=
  decodeFrame_service (.inr (.inl (addrHigh_header c (by decide))))

theorem verifyBit_decodes (c : BitVec 16) (v : Bool) (b : BitVec 3) : ∃ i, decodeFrame (frameOf (verifyBit c v b)) = .ok i :=
  decodeFrame_service (.inr (.inr ⟨addrHigh_header c (by decide), .inl (bitOperand_header 0xE0 v b)⟩))

theorem writeBit_decodes (c : BitVec 16) (v : Bool) (b : BitVec 3) : ∃ i, decodeFrame (frameOf (writeBit c v b)) = .ok i :=
  decodeFrame_service (.inr (.inr ⟨addrHigh_header c (by decide), .inr (bitOperand_header 0xF0 v b)⟩))

theorem frameOf_reset : frameOf resetPayload = resetFrame := by decide
theorem frameOf_idle : frameOf idlePayload = idleFrame := by decide

/-- Whatever the engine loads next is a legal payload whose frame is a row of the table (R92, R263 to R267). -/
theorem smLoad_legal (m : SmState) :
    lenLegal (smLoad m).1.length = true ∧ ∃ i, decodeFrame (frameOf (smLoad m).1) = .ok i := by
  have hr : ∃ i, decodeFrame (frameOf resetPayload) = .ok i := ⟨.dccReset, by decide⟩
  have hf : lenLegal (smFrame m).1.length = true ∧ ∃ i, decodeFrame (frameOf (smFrame m).1) = .ok i := by
    unfold smFrame
    split
    · split
      · exact ⟨rfl, verifyByte_decodes _ _⟩
      · exact ⟨rfl, writeByte_decodes _ _⟩
    · split
      · exact ⟨rfl, verifyBit_decodes _ _ _⟩
      · exact ⟨rfl, writeBit_decodes _ _ _⟩
    · split
      · exact ⟨rfl, verifyBit_decodes _ _ _⟩
      · exact ⟨rfl, verifyByte_decodes _ _⟩
    · split
      · exact ⟨rfl, verifyBit_decodes _ _ _⟩
      · exact ⟨rfl, verifyByte_decodes _ _⟩
  unfold smLoad
  split
  · exact hf
  · exact ⟨rfl, hr⟩
  · exact ⟨rfl, hr⟩

/-! ### Words and frames as what the host runs -/

/-- A command word decodes to a host command or to ILLEGAL, never to an interrupt or a frame (R82). -/
theorem decodeWord_host (w : CommandWord) : (∀ g, decodeWord w ≠ .irqFull g) ∧ (∀ g, decodeWord w ≠ .irqPulse g) ∧
    (∀ b, encode (decodeWord w) ≠ .frame b) := by
  unfold decodeWord decodeCommand
  split_ifs <;> simp [encode]

/-- The meaning of a frame row is the fill of its own bytes. -/
theorem exec_frame {i : Instr} {b : List Byte} (h : encode i = .frame b) (s : State) : exec i s = execFrame b s := by
  cases i <;> simp only [encode, Code.frame.injEq, reduceCtorEq] at h <;> subst h <;> rfl

/-- A command at the fill step of its load does what a frame row of the frame in its load register does. -/
theorem exec_fill_eq_frame {s : State} {i : Instr} (hpos : commandPosition s i = true) {site : LoadSite}
    (hph : s.host.phase = .load site .fill) : exec i s = execFrame s.host.load.frame s := by
  have e : execFrame s.host.load.frame s = unlessFaulted s (fillHeld s.host.load.frame site s) := by
    unfold execFrame; rw [hph]
  rw [e]
  cases i <;> simp only [commandPosition, hph] at hpos <;> try cases hpos
  all_goals cases site <;> simp [startPhase, smPositions] at hpos
  all_goals simp only [exec, execConfigure, execStart, execLoadPacket, execReadCv, execWriteProgCvByte, execWriteProgCvBit, startSteps,
    smSteps, writeSteps, loadStage, hph]

end Sys2Proof.Machine
end

