-- ==== Sys2Proof/Laws/Cursor.lean ====
section
/-! SUPPORT. What the three steps of `GetNextBit` can do (R211 to R213), and that together they keep the pool and the packets, said once for
every later proof. -/

namespace Sys2Proof.Machine

/-! ### The packet under the cursor -/

theorem currentPacket_slot {G : GenState} {i : Nat} (h : G.current = .slot i) : G.currentPacket = G.slots.read i := by
  simp [GenState.currentPacket, h, Current.ref, GenState.packet]

theorem currentPacket_idle {G : GenState} (h : G.current = .idlePkt) : G.currentPacket = some G.idle := by
  simp [GenState.currentPacket, h, Current.ref, GenState.packet]

theorem currentPacket_none {G : GenState} (h : G.current = .none) : G.currentPacket = none := by
  simp [GenState.currentPacket, h, Current.ref]

theorem setCurrentPacket_slot {G : GenState} {i : Nat} (h : G.current = .slot i) (p : Packet) :
    G.setCurrentPacket p = { G with slots := G.slots.write i p } := by
  simp [GenState.setCurrentPacket, h, Current.ref, GenState.setPacket]

theorem setCurrentPacket_idle {G : GenState} (h : G.current = .idlePkt) (p : Packet) :
    G.setCurrentPacket p = { G with idle := p } := by
  simp [GenState.setCurrentPacket, h, Current.ref, GenState.setPacket]

/-! ### Each step, case by case -/

/-- Step 1 in the middle of a pass, or with nothing playing, does nothing (R211). -/
theorem closePass_continue {G : GenState} (h : ∀ p, G.currentPacket = some p → p.currentBit ≠ p.numBits) : closePass G = G := by
  unfold closePass
  split
  · rfl
  · rename_i p hp
    rw [if_neg (h p hp)]

/-- Step 1 at the end of a pass with repeats left: one fewer, and the cursor back at 0 (R211). -/
theorem closePass_repeat {G : GenState} {p : Packet} (h : G.currentPacket = some p) (he : p.currentBit = p.numBits)
    (hr : 0 < p.repeats) : closePass G = G.setCurrentPacket { p with repeats := p.repeats - 1, currentBit := 0 } := by
  simp only [closePass, h]
  rw [if_pos he, if_pos hr]

/-- Step 1 at the end of the last pass: the packet is released (R158, R211). -/
theorem closePass_release {G : GenState} {p : Packet} (h : G.currentPacket = some p) (he : p.currentBit = p.numBits)
    (hr : p.repeats = 0) : closePass G = G.release := by
  simp only [closePass, h]
  rw [if_pos he, if_neg (by simp [hr])]

theorem release_slot {G : GenState} {i : Nat} (h : G.current = .slot i) :
    G.release = { G with free := fifoPush G.free i, current := .none } := by
  simp [GenState.release, h]

theorem release_idle {G : GenState} (h : G.current = .idlePkt) : G.release = { G with current := .none } := by
  simp [GenState.release, h]

/-- Step 2 with a packet playing does nothing (R212). -/
theorem selectPacket_playing {G : GenState} (h : G.current ≠ .none) : selectPacket G = G := by
  unfold selectPacket
  split
  · exact absurd ‹_› h
  · rfl

/-- Step 2 takes the head of `pending` (R157, R212). -/
theorem selectPacket_dequeue {G : GenState} {i : Nat} {rest : List Nat} (h : G.current = .none) (hp : G.pending = i :: rest) :
    selectPacket G = { G with current := .slot i, pending := rest } := by
  simp [selectPacket, h, hp, fifoPop]

/-- Step 2 with nothing pending restarts the idle singleton (R212). -/
theorem selectPacket_idle {G : GenState} (h : G.current = .none) (hp : G.pending = []) :
    selectPacket G = { G with current := .idlePkt, idle := { G.idle with currentBit := 0 } } := by
  simp [selectPacket, h, hp, fifoPop]

/-- Step 3 with the cursor inside the packet (R213). -/
theorem extractBit_some {G : GenState} {p : Packet} (h : G.currentPacket = some p) (hc : p.currentBit < p.numBits)
    (hn : p.numBits.toNat ≤ 80) :
    extractBit G = some (bufBit p.buffer p.currentBit.toNat, G.setCurrentPacket { p with currentBit := p.currentBit + 1 }) := by
  have : p.currentBit.toNat < 80 := by
    have := BitVec.lt_def.1 hc
    omega
  simp only [extractBit, h]
  rw [if_pos ⟨hc, this⟩]

/-! ### Fields the cursor never writes -/

/-- `GetNextBit` leaves the mode, the pool's size, the held slot, the timers and the pin as they are. -/
structure CursorFrame (G G' : GenState) : Prop where
  mode : G'.mode = G.mode
  dirPin : G'.dirPin = G.dirPin
  poolSize : G'.poolSize = G.poolSize
  filling : G'.filling = G.filling
  full : G'.full = G.full
  pulse : G'.pulse = G.pulse
  pinMode : G'.pinMode = G.pinMode
  pinLevel : G'.pinLevel = G.pinLevel

theorem CursorFrame.refl (G : GenState) : CursorFrame G G := ⟨rfl, rfl, rfl, rfl, rfl, rfl, rfl, rfl⟩

theorem CursorFrame.trans {G H K : GenState} (h : CursorFrame G H) (k : CursorFrame H K) : CursorFrame G K :=
  ⟨k.1.trans h.1, k.2.trans h.2, k.3.trans h.3, k.4.trans h.4, k.5.trans h.5, k.6.trans h.6, k.7.trans h.7, k.8.trans h.8⟩

theorem setCurrentPacket_frame (G : GenState) (p : Packet) : CursorFrame G (G.setCurrentPacket p) := by
  unfold GenState.setCurrentPacket
  split
  · rename_i r _
    cases r <;> exact ⟨rfl, rfl, rfl, rfl, rfl, rfl, rfl, rfl⟩
  · exact CursorFrame.refl G

theorem closePass_frame (G : GenState) : CursorFrame G (closePass G) := by
  unfold closePass
  split
  · exact CursorFrame.refl G
  · split
    · split
      · exact setCurrentPacket_frame _ _
      · unfold GenState.release
        split <;> exact ⟨rfl, rfl, rfl, rfl, rfl, rfl, rfl, rfl⟩
    · exact CursorFrame.refl G

theorem selectPacket_frame (G : GenState) : CursorFrame G (selectPacket G) := by
  unfold selectPacket
  split
  · split <;> exact ⟨rfl, rfl, rfl, rfl, rfl, rfl, rfl, rfl⟩
  · exact CursorFrame.refl G

theorem extractBit_frame {G G' : GenState} {b : Bool} (h : extractBit G = some (b, G')) : CursorFrame G G' := by
  unfold extractBit at h
  split at h
  · cases h
  · split at h
    · obtain ⟨-, rfl⟩ := Prod.mk.inj (Option.some.inj h)
      exact setCurrentPacket_frame _ _
    · cases h

theorem getNextBit_frame {G G' : GenState} {b : Bool} (h : getNextBit G = some (b, G')) : CursorFrame G G' :=
  ((closePass_frame G).trans (selectPacket_frame _)).trans (extractBit_frame h)

/-! ### The cursor does not read the full-cycle timer -/

/-- The generator with its full-cycle timer replaced. -/
def GenState.withFull (G : GenState) (x : Timer) : GenState := { G with full := x }

theorem packet_withFull (G : GenState) (x : Timer) : (G.withFull x).packet = G.packet := by
  funext r; cases r <;> rfl

theorem currentPacket_withFull (G : GenState) (x : Timer) : (G.withFull x).currentPacket = G.currentPacket := by
  show G.current.ref.bind (G.withFull x).packet = _
  rw [packet_withFull]; rfl

theorem setCurrentPacket_withFull (G : GenState) (x : Timer) (p : Packet) :
    (G.withFull x).setCurrentPacket p = (G.setCurrentPacket p).withFull x := by
  obtain ⟨_, _, _, _, _, _, _, _, cur, _, _, _, _⟩ := G
  cases cur <;> rfl

theorem release_withFull (G : GenState) (x : Timer) : (G.withFull x).release = G.release.withFull x := by
  obtain ⟨_, _, _, _, _, _, _, _, cur, _, _, _, _⟩ := G
  cases cur <;> rfl

theorem closePass_withFull (G : GenState) (x : Timer) : closePass (G.withFull x) = (closePass G).withFull x := by
  unfold closePass
  rw [currentPacket_withFull]
  split
  · rfl
  · split
    · split
      · exact setCurrentPacket_withFull _ _ _
      · exact release_withFull _ _
    · rfl

theorem selectPacket_withFull (G : GenState) (x : Timer) : selectPacket (G.withFull x) = (selectPacket G).withFull x := by
  obtain ⟨_, _, _, _, _, pending, _, _, cur, _, _, _, _⟩ := G
  cases cur <;> cases pending <;> rfl

/-- `GetNextBit` neither reads nor writes the full-cycle timer. -/
theorem getNextBit_withFull (G : GenState) (x : Timer) :
    getNextBit (G.withFull x) = (getNextBit G).map fun r => (r.1, r.2.withFull x) := by
  unfold getNextBit
  rw [closePass_withFull, selectPacket_withFull]
  generalize selectPacket (closePass G) = H
  unfold extractBit
  rw [currentPacket_withFull]
  split
  · rfl
  · split
    · simp [setCurrentPacket_withFull]
    · rfl

/-! ### Stored bits the cursor never writes -/

/-- The buffer and the length of the packet at a place. -/
def GenState.stored (G : GenState) (r : PacketRef) : Option (Buffer × BitVec 8) := (G.packet r).map fun p => (p.buffer, p.numBits)

theorem setCurrentPacket_stored {G : GenState} {p q : Packet} (h : G.currentPacket = some p) (hb : q.buffer = p.buffer)
    (hn : q.numBits = p.numBits) (r : PacketRef) : (G.setCurrentPacket q).stored r = G.stored r := by
  cases hc : G.current with
  | none => rw [currentPacket_none hc] at h; cases h
  | slot i =>
    rw [setCurrentPacket_slot hc]
    rw [currentPacket_slot hc] at h
    cases r with
    | idlePkt => rfl
    | slot j =>
      simp only [GenState.stored, GenState.packet]
      by_cases e : j = i
      · subst e; rw [Memory.read_write_same h, h, Option.map_some, Option.map_some, hb, hn]
      · rw [Memory.read_write_ne _ e]
  | idlePkt =>
    rw [setCurrentPacket_idle hc]
    rw [currentPacket_idle hc] at h
    obtain rfl := Option.some.inj h
    cases r with
    | idlePkt => simp only [GenState.stored, GenState.packet, Option.map_some, hb, hn]
    | slot j => rfl

theorem closePass_stored (G : GenState) (r : PacketRef) : (closePass G).stored r = G.stored r := by
  unfold closePass
  split
  · rfl
  · rename_i p hp
    split
    · split
      · exact setCurrentPacket_stored hp (by rfl) (by rfl) r
      · unfold GenState.release
        split <;> cases r <;> rfl
    · rfl

theorem selectPacket_stored (G : GenState) (r : PacketRef) : (selectPacket G).stored r = G.stored r := by
  unfold selectPacket
  split
  · split <;> cases r <;> rfl
  · rfl

/-- `GetNextBit` writes no stored bit of any packet and no packet's length (R23, R213). -/
theorem getNextBit_stored {G G' : GenState} {b : Bool} (h : getNextBit G = some (b, G')) (r : PacketRef) :
    G'.stored r = G.stored r := by
  have e : G'.stored r = (selectPacket (closePass G)).stored r := by
    unfold getNextBit extractBit at h
    split at h
    · cases h
    · rename_i p hp
      split at h
      · obtain ⟨-, rfl⟩ := Prod.mk.inj (Option.some.inj h)
        exact setCurrentPacket_stored hp (by rfl) (by rfl) r
      · cases h
  rw [e, selectPacket_stored, closePass_stored]

/-- Two states that store the same bits at a place read the same there. -/
theorem readBit_congr {s t : State} {g : Gen} {r : PacketRef} (h : (t.gen g).stored r = (s.gen g).stored r) (k : Nat) :
    t.readBit g r k = s.readBit g r k := by
  have := congrArg (Option.map fun x : Buffer × BitVec 8 => bufBit x.1 k) h
  simpa [State.readBit, GenState.stored, Option.map_map, Function.comp_def] using this

end Sys2Proof.Machine
end

