-- ==== Sys2Proof/Laws/Exec.lean ====
section
/-! SUPPORT. Everything one step of an instruction can do to the state, said once: `exec_next` answers which of twelve updates it made, with
the instructions and host positions that can make it. Frame and mode statements follow by cases on it. -/

namespace Sys2Proof.Machine

/-- The service-mode commands. -/
def isService (i : Instr) : Prop :=
  (∃ cv, i = .readCv cv) ∨ (∃ cv v, i = .writeProgCvByte cv v) ∨ ∃ cv b v, i = .writeProgCvBit cv b v

/-- START of `g`, or CONFIGURE of `g`, which continues with START's steps. -/
def isBoot (i : Instr) (g : Gen) : Prop := i = .start g ∨ ∃ pin pool, i = .configure g pin pool

/-- The instruction can be at a stage of a load of this site. -/
def loadsAt (i : Instr) : LoadSite → Prop
  | .caller => ∃ g len rep p0 p1 p2 p3 p4, i = .loadPacket g len rep p0 p1 p2 p3 p4
  | .bootReset => ∃ g, isBoot i g
  | .bootIdle => ∃ g, isBoot i g
  | .engine => isService i

/-- The instruction is a host command or ILLEGAL. -/
def isCommand : Instr → Prop
  | .irqFull _ | .irqPulse _ | .dccReset | .dccIdle | .smVerifyByte _ _ _ | .smWriteByte _ _ _ | .smVerifyBit _ _ _ _
  | .smWriteBit _ _ _ _ => False
  | _ => True

/-- Which instruction can raise which fault (R321). -/
def raises (i : Instr) : FaultReason → Prop
  | .illegalCommand => ∃ w, i = .illegal w
  | .contractViolation => isCommand i ∧ ∀ w, i ≠ .illegal w
  | .cursorOverrun => ∃ g, i = .irqFull g

/-- What one step of an instruction can do. -/
inductive StepForm (i : Instr) (s : State) : State → Prop where
  /-- a fault is raised and nothing else changes -/
  | fault (r : FaultReason) (cause : raises i r) : StepForm i s { s with faulted := some r }
  /-- only the host interface changes -/
  | host (h : HostState) (command : isCommand i) : StepForm i s { s with host := h }
  /-- only the host interface and the engine change, or a sample is drawn -/
  | engine (h : HostState) (m : SmState) (l : List (BitVec 12)) (d : Nat) (service : isService i) :
      StepForm i s { s with host := h, sm := m, inputs := { s.inputs with adc := l, draws := d } }
  /-- the head of `free` is held -/
  | acquire (site : LoadSite) (j : Nat) (rest : List Nat) (loads : loadsAt i site) (position : s.host.phase = .load site .acquire)
      (head : (s.gen s.host.load.gen).free = j :: rest) : StepForm i s (acquired site j rest s)
  /-- a frame is laid out in the held slot -/
  | fill (site : LoadSite) (frame : List Byte) (j : Nat) (p : Packet)
      (loads : loadsAt i site ∧ frame = s.host.load.frame ∨ encode i = .frame frame) (position : s.host.phase = .load site .fill)
      (held : (s.gen s.host.load.gen).filling = some j) (old : (s.gen s.host.load.gen).slots.read j = some p) :
      StepForm i s (filled frame site j p s)
  /-- the held slot is published, and the host goes on -/
  | publish (site : LoadSite) (j : Nat) (h : HostState) (m : SmState) (loads : loadsAt i site) (position : s.host.phase = .load site .publish)
      (held : (s.gen s.host.load.gen).filling = some j) (engine : site ≠ .engine → m = s.sm) :
      StepForm i s { published j s with host := h, sm := m }
  /-- START's arming step; a failed setup draw leaves the timers -/
  | arm (g : Gen) (l : List Bool) (d : Nat) (ok : Bool) (h : HostState) (boot : isBoot i g) (position : s.host.phase = .arm) :
      StepForm i s { (if ok then s.modGen g (armTimers g) else s) with host := h, inputs := { s.inputs with timerOk := l, draws := d } }
  /-- CONFIGURE creates the pool and, on a true setup draw, drives the pin -/
  | configure (g : Gen) (pin : BitVec 8) (pool : BitVec 16) (l : List Bool) (d : Nat) (ok : Bool) (h : HostState)
      (command : i = .configure g pin pool) (position : s.host.phase = .entry) (mode : (s.gen g).mode = .unconfigured)
      (size : 2 ≤ pool.toNat) :
      StepForm i s { (if ok then (pinWrite g .low (s.modGen g (createPool pin pool.toNat))).modGen g
            (fun G => { G with pinMode := .output, mode := .idle })
          else (s.modGen g (createPool pin pool.toNat)).modGen g (fun G => { G with mode := .idle })) with
        host := h, inputs := { s.inputs with gpioOk := l, draws := d } }
  /-- STOP's first step -/
  | stop (g : Gen) (command : i = .stop g) (position : s.host.phase = .entry) (mode : (s.gen g).mode ≠ .unconfigured) :
      StepForm i s (stopped g s)
  /-- STOP's drain -/
  | drain (g : Gen) (command : i = .stop g) (position : s.host.phase = .drain) :
      StepForm i s (respond .ok 0 (s.modGen g drainGen))
  /-- the full-cycle ISR -/
  | full (g : Gen) (b : Bool) (G : GenState) (command : i = .irqFull g) (due : (s.gen g).full.deliverable = true)
      (bit : getNextBit { s.gen g with full := { (s.gen g).full with latched := false, age := 0 } } = some (b, G)) :
      StepForm i s (pinWrite g .high (s.setGen g (armCell b G)))
  /-- the pulse ISR -/
  | pulse (g : Gen) (command : i = .irqPulse g) (due : (s.gen g).pulse.deliverable = true) :
      StepForm i s (pinWrite g .low (s.modGen g (fun G => { G with pulse := { G.pulse with latched := false, age := 0 } })))

variable {s t : State} {i : Instr}

/-! ### Each family answers one of the forms -/

theorem service_command (h : isService i) : isCommand i ∧ ∀ w, i ≠ .illegal w := by
  obtain ⟨_, rfl⟩ | ⟨_, _, rfl⟩ | ⟨_, _, _, rfl⟩ := h <;> exact ⟨trivial, by simp⟩

theorem boot_command {g : Gen} (h : isBoot i g) : isCommand i ∧ ∀ w, i ≠ .illegal w := by
  obtain rfl | ⟨_, _, rfl⟩ := h <;> exact ⟨trivial, by simp⟩

theorem loads_command {site : LoadSite} (h : loadsAt i site) : isCommand i ∧ ∀ w, i ≠ .illegal w := by
  cases site
  · obtain ⟨_, _, _, _, _, _, _, _, rfl⟩ := h; exact ⟨trivial, by simp⟩
  · exact boot_command h.choose_spec
  · exact boot_command h.choose_spec
  · exact service_command h

/-- A stage of a load after its entry; what publication leads to is the caller's. -/
theorem loadStage_form {site : LoadSite} {after : State → Result} {stage : LoadStage} (hl : loadsAt i site)
    (hp : s.host.phase = .load site stage)
    (ha : ∀ j u, after (published j s) = .next u → ∃ h m, u = { published j s with host := h, sm := m } ∧ (site ≠ .engine → m = s.sm))
    (h : loadStage site after stage s = .next t) : StepForm i s t := by
  obtain ⟨rfl, h2⟩ | ⟨rfl, h2⟩ | ⟨rfl, h2⟩ := loadStage_next h
  · obtain ⟨j, rest, hf, rfl⟩ | ⟨-, rfl⟩ := loadAcquire_next h2
    · exact .acquire site j rest hl hp hf
    · exact .host _ (loads_command hl).1
  · obtain ⟨j, p, hj, hr, rfl⟩ := fillHeld_next.1 h2
    exact .fill site _ j p (.inl ⟨hl, rfl⟩) hp hj hr
  · obtain ⟨j, hj, h3⟩ := loadPublish_next.1 h2
    obtain ⟨h', m, rfl, hm⟩ := ha _ _ h3
    exact .publish site j h' m hl hp hj hm

theorem loadEntry_form {g : Gen} {n : Nat} {p : List Byte} {r : BitVec 8} {site : LoadSite} (hf : s.faulted = none) (hl : loadsAt i site)
    (h : loadEntry g n p r site s = .next t) : StepForm i s t := by
  obtain ⟨-, rfl⟩ | ⟨-, -, rfl⟩ | ⟨-, -, rfl⟩ := loadEntry_next h
  · rw [hf]; exact .fault _ (loads_command hl)
  · exact .host _ (loads_command hl).1
  · exact .host _ (loads_command hl).1

theorem startEntry_form {g : Gen} (hf : s.faulted = none) (hb : isBoot i g) (h : startEntry g s = .next t) : StepForm i s t := by
  obtain ⟨-, rfl⟩ | ⟨-, rfl⟩ := startEntry_next h
  · rw [hf]; exact .fault _ (boot_command hb)
  · exact .host _ (boot_command hb).1

theorem startSteps_form {g : Gen} (hf : s.faulted = none) (hb : isBoot i g) (h : startSteps g s = .next t) : StepForm i s t := by
  obtain ⟨-, h⟩ | ⟨-, h⟩ | ⟨st, hp, -, h⟩ | ⟨-, h⟩ | ⟨st, hp, -, h⟩ | ⟨hp, h⟩ := startSteps_next h
  · exact startEntry_form hf hb h
  · exact loadEntry_form hf (site := .bootReset) ⟨g, hb⟩ h
  · refine loadStage_form (site := .bootReset) ⟨g, hb⟩ hp (fun j u hu => ?_) h
    obtain rfl := next_inj.1 hu
    exact ⟨_, s.sm, by cases hs : s.host.load.gen <;> simp only [published, hs] <;> rfl, fun _ => rfl⟩
  · exact loadEntry_form hf (site := .bootIdle) ⟨g, hb⟩ h
  · refine loadStage_form (site := .bootIdle) ⟨g, hb⟩ hp (fun j u hu => ?_) h
    obtain rfl := next_inj.1 hu
    exact ⟨_, s.sm, by cases hs : s.host.load.gen <;> simp only [published, hs] <;> rfl, fun _ => rfl⟩
  · obtain ⟨-, rfl⟩ | ⟨-, rfl⟩ := startArm_next h
    · obtain ⟨l, d, e⟩ := drawTimerOk_snd s
      rw [e]
      have := StepForm.arm (s := s) g l d true
        { s.host with cmd := none, phase := .entry, wakeAt := 0, resp := some (responseWord .ok 0) } hb hp
      cases g <;> exact this
    · obtain ⟨l, d, e⟩ := drawTimerOk_snd s
      rw [e]
      exact StepForm.arm (s := s) g l d false
        { s.host with cmd := none, phase := .entry, wakeAt := 0, resp := some (responseWord .hardwareSetupFailure 0) } hb hp

theorem configureEntry_form {g : Gen} {pin : BitVec 8} {pool : BitVec 16} (hf : s.faulted = none) (hp : s.host.phase = .entry)
    (h : configureEntry g pin pool s = .next t) : StepForm (.configure g pin pool) s t := by
  obtain ⟨-, rfl⟩ | ⟨hm, hs, ⟨-, rfl⟩ | ⟨-, rfl⟩⟩ := configureEntry_next h
  · rw [hf]; exact .fault _ ⟨trivial, by simp⟩
  · obtain ⟨l, d, e⟩ := drawGpioOk_snd (s.modGen g (createPool pin pool.toNat))
    rw [e]
    have := StepForm.configure (i := .configure g pin pool) (s := s) g pin pool l d true { s.host with phase := .startEntry } rfl hp hm hs
    cases g <;> exact this
  · obtain ⟨l, d, e⟩ := drawGpioOk_snd (s.modGen g (createPool pin pool.toNat))
    rw [e]
    have := StepForm.configure (i := .configure g pin pool) (s := s) g pin pool l d false
      { s.host with cmd := none, phase := .entry, wakeAt := 0, resp := some (responseWord .hardwareSetupFailure 0) } rfl hp hm hs
    cases g <;> exact this

/-- A step that changes the host interface and the engine alone. -/
theorem engine_form (hs : isService i) (h : HostState) (m : SmState) : StepForm i s { s with host := h, sm := m } :=
  .engine h m s.inputs.adc s.inputs.draws hs

theorem smEntry_form {op : SmOp} {cv : BitVec 11} {b : BitVec 3} {v : BitVec 8} (hf : s.faulted = none) (hs : isService i)
    (h : smEntry op cv b v s = .next t) : StepForm i s t := by
  obtain rfl | ⟨-, -, -, rfl⟩ := smEntry_next h
  · rw [hf]; exact .fault _ (service_command hs)
  · exact engine_form hs _ _

theorem smSteps_form {decide : Bool → State → Result} (hf : s.faulted = none) (hs : isService i)
    (hd : ∀ a u, decide a s = .next u → ∃ h m, u = { s with host := h, sm := m })
    (h : smSteps decide s = .next t) : StepForm i s t := by
  obtain ⟨-, h⟩ | ⟨st, hp, -, h⟩ | ⟨-, h⟩ | ⟨-, h⟩ := smSteps_next h
  · obtain ⟨-, rfl⟩ | ⟨-, rfl⟩ := smLoadEntry_next h
    · rw [hf]; exact .fault _ (service_command hs)
    · exact engine_form hs _ _
  · refine loadStage_form (site := .engine) hs hp (fun j u hu => ?_) h
    obtain ⟨-, rfl⟩ | ⟨-, rfl⟩ | ⟨-, -, rfl⟩ | ⟨-, -, rfl⟩ := smAfterLoad_next hu
    all_goals exact ⟨_, _, rfl, fun hne => absurd rfl hne⟩
  · obtain ⟨-, rfl⟩ | ⟨-, rfl⟩ := smPoll_next h
    · exact engine_form hs _ _
    · exact .host _ (service_command hs).1
  · obtain ⟨-, rfl⟩ | ⟨-, h⟩ := smSample_next h
    · obtain ⟨l, d, e⟩ := drawAdc_snd s
      rw [e]
      exact .engine _ _ l d hs
    · obtain ⟨_, _, rfl⟩ := hd _ _ h
      exact engine_form hs _ _

theorem readDecide_form (a : Bool) (u : State) (h : readDecide a s = .next u) : ∃ h m, u = { s with host := h, sm := m } := by
  obtain ⟨-, rfl⟩ | ⟨-, h⟩ := readDecide_next h
  · exact ⟨_, _, rfl⟩
  · obtain rfl := smRespond_next.1 h; exact ⟨_, _, rfl⟩

theorem writeDecide_form (a : Bool) (u : State) (h : writeDecide a s = .next u) : ∃ h m, u = { s with host := h, sm := m } := by
  obtain ⟨-, -, h⟩ | ⟨-, -, rfl⟩ | ⟨-, rfl⟩ := writeDecide_next h
  · obtain rfl := smRespond_next.1 h; exact ⟨_, _, rfl⟩
  · exact ⟨_, _, rfl⟩
  · exact ⟨_, _, rfl⟩

theorem writeSteps_form (hf : s.faulted = none) (hs : isService i) (h : writeSteps s = .next t) : StepForm i s t := by
  obtain ⟨-, h⟩ | ⟨-, h⟩ := writeSteps_next h
  · obtain rfl := smRespond_next.1 h; exact engine_form hs _ _
  · exact smSteps_form hf hs writeDecide_form h

/-- What a step of an instruction that answers a next state did. -/
theorem exec_next (h : exec i s = .next t) : s.faulted = none ∧ StepForm i s t := by
  cases i with
  | configure g pin pool =>
    obtain ⟨hf, ⟨hp, h⟩ | ⟨-, h⟩⟩ := execConfigure_next h
    · exact ⟨hf, configureEntry_form hf hp h⟩
    · exact ⟨hf, startSteps_form hf (.inr ⟨_, _, rfl⟩) h⟩
  | start g =>
    obtain ⟨hf, ⟨-, h⟩ | ⟨-, -, h⟩⟩ := execStart_next h
    · exact ⟨hf, startEntry_form hf (.inl rfl) h⟩
    · exact ⟨hf, startSteps_form hf (.inl rfl) h⟩
  | stop g =>
    obtain ⟨hf, ⟨-, -, rfl⟩ | ⟨hp, hm, rfl⟩ | ⟨hp, rfl⟩⟩ := execStop_next h
    · exact ⟨hf, .fault _ ⟨trivial, by simp⟩⟩
    · exact ⟨hf, .stop g rfl hp hm⟩
    · exact ⟨hf, .drain g rfl hp⟩
  | loadPacket g len rep p0 p1 p2 p3 p4 =>
    have hl : loadsAt (.loadPacket g len rep p0 p1 p2 p3 p4) .caller := ⟨_, _, _, _, _, _, _, _, rfl⟩
    obtain ⟨hf, ⟨-, h⟩ | ⟨st, hp, h⟩⟩ := execLoadPacket_next h
    · exact ⟨hf, loadEntry_form hf hl h⟩
    · refine ⟨hf, loadStage_form hl hp (fun j u hu => ?_) h⟩
      obtain rfl := next_inj.1 hu
      exact ⟨_, s.sm, by cases hs : s.host.load.gen <;> simp only [published, hs] <;> rfl, fun _ => rfl⟩
  | isEmpty g =>
    obtain ⟨hf, -, ⟨-, rfl⟩ | ⟨-, rfl⟩⟩ := execIsEmpty_next h
    · exact ⟨hf, .fault _ ⟨trivial, by simp⟩⟩
    · exact ⟨hf, .host _ trivial⟩
  | waitEmpty g =>
    obtain ⟨hf, ⟨-, -, rfl⟩ | ⟨-, ⟨-, rfl⟩ | ⟨-, rfl⟩⟩⟩ := execWaitEmpty_next h
    · exact ⟨hf, .fault _ ⟨trivial, by simp⟩⟩
    · exact ⟨hf, .host _ trivial⟩
    · exact ⟨hf, .host _ trivial⟩
  | readCv cv =>
    have hs : isService (.readCv cv) := .inl ⟨_, rfl⟩
    obtain ⟨hf, ⟨-, h⟩ | ⟨-, h⟩⟩ := execReadCv_next h
    · exact ⟨hf, smEntry_form hf hs h⟩
    · exact ⟨hf, smSteps_form hf hs readDecide_form h⟩
  | writeProgCvByte cv v =>
    have hs : isService (.writeProgCvByte cv v) := .inr (.inl ⟨_, _, rfl⟩)
    obtain ⟨hf, ⟨-, h⟩ | ⟨-, h⟩⟩ := execWriteProgCvByte_next h
    · exact ⟨hf, smEntry_form hf hs h⟩
    · exact ⟨hf, writeSteps_form hf hs h⟩
  | writeProgCvBit cv b v =>
    have hs : isService (.writeProgCvBit cv b v) := .inr (.inr ⟨_, _, _, rfl⟩)
    obtain ⟨hf, ⟨-, h⟩ | ⟨-, h⟩⟩ := execWriteProgCvBit_next h
    · exact ⟨hf, smEntry_form hf hs h⟩
    · exact ⟨hf, writeSteps_form hf hs h⟩
  | illegal w =>
    obtain ⟨hf, rfl⟩ := execIllegal_next (w := w) h
    exact ⟨hf, .fault _ ⟨w, rfl⟩⟩
  | irqFull g =>
    obtain ⟨hf, hd, s1, rfl, ⟨-, rfl⟩ | ⟨b, G, hg, rfl⟩⟩ := execIrqFull_next h
    · exact ⟨hf, .fault _ ⟨g, rfl⟩⟩
    · rw [State.gen_modGen_same] at hg
      have := StepForm.full (s := s) g b G rfl hd hg
      exact ⟨hf, by cases g <;> exact this⟩
  | irqPulse g =>
    obtain ⟨hf, hd, rfl⟩ := execIrqPulse_next h
    exact ⟨hf, .pulse g rfl hd⟩
  | dccReset | dccIdle | smVerifyByte _ _ _ | smWriteByte _ _ _ | smVerifyBit _ _ _ _ | smWriteBit _ _ _ _ =>
    rw [exec_frame rfl] at h
    obtain ⟨hf, site, hp, h⟩ := execFrame_next h
    obtain ⟨j, p, hj, hr, rfl⟩ := fillHeld_next.1 h
    exact ⟨hf, .fill site _ j p (.inr rfl) hp hj hr⟩

/-- No instruction changes the order given or the count of the host's wait: only the choice of an agent does (R191). -/
theorem exec_waits (h : exec i s = .next t) :
    t.inputs.sched = s.inputs.sched ∧ t.inputs.passed = s.inputs.passed ∧ t.inputs.waits = s.inputs.waits := by
  have hform := (exec_next h).2
  cases hform <;> simp [acquired, filled, published, stopped]

end Sys2Proof.Machine
end

