-- ==== Sys2Proof/Laws/Pool.lean ====
section
/-! SUPPORT. The pool's invariants under the cursor's steps and under the four transfers of a slot index (R155 to R158, R165). -/

namespace Sys2Proof.Machine

/-! ### Laid-out packets -/

/-- Being laid out depends on the buffer and `num_bits` alone. -/
theorem PacketLaid.congr {p q : Packet} (h : PacketLaid p) (hb : q.buffer = p.buffer) (hn : q.numBits = p.numBits) : PacketLaid q := by
  obtain ⟨pl, h1, h2, h3⟩ := h
  exact ⟨pl, h1, hn.trans h2, by rwa [hb]⟩

theorem numBits_toNat {pl : List Byte} (h : lenLegal pl.length = true) :
    (BitVec.ofNat 8 (numBitsOf (frameOf pl).length)).toNat = numBitsOf (frameOf pl).length := by
  have := numBitsOf_frameOf_le h
  rw [BitVec.toNat_ofNat, Nat.mod_eq_of_lt (by omega)]

theorem PacketLaid.numBits_range {p : Packet} (h : PacketLaid p) : 49 ≤ p.numBits.toNat ∧ p.numBits.toNat ≤ 76 := by
  obtain ⟨pl, h1, h2, -⟩ := h
  have hle := numBitsOf_frameOf_le h1
  have hge := (lenLegal_iff.1 h1).1
  rw [h2, numBits_toNat h1]
  refine ⟨?_, hle⟩
  simp only [frameOf_length, numBitsOf, Config.preambleBits]; omega

/-- The fill step lays a frame of a legal payload out, whatever the slot held (R127). -/
theorem fillPacket_laid (p : Packet) {pl : List Byte} (r : BitVec 8) (h : lenLegal pl.length = true) :
    PacketLaid (fillPacket p (frameOf pl) r) := by
  refine ⟨pl, h, rfl, fun k hk => ?_⟩
  have := (lenLegal_iff.1 h).2
  rw [bufBit_fillPacket _ _ _ (by simp; omega), if_pos hk]

theorem idlePacket_ok (p : Packet) : IdleInv (idlePacket p) := by
  have hl : (frameOf idlePayload).length = 3 := rfl
  have hf : frameOf idlePayload = idleFrame := by decide
  refine ⟨fun k hk => ?_, by simp [idlePacket, numBitsOf, hl, Config.preambleBits], rfl, by simp [idlePacket]⟩
  rw [idlePacket, bufBit_fillPacket _ _ _ (by omega), if_pos (by simp [hl, numBitsOf, Config.preambleBits]; omega), hf]

/-! ### Ownership -/

theorem GenState.owned_nodup {G : GenState} (h : PoolInv G) : G.owned.Nodup := h.owned.nodup_iff.2 List.nodup_range

theorem GenState.mem_owned_lt {G : GenState} (h : PoolInv G) {i : Nat} (hi : i ∈ G.owned) : i < G.slots.length := by
  have h1 := (h.owned.mem_iff).1 hi
  rw [Memory.wf_iff.1 h.slots]
  simpa using h1

theorem GenState.mem_owned {G : GenState} {i : Nat} :
    i ∈ G.owned ↔ i ∈ G.free ∨ i ∈ G.pending ∨ G.filling = some i ∨ G.current = .slot i := by
  simp only [GenState.owned, List.mem_append, Option.mem_toList]
  cases hc : G.current <;> simp [Current.slotIndices, eq_comm, or_assoc]

/-- A slot the ISR plays is neither pending, nor held by the host, nor free (R30). -/
theorem current_disjoint {G : GenState} (h : PoolInv G) {i : Nat} (hc : G.current = .slot i) :
    i ∉ G.pending ∧ G.filling ≠ some i ∧ i ∉ G.free := by
  have hn := GenState.owned_nodup h
  simp only [GenState.owned, hc, Current.slotIndices] at hn
  rw [List.nodup_append] at hn
  have hd := hn.2.2
  refine ⟨fun hi => hd i (by simp [hi]) i (by simp) rfl, fun hi => hd i (by simp [hi]) i (by simp) rfl,
    fun hi => hd i (by simp [hi]) i (by simp) rfl⟩

/-- A slot the host holds is neither pending nor free (R30). -/
theorem filling_disjoint {G : GenState} (h : PoolInv G) {i : Nat} (hf : G.filling = some i) :
    i ∉ G.pending ∧ G.current ≠ .slot i ∧ i ∉ G.free := by
  refine ⟨fun hi => ?_, fun hc => (current_disjoint h hc).2.1 hf, fun hi => ?_⟩
  · have hn := GenState.owned_nodup h
    simp only [GenState.owned, hf] at hn
    rw [List.append_assoc, List.nodup_append] at hn
    exact hn.2.2 i (by simp [hi]) i (by simp) rfl
  · have hn := GenState.owned_nodup h
    simp only [GenState.owned, hf] at hn
    rw [List.append_assoc, List.nodup_append] at hn
    exact hn.2.2 i (by simp [hi]) i (by simp) rfl

theorem PoolInv.congr {G H : GenState} (h : PoolInv G) (ho : H.owned = G.owned) (hp : H.poolSize = G.poolSize)
    (hl : H.slots.length = G.slots.length) : PoolInv H :=
  ⟨by rw [ho, hp]; exact h.owned, by rw [Memory.wf_iff, hl, hp]; exact Memory.wf_iff.1 h.slots⟩

/-- Moving one index from one holder to another keeps the pool (R165). -/
theorem PoolInv.perm {G H : GenState} (h : PoolInv G) (ho : H.owned.Perm G.owned) (hp : H.poolSize = G.poolSize)
    (hl : H.slots.length = G.slots.length) : PoolInv H :=
  ⟨by rw [hp]; exact ho.trans h.owned, by rw [Memory.wf_iff, hl, hp]; exact Memory.wf_iff.1 h.slots⟩

/-! ### The cursor keeps the pool and the packets -/

/-- What a step of the cursor keeps: the invariants of the generator, and every slot but the one it plays. -/
structure GenOk (G : GenState) : Prop where
  pool : PoolInv G
  packets : PacketsInv G

theorem closePass_ok {G : GenState} (h : GenOk G) (hm : G.mode ≠ .unconfigured) :
    GenOk (closePass G) ∧ (∀ p, (closePass G).currentPacket = some p → p.currentBit < p.numBits ∧ p.numBits.toNat ≤ 80) ∧
      (∀ j, G.current ≠ .slot j → (closePass G).slots.read j = G.slots.read j) := by
  obtain ⟨hpool, hpk⟩ := h
  cases hc : G.current with
  | none =>
    have : closePass G = G := closePass_continue (by simp [currentPacket_none hc])
    rw [this]
    exact ⟨⟨hpool, hpk⟩, by simp [currentPacket_none hc], fun _ _ => rfl⟩
  | slot i =>
    obtain ⟨p, hr, hl, hle⟩ := hpk.current i hc
    have hcp : G.currentPacket = some p := by rw [currentPacket_slot hc, hr]
    have hrange := hl.numBits_range
    by_cases he : p.currentBit = p.numBits
    · by_cases hrep : p.repeats = 0
      · rw [closePass_release hcp he hrep, release_slot hc]
        refine ⟨⟨hpool.perm ?_ rfl rfl, ⟨hpk.pending, by simp, hpk.idle, by simp⟩⟩, ?_, fun _ _ => rfl⟩
        · simp only [GenState.owned, hc, Current.slotIndices, fifoPush, List.append_nil]
          rw [List.append_assoc, List.append_assoc, List.append_assoc, List.append_assoc]
          refine List.Perm.append_left _ ?_
          rw [← List.append_assoc G.pending]
          exact List.perm_append_comm
        · intro q hq
          rw [currentPacket_none rfl] at hq
          cases hq
      · have hrep' : 0 < p.repeats := by
          rw [BitVec.lt_def]
          have : p.repeats.toNat ≠ 0 := fun h0 => hrep (BitVec.eq_of_toNat_eq (by simpa using h0))
          simpa using Nat.pos_of_ne_zero this
        rw [closePass_repeat hcp he hrep', setCurrentPacket_slot hc]
        refine ⟨⟨hpool.congr (by simp [GenState.owned]) rfl (by simp [Memory.write]), ⟨?_, ?_, hpk.idle, hpk.unconfigured⟩⟩, ?_, ?_⟩
        · intro j hj
          have hne : j ≠ i := fun e => (current_disjoint hpool hc).1 (e ▸ hj)
          obtain ⟨q, h1, h2, h3⟩ := hpk.pending j hj
          exact ⟨q, by rw [← h1]; exact Memory.read_write_ne _ hne, h2, h3⟩
        · intro j hj
          have : j = i := by simp only [hc, Current.slot.injEq] at hj; exact hj.symm
          subst this
          exact ⟨_, Memory.read_write_same hr, hl.congr rfl rfl, by rw [BitVec.le_def]; simp⟩
        · intro q hq
          rw [currentPacket_slot (i := i) (by exact hc), Memory.read_write_same hr] at hq
          obtain rfl := Option.some.inj hq
          refine ⟨?_, by dsimp only; omega⟩
          rw [BitVec.lt_def]; dsimp only
          simp; omega
        · intro j hj
          exact Memory.read_write_ne _ (fun e => hj (by rw [e]))
    · have : closePass G = G := closePass_continue (by
        intro q hq; rw [hcp] at hq; obtain rfl := Option.some.inj hq; exact he)
      rw [this]
      refine ⟨⟨hpool, hpk⟩, ?_, fun _ _ => rfl⟩
      intro q hq
      rw [hcp] at hq
      obtain rfl := Option.some.inj hq
      refine ⟨?_, by omega⟩
      rw [BitVec.lt_def]; rw [BitVec.le_def] at hle
      have : p.currentBit.toNat ≠ p.numBits.toNat := fun e => he (BitVec.eq_of_toNat_eq e)
      omega
  | idlePkt =>
    have hcp := currentPacket_idle hc
    have hid := hpk.idle hm
    by_cases he : G.idle.currentBit = G.idle.numBits
    · rw [closePass_release hcp he hid.repeats, release_idle hc]
      refine ⟨⟨hpool.congr (by simp [GenState.owned, hc, Current.slotIndices]) rfl rfl, ⟨hpk.pending, by simp, hpk.idle, by simp⟩⟩, ?_,
        fun _ _ => rfl⟩
      intro q hq
      rw [currentPacket_none rfl] at hq
      cases hq
    · have : closePass G = G := closePass_continue (by
        intro q hq; rw [hcp] at hq; obtain rfl := Option.some.inj hq; exact he)
      rw [this]
      refine ⟨⟨hpool, hpk⟩, ?_, fun _ _ => rfl⟩
      intro q hq
      rw [hcp] at hq
      obtain rfl := Option.some.inj hq
      have h49 : G.idle.numBits.toNat = 49 := by rw [hid.numBits]; rfl
      refine ⟨?_, by omega⟩
      have hle := hid.cursor
      rw [BitVec.le_def] at hle; rw [BitVec.lt_def]
      have : G.idle.currentBit.toNat ≠ G.idle.numBits.toNat := fun e => he (BitVec.eq_of_toNat_eq e)
      simp at hle
      omega

theorem selectPacket_ok {G : GenState} (h : GenOk G) (hm : G.mode ≠ .unconfigured)
    (hc : ∀ p, G.currentPacket = some p → p.currentBit < p.numBits ∧ p.numBits.toNat ≤ 80) :
    GenOk (selectPacket G) ∧
      (∃ p, (selectPacket G).currentPacket = some p ∧ p.currentBit < p.numBits ∧ p.numBits.toNat ≤ 80) ∧
      (selectPacket G).slots = G.slots ∧ (∀ j, (selectPacket G).current = .slot j → G.filling ≠ some j) := by
  obtain ⟨hpool, hpk⟩ := h
  cases hcur : G.current with
  | none =>
    cases hp : G.pending with
    | nil =>
      rw [selectPacket_idle hcur hp]
      have hid := hpk.idle hm
      have h49 : G.idle.numBits.toNat = 49 := by rw [hid.numBits]; rfl
      refine ⟨⟨hpool.congr (by simp [GenState.owned, hcur, Current.slotIndices]) rfl rfl,
        ⟨hpk.pending, by simp, fun _ => ⟨hid.bits, hid.numBits, hid.repeats, by simp⟩, fun hu => absurd hu hm⟩⟩, ?_, rfl, by simp⟩
      refine ⟨_, currentPacket_idle rfl, ?_, by dsimp only; omega⟩
      rw [BitVec.lt_def]; dsimp only; simp; omega
    | cons i rest =>
      rw [selectPacket_dequeue hcur hp]
      obtain ⟨p, hr, hl, h0⟩ := hpk.pending i (by simp [hp])
      have hrange := hl.numBits_range
      refine ⟨⟨hpool.perm ?_ rfl rfl, ⟨fun j hj => hpk.pending j (by simp only [hp, List.mem_cons]; exact Or.inr hj), ?_, hpk.idle,
        fun hu => absurd hu hm⟩⟩, ?_, rfl, ?_⟩
      · simp only [GenState.owned, hcur, hp, Current.slotIndices, List.append_nil]
        rw [List.append_assoc, List.append_assoc, List.append_assoc]
        refine List.Perm.append_left _ ?_
        simp only [List.cons_append]
        rw [← List.append_assoc]
        exact List.perm_append_comm (l₂ := [i])
      · intro j hj
        simp only [Current.slot.injEq] at hj
        subst hj
        exact ⟨p, hr, hl, by rw [BitVec.le_def, h0]; simp⟩
      · refine ⟨p, by rw [currentPacket_slot rfl]; exact hr, ?_, by omega⟩
        rw [BitVec.lt_def, h0]; simp; omega
      · intro j hj hf
        simp only [Current.slot.injEq] at hj
        subst hj
        exact (filling_disjoint hpool hf).1 (by simp [hp])
  | slot i =>
    rw [selectPacket_playing (by simp [hcur])]
    refine ⟨⟨hpool, hpk⟩, ?_, rfl, fun j hj => (current_disjoint hpool hj).2.1⟩
    obtain ⟨p, hr, -, -⟩ := hpk.current i hcur
    have hcp : G.currentPacket = some p := by rw [currentPacket_slot hcur, hr]
    exact ⟨p, hcp, hc p hcp⟩
  | idlePkt =>
    rw [selectPacket_playing (by simp [hcur])]
    exact ⟨⟨hpool, hpk⟩, ⟨_, currentPacket_idle hcur, hc _ (currentPacket_idle hcur)⟩, rfl, by simp [hcur]⟩

theorem extractBit_ok {G : GenState} (h : GenOk G) {p : Packet} (hcp : G.currentPacket = some p)
    (hlt : p.currentBit < p.numBits) (hn : p.numBits.toNat ≤ 80) :
    ∃ b G', extractBit G = some (b, G') ∧ GenOk G' ∧ G'.current = G.current ∧ G'.current ≠ .none ∧
      (∀ j, G.current ≠ .slot j → G'.slots.read j = G.slots.read j) := by
  obtain ⟨hpool, hpk⟩ := h
  refine ⟨_, _, extractBit_some hcp hlt hn, ?_⟩
  have hsucc : (p.currentBit + 1).toNat = p.currentBit.toNat + 1 := by
    have := BitVec.lt_def.1 hlt
    rw [BitVec.toNat_add]; simp; omega
  cases hc : G.current with
  | none => rw [currentPacket_none hc] at hcp; cases hcp
  | slot i =>
    rw [setCurrentPacket_slot hc]
    rw [currentPacket_slot hc] at hcp
    refine ⟨⟨hpool.congr (by simp [GenState.owned]) rfl (by simp [Memory.write]), ⟨?_, ?_, hpk.idle, fun hu => ?_⟩⟩, hc, by simp [hc], ?_⟩
    · intro j hj
      have hne : j ≠ i := fun e => (current_disjoint hpool hc).1 (e ▸ hj)
      obtain ⟨q, h1, h2, h3⟩ := hpk.pending j hj
      exact ⟨q, by rw [← h1]; exact Memory.read_write_ne _ hne, h2, h3⟩
    · intro j hj
      have : j = i := by simp only [hc, Current.slot.injEq] at hj; exact hj.symm
      subst this
      obtain ⟨q, hq, hl, -⟩ := hpk.current j hc
      rw [hcp] at hq
      obtain rfl := Option.some.inj hq
      refine ⟨_, Memory.read_write_same hcp, hl.congr rfl rfl, ?_⟩
      rw [BitVec.le_def]; dsimp only; rw [hsucc]
      exact BitVec.lt_def.1 hlt
    · have := hpk.unconfigured hu
      rw [hc] at this; cases this
    · intro j hj
      exact Memory.read_write_ne _ (fun e => hj (by rw [e]))
  | idlePkt =>
    rw [setCurrentPacket_idle hc]
    rw [currentPacket_idle hc] at hcp
    obtain rfl := Option.some.inj hcp
    refine ⟨⟨hpool.congr (by simp [GenState.owned]) rfl rfl, ⟨hpk.pending, by simp [hc], fun hm => ?_, hpk.unconfigured⟩⟩, hc, by simp [hc],
      fun _ _ => rfl⟩
    have hid := hpk.idle hm
    refine ⟨hid.bits, hid.numBits, hid.repeats, ?_⟩
    rw [BitVec.le_def]; dsimp only; rw [hsucc]
    have h49 : G.idle.numBits.toNat = 49 := by rw [hid.numBits]; rfl
    have := BitVec.lt_def.1 hlt
    simp; omega

/-- `GetNextBit` on a configured generator whose invariants hold: it answers a bit, keeps the invariants, leaves a packet playing, and
leaves every slot alone but the one it closes and the one it plays (R214). -/
theorem getNextBit_ok {G : GenState} (h : GenOk G) (hm : G.mode ≠ .unconfigured) :
    ∃ b G', getNextBit G = some (b, G') ∧ GenOk G' ∧ G'.current ≠ .none ∧
      (∀ j, G.filling = some j → G'.slots.read j = G.slots.read j) := by
  obtain ⟨h1, h1c, h1r⟩ := closePass_ok h hm
  have hm1 : (closePass G).mode ≠ .unconfigured := by rw [(closePass_frame G).mode]; exact hm
  obtain ⟨h2, ⟨p, hp, hlt, hn⟩, h2s, h2f⟩ := selectPacket_ok h1 hm1 h1c
  obtain ⟨b, G', he, h3, h3c, h3n, h3r⟩ := extractBit_ok h2 hp hlt hn
  refine ⟨b, G', he, h3, h3n, fun j hj => ?_⟩
  have hf1 : (closePass G).filling = some j := by rw [(closePass_frame G).filling]; exact hj
  rw [h3r j (fun hc => h2f j hc hf1), h2s, h1r j (filling_disjoint h.pool hj).2.1]

end Sys2Proof.Machine
end

