-- ==== Sys2Proof/Laws/Schedule.lean ====
section
/-! SUPPORT. What choosing the next agent, taking the next command and a whole step can do (R11, R33, R191, R331). -/

namespace Sys2Proof.Machine

/-! ### The agent that moves -/

theorem anyDue_cases {s : State} (h : anyDue s = true) :
    ∃ k g, ((s.gen g).timer k).due s.params.isrLatencyMax = true := by
  simp only [anyDue, Bool.or_eq_true] at h
  obtain ((h | h) | h) | h := h
  · exact ⟨.full, .ops, h⟩
  · exact ⟨.pulse, .ops, h⟩
  · exact ⟨.full, .prog, h⟩
  · exact ⟨.pulse, .prog, h⟩

theorem anyDue_of {s : State} {k : TimerKind} {g : Gen} (h : ((s.gen g).timer k).due s.params.isrLatencyMax = true) :
    anyDue s = true := by
  cases g <;> cases k <;> simp_all [anyDue, State.gen]

theorem anyDeliverable_cases {s : State} (h : anyDeliverable s = true) : ∃ k g, ((s.gen g).timer k).deliverable = true := by
  simp only [anyDeliverable, Bool.or_eq_true] at h
  obtain ((h | h) | h) | h := h
  · exact ⟨.full, .ops, h⟩
  · exact ⟨.pulse, .ops, h⟩
  · exact ⟨.full, .prog, h⟩
  · exact ⟨.pulse, .prog, h⟩

theorem anyDeliverable_of {s : State} {k : TimerKind} {g : Gen} (h : ((s.gen g).timer k).deliverable = true) :
    anyDeliverable s = true := by
  cases g <;> cases k <;> simp_all [anyDeliverable, State.gen]

theorem mem_agents (a : Agent) : a ∈ agents := by
  cases a with
  | host => simp [agents]
  | clock => simp [agents]
  | isr k g => cases k <;> cases g <;> simp [agents]

/-- Some agent always has a step: the clock, or else an interrupt that is due (R190, R192). -/
theorem enabledAgents_ne_nil (s : State) : enabledAgents s ≠ [] := by
  have key : ∃ a, enabled s a = true := by
    cases h : anyDue s
    · exact ⟨.clock, by simp [enabled, h]⟩
    · obtain ⟨k, g, hd⟩ := anyDue_cases h
      refine ⟨.isr k g, ?_⟩
      rw [Timer.due, Bool.and_eq_true] at hd
      exact hd.1
  obtain ⟨a, ha⟩ := key
  exact List.ne_nil_of_mem (List.mem_filter.2 ⟨mem_agents a, ha⟩)

theorem freeAgent_enabled (s : State) : enabled s (freeAgent s) = true := by
  unfold freeAgent
  dsimp only
  split
  · rename_i h
    exact (Bool.and_eq_true_iff.1 h).1
  · have hi := Nat.mod_lt (Config.freeChoice s.inputs.draws) (List.length_pos_iff.2 (enabledAgents_ne_nil s))
    rw [List.getD_eq_getElem _ _ hi]
    exact (List.mem_filter.1 (List.getElem_mem hi)).2

/-- The agent that moves has a step. -/
theorem pickAgent_enabled (s : State) : enabled s (pickAgent s).1 = true := by
  show enabled s (nextAgent s) = true
  unfold nextAgent
  split
  · split
    · assumption
    · exact freeAgent_enabled s
  · exact freeAgent_enabled s

/-- Choosing an agent changes the schedule, the count of draws and the count of the host's waits alone. -/
theorem pickAgent_snd (s : State) :
    ∃ l d p w, (pickAgent s).2 = { s with inputs := { s.inputs with sched := l, draws := d, passed := p, waits := w } } := by
  unfold pickAgent countWait
  dsimp only
  split <;> exact ⟨_, _, _, _, rfl⟩

/-! Counting the host's wait leaves what the outside gives (log entry 5). -/

@[simp] theorem countWait_cmds (s : State) (a : Agent) : (countWait s a).cmds = s.inputs.cmds := by unfold countWait; split <;> rfl
@[simp] theorem countWait_adc (s : State) (a : Agent) : (countWait s a).adc = s.inputs.adc := by unfold countWait; split <;> rfl
@[simp] theorem countWait_gpioOk (s : State) (a : Agent) : (countWait s a).gpioOk = s.inputs.gpioOk := by unfold countWait; split <;> rfl
@[simp] theorem countWait_timerOk (s : State) (a : Agent) : (countWait s a).timerOk = s.inputs.timerOk := by unfold countWait; split <;> rfl

/-- Choosing an agent uses up the given order by one. -/
@[simp] theorem pickAgent_sched (s : State) : (pickAgent s).2.inputs.sched = s.inputs.sched.tail := rfl

/-- A host that has a step and is passed over has waited one step more (R191). -/
theorem pickAgent_passed {s : State} (h : hostEnabled s = true) (ha : (pickAgent s).1 ≠ .host) :
    (pickAgent s).2.inputs.passed = s.inputs.passed + 1 ∧ (pickAgent s).2.inputs.waits = s.inputs.waits := by
  have hc : (hostEnabled s && nextAgent s != .host) = true := by simpa [h] using show nextAgent s ≠ .host from ha
  simp [pickAgent, countWait, hc]

/-- With no order given, a host that has waited as long as it may is the agent that moves (R191). -/
theorem pickAgent_host {s : State} (h : hostEnabled s = true) (hs : s.inputs.sched = [])
    (hp : Config.hostPatience s.inputs.waits ≤ s.inputs.passed) : (pickAgent s).1 = .host := by
  simp [pickAgent, nextAgent, hs, freeAgent, hostMustMove, h, hp]

/-- Whether an agent has a step does not depend on the schedule, the draws or the host's waits. -/
theorem enabled_inputs (s : State) (l : List Agent) (d p w : Nat) (a : Agent) :
    enabled { s with inputs := { s.inputs with sched := l, draws := d, passed := p, waits := w } } a = enabled s a := by
  cases a with
  | host => rfl
  | clock => rfl
  | isr k g => cases g <;> rfl

/-! ### The host's fetch -/

/-- What a host that has a step fetches: a ready host takes the next word; a host inside a command goes on with its own (R33, R191). -/
theorem hostFetch_cases {s : State} (h : hostEnabled s = true) :
    (∃ w ws, s.host.cmd = none ∧ s.inputs.cmds = w :: ws ∧
      hostFetch s = (decodeWord w, { s with
        host := { s.host with cmd := some w, phase := .entry, wakeAt := 0 }, inputs := { s.inputs with cmds := ws } })) ∨
    (∃ w, s.host.cmd = some w ∧ hostFetch s = (hostInstr s.host w, { s with host := { s.host with wakeAt := 0 } })) := by
  cases hc : s.host.cmd with
  | none =>
    cases hi : s.inputs.cmds with
    | nil => simp [hostEnabled, hc, hi] at h
    | cons w ws =>
      refine .inl ⟨w, ws, rfl, rfl, ?_⟩
      simp only [hostFetch, takeCommand, hc, hi]
      rfl
  | some w =>
    refine .inr ⟨w, rfl, ?_⟩
    simp only [hostFetch, takeCommand, hc]
    rfl

/-- Away from the fill step of a load the block makes itself, the host is at its command word. -/
theorem hostInstr_word {h : HostState} {w : CommandWord} (hp : ∀ site, h.phase = .load site .fill → site = .caller) :
    hostInstr h w = decodeWord w := by
  have : hostCode h w = .word w := by
    unfold hostCode
    split
    · rfl
    · rename_i site hn hs
      exact absurd (hp site hs) hn
    · rfl
  rw [hostInstr, this]
  rfl

/-- At that fill step it is at the frame in the load register. -/
theorem hostInstr_frame {h : HostState} {w : CommandWord} {site : LoadSite} {i : Instr} (hp : h.phase = .load site .fill)
    (hs : site ≠ .caller) (hd : decodeFrame h.load.frame = .ok i) : hostInstr h w = i := by
  have : hostCode h w = .frame h.load.frame := by
    cases site <;> simp_all [hostCode]
  rw [hostInstr, this]
  show (match decodeFrame h.load.frame with | .ok i => i | .error _ => decodeWord w) = i
  rw [hd]

/-! ### The step -/

theorem step_next {s t : State} (h : step s = .next t) : s.faulted = none ∧ runAgent (pickAgent s).1 (pickAgent s).2 = .next t := by
  unfold step at h
  split at h
  · cases h
  · exact ⟨‹_›, h⟩

/-- What a step can do (R11, R33, R183, R190): the clock ticks, a due ISR runs, a ready host takes its next word and runs it, or a host inside
a command goes on with it. Only the choice of the agent is made before, and it changes the inputs alone. -/
theorem step_cases {s t : State} (h : step s = .next t) : s.faulted = none ∧ ∃ inp, inp = (pickAgent s).2.inputs ∧
    (((pickAgent s).1 = .clock ∧ anyDue s = false ∧ t = clockStep { s with inputs := inp }) ∨
    (∃ k g, (pickAgent s).1 = .isr k g ∧ ((s.gen g).timer k).deliverable = true ∧
      exec (decodeInterrupt k g) { s with inputs := inp } = .next t) ∨
    (∃ w ws, (pickAgent s).1 = .host ∧ s.host.cmd = none ∧ s.inputs.cmds = w :: ws ∧
      exec (decodeWord w) { s with
        host := { s.host with cmd := some w, phase := .entry, wakeAt := 0 }, inputs := { inp with cmds := ws } } = .next t) ∨
    (∃ w, (pickAgent s).1 = .host ∧ s.host.cmd = some w ∧
      exec (hostInstr s.host w) { s with host := { s.host with wakeAt := 0 }, inputs := inp } = .next t)) := by
  obtain ⟨hf, hr⟩ := step_next h
  have hen := pickAgent_enabled s
  obtain ⟨l, d, p, w, hs⟩ := pickAgent_snd s
  refine ⟨hf, _, rfl, ?_⟩
  rw [hs] at hr ⊢
  rcases ha : (pickAgent s).1 with _ | ⟨k, g⟩ | _ <;> rw [ha] at hr hen
  · obtain ⟨w, ws, hc, hi, hfe⟩ | ⟨w, hc, hfe⟩ := hostFetch_cases
      (s := { s with inputs := { s.inputs with sched := l, draws := d, passed := p, waits := w } }) hen
    · rw [runAgent, hfe] at hr
      exact .inr (.inr (.inl ⟨w, ws, rfl, hc, hi, hr⟩))
    · rw [runAgent, hfe] at hr
      exact .inr (.inr (.inr ⟨w, rfl, hc, hr⟩))
  · exact .inr (.inl ⟨k, g, rfl, hen, hr⟩)
  · exact .inl ⟨rfl, by simpa [enabled] using hen, (next_inj.1 hr).symm⟩

end Sys2Proof.Machine
end

