-- ==== Sys2Proof/Laws/Timers.lean ====
section
/-! SUPPORT. What one tick does to a timer, case by case (R182, R190, R192), and to one that has been ended (R252). -/

namespace Sys2Proof.Machine

@[simp] theorem timerTick_begun (t : Timer) : (timerTick t).begun = t.begun := by
  unfold timerTick ageTick alarmFire; dsimp only; split <;> split <;> (try split) <;> rfl

@[simp] theorem timerTick_attached (t : Timer) : (timerTick t).attached = t.attached := by
  unfold timerTick ageTick alarmFire; dsimp only; split <;> split <;> (try split) <;> rfl

@[simp] theorem timerTick_alarm (t : Timer) : (timerTick t).alarm = t.alarm := by
  unfold timerTick ageTick alarmFire; dsimp only; split <;> split <;> (try split) <;> rfl

@[simp] theorem timerTick_autoreload (t : Timer) : (timerTick t).autoreload = t.autoreload := by
  unfold timerTick ageTick alarmFire; dsimp only; split <;> split <;> (try split) <;> rfl

/-- A timer that is not begun and has nothing to deliver does nothing (R182). -/
theorem timerTick_still {t : Timer} (hb : t.begun = false) (hd : t.deliverable = false) : timerTick t = t := by
  simp [timerTick, ageTick, hb, hd]

/-- A begun timer that does not reach its alarm counts, and its waiting interrupt ages (R182, R192). -/
theorem timerTick_count {t : Timer} (hb : t.begun = true) (hn : ¬ (t.alarmEn = true ∧ t.counter + 1 = t.alarm)) :
    timerTick t = { t with counter := t.counter + 1, age := if t.deliverable then t.age + 1 else t.age } := by
  unfold timerTick ageTick
  dsimp only
  cases hd : t.deliverable <;> simp [hb] <;> exact fun ha hc => absurd ⟨ha, hc⟩ hn

/-- A begun timer at its alarm fires (R182). -/
theorem timerTick_fire {t : Timer} (hb : t.begun = true) (he : t.alarmEn = true) (hc : t.counter + 1 = t.alarm) :
    timerTick t = { t with
      latched := t.attached || t.latched
      counter := if t.autoreload then 0 else t.alarm
      alarmEn := t.autoreload
      age := if t.latched then (if t.deliverable then t.age + 1 else t.age) else 0 } := by
  unfold timerTick ageTick alarmFire
  dsimp only
  cases hd : t.deliverable <;> simp [hb, he, hc]

theorem ended_iff {t : Timer} : t.ended = true ↔ t.begun = false ∧ t.attached = false ∧ t.alarmEn = false ∧ t.latched = false := by
  simp [Timer.ended, and_assoc]

theorem ended_not_deliverable {t : Timer} (h : t.ended = true) : t.deliverable = false := by
  simp [Timer.deliverable, (ended_iff.1 h).2.2.2]

/-- An ended timer does nothing (R252). -/
theorem timerTick_ended {t : Timer} (h : t.ended = true) : timerTick t = t :=
  timerTick_still (ended_iff.1 h).1 (ended_not_deliverable h)

theorem timerShutdown_ended (t : Timer) : (timerShutdown t).ended = true := rfl

/-- A tick keeps the timers' agreement with the mode (R194, R252). -/
theorem TimerInv.tick {G : GenState} (h : TimerInv G) : TimerInv G.tick := by
  refine ⟨fun hm => ?_, fun hm => ?_⟩
  · obtain ⟨h1, h2⟩ := h.off hm
    exact ⟨by rw [GenState.tick]; simpa [timerTick_ended h1] using h1, by rw [GenState.tick]; simpa [timerTick_ended h2] using h2⟩
  · obtain ⟨a1, a2, a3, a4, b1, b2, b3, b, c1, c2⟩ := h.on hm
    refine ⟨by simp [GenState.tick, a1], by simp [GenState.tick, a2], ?_, by simp [GenState.tick, a4], by simp [GenState.tick, b1],
      by simp [GenState.tick, b2], by simp [GenState.tick, b3], b, by simp [GenState.tick, c1], by simp [GenState.tick, c2]⟩
    show (timerTick G.full).alarmEn = true
    by_cases hf : G.full.counter + 1 = G.full.alarm
    · rw [timerTick_fire a1 a3 hf]; exact a4
    · rw [timerTick_count a1 (by simp [hf])]; exact a3

/-- The timers' agreement with the mode depends on the mode and the timers alone. -/
theorem TimerInv.congr {G H : GenState} (h : TimerInv G) (hm : H.mode = G.mode) (hf : H.full = G.full) (hp : H.pulse = G.pulse) :
    TimerInv H :=
  ⟨by rw [hm, hf, hp]; exact h.off, by rw [hm, hf, hp]; exact h.on⟩

/-- START's arming step establishes it (R241). -/
theorem armTimers_inv (g : Gen) (G : GenState) : TimerInv (armTimers g G) :=
  ⟨fun h => absurd rfl h, fun _ => ⟨rfl, rfl, rfl, rfl, rfl, rfl, rfl, true, rfl, rfl⟩⟩

end Sys2Proof.Machine
end

