-- ==== Sys2Proof/Laws/Invariant.lean ====
section
/-! SUPPORT. How each agent's step keeps the block's invariant (`Inv`): the invariant is cut into the part that does not speak of the
command in execution (`Pre`) and the part that does (`Pos`), and there is one lemma for the clock, each ISR, each stage of a load, and
each position of each host command. -/

set_option maxRecDepth 4000

namespace Sys2Proof.Machine

open Sys2Proof

/-- The invariant but for the host's agreement with the command in execution (R24, R29 to R32, R132, R194, R252). -/
structure Pre (s : State) : Prop where
  pool : ∀ g, PoolInv (s.gen g)
  packets : ∀ g, PacketsInv (s.gen g)
  timers : ∀ g, TimerInv (s.gen g)
  filling : ∀ g, (s.gen g).filling ≠ none ↔ (holdsSlot s.host.phase = true ∧ s.host.load.gen = g)
  frame : holdsFrame s.host.phase = true →
    ∃ payload : List Byte, lenLegal payload.length = true ∧ s.host.load.frame = frameOf payload
  publish : ∀ site, s.host.phase = .load site .publish → ∀ i, (s.gen s.host.load.gen).filling = some i →
    ∃ p, (s.gen s.host.load.gen).slots.read i = some p ∧ PacketLaid p ∧ p.currentBit = 0
  bootFrame : ∀ site stage, s.host.phase = .load site stage → site ≠ .caller → holdsFrame s.host.phase = true →
    ∃ i, decodeFrame s.host.load.frame = .ok i
  rest : ∀ g, (s.gen g).mode ≠ .running → (s.gen g).current ≠ .none →
    s.host.phase = .drain ∧ ∃ w, s.host.cmd = some w ∧ decodeWord w = .stop g

/-- The host's agreement with the command in execution (R33). -/
structure Pos (s : State) : Prop where
  ready : s.faulted = none → s.host.cmd = none → s.host.phase = .entry
  position : s.faulted = none → ∀ w, s.host.cmd = some w → commandPosition s (decodeWord w) = true
  target : s.faulted = none → holdsFrame s.host.phase = true → ∀ w, s.host.cmd = some w →
    s.host.load.gen = loadTarget (decodeWord w)

theorem inv_iff (s : State) : Inv s ↔ Pre s ∧ Pos s := by
  constructor
  · intro h
    exact ⟨⟨h.pool, h.packets, h.timers, h.host.filling, h.host.frame, h.host.publish, h.host.bootFrame, h.host.rest⟩,
      ⟨h.host.ready, h.host.position, h.host.target⟩⟩
  · rintro ⟨a, b⟩
    exact ⟨a.pool, a.packets, a.timers, ⟨b.ready, b.position, b.target, a.filling, a.frame, a.publish, a.bootFrame, a.rest⟩⟩

theorem Inv.inputs {s : State} (h : Inv s) (i : Inputs) : Inv { s with inputs := i } := by
  have e : ∀ g, ({ s with inputs := i } : State).gen g = s.gen g := fun g => by cases g <;> rfl
  have ep : ∀ j, commandPosition { s with inputs := i } j = commandPosition s j := by
    intro j; cases j <;> simp [commandPosition, e]
  refine ⟨fun g => by rw [e]; exact h.pool g, fun g => by rw [e]; exact h.packets g, fun g => by rw [e]; exact h.timers g,
    ⟨h.host.ready, fun a w b => by rw [ep]; exact h.host.position a w b, h.host.target, fun g => by rw [e]; exact h.host.filling g,
     h.host.frame, fun a b => by rw [e]; exact h.host.publish a b, h.host.bootFrame, fun g => by rw [e]; exact h.host.rest g⟩⟩

theorem Pre.faulted {s : State} (h : Pre s) (r : Option FaultReason) : Pre { s with faulted := r } := by
  have e : ∀ g, ({ s with faulted := r } : State).gen g = s.gen g := fun g => by cases g <;> rfl
  exact ⟨fun g => by rw [e]; exact h.pool g, fun g => by rw [e]; exact h.packets g, fun g => by rw [e]; exact h.timers g,
    fun g => by rw [e]; exact h.filling g,
     h.frame, fun a b => by rw [e]; exact h.publish a b, h.bootFrame, fun g => by rw [e]; exact h.rest g⟩

theorem Pos.faulted (s : State) (r : FaultReason) : Pos { s with faulted := some r } :=
  ⟨fun h => by simp at h, fun h => by simp at h, fun h => by simp at h⟩

theorem Pre.fault_inv {s : State} (h : Pre s) (r : FaultReason) : Inv { s with faulted := some r } :=
  (inv_iff _).2 ⟨h.faulted _, Pos.faulted _ _⟩

/-- The CLOCK step keeps the invariant (R190). -/
theorem clock_inv {s : State} (h : Inv s) : Inv (clockStep s) := by
  have ep : ∀ j, commandPosition (clockStep s) j = commandPosition s j := by
    intro j; cases j <;> simp [commandPosition]
  refine ⟨fun g => ?_, fun g => ?_, fun g => ?_, ⟨h.host.ready, fun a w b => by rw [ep]; exact h.host.position a w b, h.host.target,
     fun g => ?_, h.host.frame, ?_, h.host.bootFrame, ?_⟩⟩
  · rw [clockStep_gen]; exact (h.pool g).congr rfl rfl rfl
  · rw [clockStep_gen]; exact ⟨(h.packets g).pending, (h.packets g).current, (h.packets g).idle, (h.packets g).unconfigured⟩
  · rw [clockStep_gen]; exact (h.timers g).tick
  · rw [clockStep_gen]; exact h.host.filling g
  · intro a b; rw [clockStep_gen]; exact h.host.publish a b
  · intro g; rw [clockStep_gen]; exact h.host.rest g

/-- A step that changes one running generator alone, and neither its mode nor the slot a load holds, keeps the invariant (R68). -/
theorem isr_inv {s t : State} (h : Inv s) (g : Gen) (hf : t.faulted = s.faulted) (hh : t.host = s.host) (hs : t.sm = s.sm)
    (ho : t.gen g.other = s.gen g.other) (hr : (s.gen g).mode = .running) (hm : (t.gen g).mode = (s.gen g).mode)
    (hfi : (t.gen g).filling = (s.gen g).filling)
    (hsl : ∀ j, (s.gen g).filling = some j → (t.gen g).slots.read j = (s.gen g).slots.read j)
    (hpool : PoolInv (t.gen g)) (hpk : PacketsInv (t.gen g)) (ht : TimerInv (t.gen g)) : Inv t := by
  have hm' : ∀ h, (t.gen h).mode = (s.gen h).mode := by
    intro h; by_cases e : h = g
    · subst e; exact hm
    · rw [Gen.ne_iff_other.1 e, ho]
  have hfi' : ∀ h, (t.gen h).filling = (s.gen h).filling := by
    intro h; by_cases e : h = g
    · subst e; exact hfi
    · rw [Gen.ne_iff_other.1 e, ho]
  have ep : ∀ j, commandPosition t j = commandPosition s j := by
    intro j; cases j <;> simp [commandPosition, hm', hh, hs]
  refine ⟨fun k => ?_, fun k => ?_, fun k => ?_, ⟨by rw [hf, hh]; exact h.host.ready, fun a w b => by rw [hh] at b; rw [ep]; exact h.host.position (hf ▸ a) w b, ?_,
     fun g => ?_, ?_, ?_, ?_, ?_⟩⟩
  · by_cases e : k = g
    · subst e; exact hpool
    · rw [Gen.ne_iff_other.1 e, ho]; exact h.pool _
  · by_cases e : k = g
    · subst e; exact hpk
    · rw [Gen.ne_iff_other.1 e, ho]; exact h.packets _
  · by_cases e : k = g
    · subst e; exact ht
    · rw [Gen.ne_iff_other.1 e, ho]; exact h.timers _
  · rw [hf, hh]; exact h.host.target
  · rw [hfi', hh]; exact h.host.filling g
  · rw [hh]; exact h.host.frame
  · intro site hp i hi
    rw [hh] at hp hi ⊢
    by_cases e : s.host.load.gen = g
    · rw [e] at hi ⊢
      rw [hfi] at hi
      rw [hsl i hi]
      have := h.host.publish site hp i
      rw [e] at this
      exact this hi
    · rw [Gen.ne_iff_other.1 e, ho] at hi ⊢
      have := h.host.publish site hp i
      rw [Gen.ne_iff_other.1 e] at this
      exact this hi
  · rw [hh]; exact h.host.bootFrame
  · intro k
    by_cases e : k = g
    · subst e; intro hx; rw [hm] at hx; exact absurd hr hx
    · rw [Gen.ne_iff_other.1 e, ho, hh]; exact h.host.rest _

theorem deliverable_running {G : GenState} (h : TimerInv G) {k : TimerKind} (hd : (G.timer k).deliverable = true) : G.mode = .running := by
  by_contra hm
  obtain ⟨a, b⟩ := h.off hm
  cases k
  · rw [GenState.timer_full, ended_not_deliverable a] at hd; cases hd
  · rw [GenState.timer_pulse, ended_not_deliverable b] at hd; cases hd

theorem pulse_inv {s t : State} (h : Inv s) {g : Gen} (he : execIrqPulse g s = .next t) : Inv t := by
  obtain ⟨hf, hd, rfl⟩ := execIrqPulse_next he
  have hr := deliverable_running (k := .pulse) (h.timers g) hd
  have hG : (pinWrite g .low (s.modGen g (fun G => { G with pulse := { G.pulse with latched := false, age := 0 } }))).gen g =
    { s.gen g with pinLevel := .low, pulse := { (s.gen g).pulse with latched := false, age := 0 } } := by simp
  refine isr_inv h g (by simp) (by simp) (by simp) (by rw [pinWrite_gen_other, State.gen_modGen_ne _ _ (Gen.other_ne g)]) hr ?_ ?_ ?_ ?_ ?_ ?_
  all_goals rw [hG]
  · intros; rfl
  · exact (h.pool g).congr rfl rfl rfl
  · exact ⟨(h.packets g).pending, (h.packets g).current, (h.packets g).idle, (h.packets g).unconfigured⟩
  · exact ⟨fun hm => absurd hr hm, fun _ => (h.timers g).on hr⟩

theorem full_inv {s t : State} (h : Inv s) {g : Gen} (he : execIrqFull g s = .next t) : Inv t ∧ t.faulted = none := by
  obtain ⟨hf, hd, s1, hs1, hc⟩ := execIrqFull_next he
  have hr := deliverable_running (k := .full) (h.timers g) hd
  have hs1g : s1.gen g = { s.gen g with full := { (s.gen g).full with latched := false, age := 0 } } := by rw [hs1]; simp
  have hok : GenOk (s1.gen g) := by
    rw [hs1g]
    exact ⟨(h.pool g).congr rfl rfl rfl, ⟨(h.packets g).pending, (h.packets g).current, (h.packets g).idle, (h.packets g).unconfigured⟩⟩
  have hmr : (s1.gen g).mode = .running := by rw [hs1g]; exact hr
  obtain ⟨b, G, hg, hGok, hcur, hkeep⟩ := getNextBit_ok hok (by rw [hmr]; simp)
  obtain ⟨hn, -⟩ | ⟨b', G', hg', rfl⟩ := hc
  · rw [hn] at hg; cases hg
  rw [hg] at hg'
  obtain ⟨rfl, rfl⟩ := Prod.mk.inj (Option.some.inj hg')
  have hfr := getNextBit_frame hg
  have hG : (pinWrite g .high (s1.setGen g (armCell b G))).gen g = { armCell b G with pinLevel := .high } := by simp
  refine ⟨isr_inv h g (by simp [hs1]) (by simp [hs1]) (by simp [hs1]) ?_ hr ?_ ?_ ?_ ?_ ?_ ?_, by simp [hs1, hf]⟩
  · rw [pinWrite_gen_other, State.gen_setGen_other, hs1, State.gen_modGen_ne _ _ (Gen.other_ne g)]
  all_goals rw [hG]
  · show G.mode = _; rw [hfr.mode, hs1g]
  · show G.filling = _; rw [hfr.filling, hs1g]
  · intro j hj
    have := hkeep j (by rw [hs1g]; exact hj)
    show G.slots.read j = _
    rw [this, hs1g]
  · exact hGok.pool.congr rfl rfl rfl
  · exact ⟨hGok.packets.pending, hGok.packets.current, hGok.packets.idle, hGok.packets.unconfigured⟩
  · have hfull : G.full = (s1.gen g).full := hfr.full
    have hpulse : G.pulse = (s1.gen g).pulse := hfr.pulse
    have hmode : G.mode = (s1.gen g).mode := hfr.mode
    obtain ⟨a1, a2, a3, a4, b1, b2, b3, -⟩ := (h.timers g).on hr
    refine ⟨fun hm => absurd ((by show G.mode = _; rw [hmode, hmr])) hm, fun _ => ?_⟩
    simp only [armCell, timerAlarmWrite, timerAlarmEnable, timerWrite, hfull, hpulse, hs1g]
    exact ⟨a1, a2, a3, trivial, b1, b2, trivial, b, rfl, rfl⟩

theorem not_slot_publish {p : HostPhase} (h : holdsSlot p = false) {site : LoadSite} : p ≠ .load site .publish := by
  rintro rfl; cases h

theorem frame_of_slot {p : HostPhase} (h : holdsFrame p = false) : holdsSlot p = false := by
  cases p with
  | load a b => cases b <;> simp_all [holdsFrame, holdsSlot]
  | _ => rfl

theorem Pre.move {s t : State} (h : Pre s) (hg : ∀ g, t.gen g = s.gen g) (h1 : holdsSlot s.host.phase = false)
    (h2 : holdsSlot t.host.phase = false) (hd : s.host.phase ≠ .drain)
    (hfr : holdsFrame t.host.phase = true → (∃ payload : List Byte, lenLegal payload.length = true ∧ t.host.load.frame = frameOf payload) ∧
      (∀ site stage, t.host.phase = .load site stage → site ≠ .caller → ∃ i, decodeFrame t.host.load.frame = .ok i)) : Pre t := by
  refine ⟨fun g => by rw [hg]; exact h.pool g, fun g => by rw [hg]; exact h.packets g, fun g => by rw [hg]; exact h.timers g, fun g => ?_,
    fun hf => (hfr hf).1, fun site hp => absurd hp (not_slot_publish h2), fun a b c d e => (hfr e).2 a b c d, fun g a b => ?_⟩
  · rw [hg, h.filling, h1, h2]; simp
  · rw [hg] at a b; exact absurd (h.rest g a b).1 hd

theorem Pos.of {s : State} {w : CommandWord} (hc : s.host.cmd = some w) (hp : commandPosition s (decodeWord w) = true)
    (ht : holdsFrame s.host.phase = true → s.host.load.gen = loadTarget (decodeWord w)) : Pos s := by
  refine ⟨fun _ h => (by rw [hc] at h; cases h), fun _ v hv => ?_, fun _ hf v hv => ?_⟩
  · rw [hc] at hv; obtain rfl := Option.some.inj hv; exact hp
  · rw [hc] at hv; obtain rfl := Option.some.inj hv; exact ht hf

theorem Pos.done {s : State} (hc : s.host.cmd = none) (hp : s.host.phase = .entry) : Pos s :=
  ⟨fun _ _ => hp, fun _ v hv => (by rw [hc] at hv; cases hv), fun _ _ v hv => (by rw [hc] at hv; cases hv)⟩

/-- A command that responds from a position that holds no slot keeps the invariant (R33). -/
theorem respond_inv {s u : State} (h : Pre s) (hg : ∀ g, u.gen g = s.gen g) (h1 : holdsSlot s.host.phase = false)
    (hd : s.host.phase ≠ .drain) (st : Status) (v : BitVec 16) : Inv (respond st v u) :=
  (inv_iff _).2 ⟨h.move (fun g => by rw [respond_gen, hg]) h1 rfl hd (fun hf => by cases hf), Pos.done rfl rfl⟩

theorem move_inv {s t : State} (h : Pre s) (hg : ∀ g, t.gen g = s.gen g) (h1 : holdsSlot s.host.phase = false) (hd : s.host.phase ≠ .drain)
    (h2 : holdsFrame t.host.phase = false) {w : CommandWord} (hc : t.host.cmd = some w)
    (hp : commandPosition t (decodeWord w) = true) : Inv t :=
  (inv_iff _).2 ⟨h.move hg h1 (frame_of_slot h2) hd (fun hf => by rw [h2] at hf; cases hf), Pos.of hc hp (fun hf => by rw [h2] at hf; cases hf)⟩

theorem load_inv {s t : State} (h : Pre s) (hg : ∀ g, t.gen g = s.gen g) (h1 : holdsSlot s.host.phase = false) (hd : s.host.phase ≠ .drain)
    {site : LoadSite} (h2 : t.host.phase = .load site .acquire) {w : CommandWord} (hc : t.host.cmd = some w)
    (hp : commandPosition t (decodeWord w) = true) (ht : t.host.load.gen = loadTarget (decodeWord w))
    {payload : List Byte} (hl : lenLegal payload.length = true) (hf : t.host.load.frame = frameOf payload)
    (hb : site ≠ .caller → ∃ i, decodeFrame (frameOf payload) = .ok i) : Inv t := by
  refine (inv_iff _).2 ⟨h.move hg h1 (by rw [h2]; rfl) hd (fun _ => ⟨⟨_, hl, hf⟩, fun a b c d => ?_⟩), Pos.of hc hp (fun _ => ht)⟩
  rw [h2] at c; cases c
  rw [hf]; exact hb d

theorem position_congr {s t : State} (hm : ∀ g, (t.gen g).mode = (s.gen g).mode) (hs : t.sm = s.sm) {site : LoadSite} {a b : LoadStage}
    (ha : s.host.phase = .load site a) (hae : a ≠ .entry) (hb : t.host.phase = .load site b) (hbe : b ≠ .entry) {i : Instr}
    (h : commandPosition s i = true) : commandPosition t i = true := by
  cases i <;> simp only [commandPosition, hm, hs, ha, hb] at h ⊢ <;> try exact h
  all_goals cases site <;> cases a <;> cases b <;> first | exact h | exact absurd rfl hae | exact absurd rfl hbe | skip
  all_goals simp only [smPositions] at h ⊢
  all_goals cases hph : s.sm.phase <;> simp_all [smLoadPhase]

theorem acquire_inv {s t : State} (h : Pre s) {site : LoadSite} (hph : s.host.phase = .load site .acquire) {w : CommandWord}
    (hc : s.host.cmd = some w) (hp : commandPosition s (decodeWord w) = true) (ht : s.host.load.gen = loadTarget (decodeWord w))
    (hn : loadAcquire site s = .next t) : Inv t := by
  have h1 : holdsSlot s.host.phase = false := by rw [hph]; rfl
  have hfr : holdsFrame s.host.phase = true := by rw [hph]; rfl
  have hd : s.host.phase ≠ .drain := by rw [hph]; simp
  obtain ⟨i, rest, hfree, rfl⟩ | ⟨hfree, rfl⟩ := loadAcquire_next hn
  · have hfn : (s.gen s.host.load.gen).filling = none := by
      by_contra hc; have := (h.filling _).1 hc; rw [h1] at this; simp at this
    have hG : (acquired site i rest s).gen s.host.load.gen = { s.gen s.host.load.gen with free := rest, filling := some i } := by
      simp [acquired]
    have hO : ∀ g, g ≠ s.host.load.gen → (acquired site i rest s).gen g = s.gen g := by
      intro g hg; simp [acquired, State.gen_modGen_ne _ _ hg]
    have hm : ∀ g, ((acquired site i rest s).gen g).mode = (s.gen g).mode := by
      intro g; by_cases e : g = s.host.load.gen
      · subst e; rw [hG]
      · rw [hO _ e]
    have hcmd : (acquired site i rest s).host.cmd = s.host.cmd := by simp [acquired]
    have hload : (acquired site i rest s).host.load = s.host.load := by simp [acquired]
    have hphase : (acquired site i rest s).host.phase = .load site .fill := by simp [acquired]
    refine (inv_iff _).2 ⟨⟨fun g => ?_, fun g => ?_, fun g => ?_, fun g => ?_, fun _ => ?_, fun _ hp => ?_, ?_, fun g a b => ?_⟩,
      Pos.of (by rw [hcmd, hc]) (position_congr hm (by simp [acquired]) hph (by simp) hphase (by simp) hp) (fun _ => by rw [hload, ht])⟩
    · by_cases e : g = s.host.load.gen
      · subst e; rw [hG]
        refine (h.pool _).perm ?_ rfl rfl
        simp only [GenState.owned, hfree, hfn, Option.toList, List.append_nil, List.cons_append]
        rw [List.append_assoc, List.append_assoc, List.append_assoc]
        have := (List.perm_middle (a := i) (l₁ := rest ++ (s.gen s.host.load.gen).pending) (l₂ := (s.gen s.host.load.gen).current.slotIndices))
        simpa [List.append_assoc] using this
      · rw [hO _ e]; exact h.pool g
    · by_cases e : g = s.host.load.gen
      · subst e; rw [hG]; exact ⟨(h.packets _).pending, (h.packets _).current, (h.packets _).idle, (h.packets _).unconfigured⟩
      · rw [hO _ e]; exact h.packets g
    · by_cases e : g = s.host.load.gen
      · subst e; rw [hG]; exact (h.timers _).congr rfl rfl rfl
      · rw [hO _ e]; exact h.timers g
    · rw [hphase, hload]
      by_cases e : g = s.host.load.gen
      · subst e; rw [hG]; simp [holdsSlot]
      · rw [hO _ e, h.filling, h1]; simp [holdsSlot, Ne.symm e]
    · rw [hload]; exact h.frame hfr
    · rw [hphase] at hp; cases hp
    · intro a b c d _
      rw [hphase] at c; cases c
      rw [hload]; exact h.bootFrame _ _ hph d hfr
    · rw [hm] at a
      have : ((acquired site i rest s).gen g).current = (s.gen g).current := by
        by_cases e : g = s.host.load.gen
        · subst e; rw [hG]
        · rw [hO _ e]
      rw [this] at b
      exact absurd (h.rest g a b).1 hd
  · refine (inv_iff _).2 ⟨h.move (fun g => by rw [delay_gen]) h1 (by rw [delay_phase, hph]; rfl) hd (fun _ => ⟨h.frame hfr, fun a b c d => ?_⟩), Pos.of (w := w) (by rw [delay_cmd, hc]) ?_ (fun _ => ht)⟩
    · exact h.bootFrame a b c d hfr
    · exact position_congr (s := s) (t := delay Config.poolPollUs s) (b := .acquire) (fun g => by rw [delay_gen]) rfl hph (by simp) (by rw [delay_phase, hph]) (by simp) hp

theorem fill_inv {s t : State} (h : Pre s) {site : LoadSite} (hph : s.host.phase = .load site .fill) {w : CommandWord}
    (hc : s.host.cmd = some w) (hp : commandPosition s (decodeWord w) = true) (ht : s.host.load.gen = loadTarget (decodeWord w))
    (hn : fillHeld s.host.load.frame site s = .next t) : Inv t := by
  have hfr : holdsFrame s.host.phase = true := by rw [hph]; rfl
  have hd : s.host.phase ≠ .drain := by rw [hph]; simp
  obtain ⟨i, p, hfi, hr, rfl⟩ := fillHeld_next.1 hn
  obtain ⟨pl, hl, hfrm⟩ := h.frame hfr
  have hG : (filled s.host.load.frame site i p s).gen s.host.load.gen =
      { s.gen s.host.load.gen with slots := (s.gen s.host.load.gen).slots.write i (fillPacket p s.host.load.frame s.host.load.repeats) } := by
    simp [filled]
  have hO : ∀ g, g ≠ s.host.load.gen → (filled s.host.load.frame site i p s).gen g = s.gen g := by
    intro g hg; simp [filled, State.gen_modGen_ne _ _ hg]
  have hm : ∀ g, ((filled s.host.load.frame site i p s).gen g).mode = (s.gen g).mode := by
    intro g; by_cases e : g = s.host.load.gen
    · subst e; rw [hG]
    · rw [hO _ e]
  have hcmd : (filled s.host.load.frame site i p s).host.cmd = s.host.cmd := by simp [filled]
  have hload : (filled s.host.load.frame site i p s).host.load = s.host.load := by simp [filled]
  have hphase : (filled s.host.load.frame site i p s).host.phase = .load site .publish := by simp [filled]
  have hdis := filling_disjoint (h.pool s.host.load.gen) hfi
  have hlaid : PacketLaid (fillPacket p s.host.load.frame s.host.load.repeats) := by rw [hfrm]; exact fillPacket_laid _ _ hl
  refine (inv_iff _).2 ⟨⟨fun g => ?_, fun g => ?_, fun g => ?_, fun g => ?_, fun _ => ?_, fun site' hp j hj => ?_, ?_, fun g a b => ?_⟩,
      Pos.of (by rw [hcmd, hc]) (position_congr hm (by simp [filled]) hph (by simp) hphase (by simp) hp) (fun _ => by rw [hload, ht])⟩
  · by_cases e : g = s.host.load.gen
    · subst e; rw [hG]; exact (h.pool _).congr rfl rfl (by simp [Memory.write])
    · rw [hO _ e]; exact h.pool g
  · by_cases e : g = s.host.load.gen
    · subst e; rw [hG]
      refine ⟨fun j hj => ?_, fun j hj => ?_, (h.packets _).idle, (h.packets _).unconfigured⟩
      · have hne : j ≠ i := fun e => hdis.1 (e ▸ hj)
        obtain ⟨q, h1, h2, h3⟩ := (h.packets _).pending j hj
        exact ⟨q, by rw [← h1]; exact Memory.read_write_ne _ hne, h2, h3⟩
      · have hne : j ≠ i := fun e => hdis.2.1 (e ▸ hj)
        obtain ⟨q, h1, h2, h3⟩ := (h.packets _).current j hj
        exact ⟨q, by rw [← h1]; exact Memory.read_write_ne _ hne, h2, h3⟩
    · rw [hO _ e]; exact h.packets g
  · by_cases e : g = s.host.load.gen
    · subst e; rw [hG]; exact (h.timers _).congr rfl rfl rfl
    · rw [hO _ e]; exact h.timers g
  · rw [hphase, hload]
    have : ((filled s.host.load.frame site i p s).gen g).filling = (s.gen g).filling := by
      by_cases e : g = s.host.load.gen
      · subst e; rw [hG]
      · rw [hO _ e]
    rw [this, h.filling, hph]; simp [holdsSlot]
  · rw [hload]; exact h.frame hfr
  · rw [hload, hG] at hj ⊢
    rw [show _ = some i from hfi] at hj
    obtain rfl := Option.some.inj hj
    exact ⟨_, Memory.read_write_same hr, hlaid, rfl⟩
  · intro a b c d _
    rw [hphase] at c; cases c
    rw [hload]; exact h.bootFrame _ _ hph d hfr
  · rw [hm] at a
    have : ((filled s.host.load.frame site i p s).gen g).current = (s.gen g).current := by
      by_cases e : g = s.host.load.gen
      · subst e; rw [hG]
      · rw [hO _ e]
    rw [this] at b
    exact absurd (h.rest g a b).1 hd

theorem publish_pre {s u : State} (h : Pre s) {site : LoadSite} (hph : s.host.phase = .load site .publish) {i : Nat}
    (hfi : (s.gen s.host.load.gen).filling = some i) (hu : ∀ g, u.gen g = (published i s).gen g)
    (h2 : holdsFrame u.host.phase = false) : Pre u := by
  have hd : s.host.phase ≠ .drain := by rw [hph]; simp
  have hG : u.gen s.host.load.gen = { s.gen s.host.load.gen with pending := fifoPush (s.gen s.host.load.gen).pending i, filling := none } := by
    rw [hu]; simp [published]
  have hO : ∀ g, g ≠ s.host.load.gen → u.gen g = s.gen g := by
    intro g hg; rw [hu]; simp [published, State.gen_modGen_ne _ _ hg]
  have hslot := frame_of_slot h2
  refine ⟨fun g => ?_, fun g => ?_, fun g => ?_, fun g => ?_, fun hf => (by rw [h2] at hf; cases hf), fun _ hp => absurd hp (not_slot_publish hslot),
    fun _ _ _ _ hf => (by rw [h2] at hf; cases hf), fun g a b => ?_⟩
  · by_cases e : g = s.host.load.gen
    · subst e; rw [hG]
      refine (h.pool _).perm ?_ rfl rfl
      simp only [GenState.owned, fifoPush, hfi, Option.toList, List.append_nil]
      rw [← List.append_assoc]
    · rw [hO _ e]; exact h.pool g
  · by_cases e : g = s.host.load.gen
    · subst e; rw [hG]
      refine ⟨fun j hj => ?_, (h.packets _).current, (h.packets _).idle, (h.packets _).unconfigured⟩
      simp only [fifoPush, List.mem_append, List.mem_singleton] at hj
      rcases hj with hj | rfl
      · exact (h.packets _).pending j hj
      · exact h.publish _ hph _ hfi
    · rw [hO _ e]; exact h.packets g
  · by_cases e : g = s.host.load.gen
    · subst e; rw [hG]; exact (h.timers _).congr rfl rfl rfl
    · rw [hO _ e]; exact h.timers g
  · rw [hslot]
    by_cases e : g = s.host.load.gen
    · subst e; rw [hG]; simp
    · rw [hO _ e, h.filling]; simp [Ne.symm e]
  · have hm : (u.gen g).mode = (s.gen g).mode ∧ (u.gen g).current = (s.gen g).current := by
      by_cases e : g = s.host.load.gen
      · subst e; rw [hG]; exact ⟨rfl, rfl⟩
      · rw [hO _ e]; exact ⟨rfl, rfl⟩
    rw [hm.1] at a; rw [hm.2] at b
    exact absurd (h.rest g a b).1 hd

theorem published_mode (i : Nat) (s : State) (g : Gen) : ((published i s).gen g).mode = (s.gen g).mode := by
  unfold published; rw [State.gen_modGen]; split
  · subst_vars; rfl
  · rfl

theorem reset_dec0 : ∃ i, decodeFrame (frameOf resetPayload) = .ok i := ⟨.dccReset, by decide⟩
theorem idle_dec0 : ∃ i, decodeFrame (frameOf idlePayload) = .ok i := ⟨.dccIdle, by decide⟩

theorem current_none {s : State} (h : Pre s) {g : Gen} (hm : (s.gen g).mode ≠ .running) (hd : s.host.phase ≠ .drain) : (s.gen g).current = .none := by
  by_contra hc
  exact hd (h.rest g hm hc).1

theorem filling_none {s : State} (h : Pre s) (hp : holdsSlot s.host.phase = false) (g : Gen) : (s.gen g).filling = none := by
  by_contra hc
  have := (h.filling g).1 hc
  rw [hp] at this; simp at this

theorem foldl_zero_frame (l : List Nat) : ∀ G : GenState, (l.foldl returnZeroed G).poolSize = G.poolSize ∧
    (l.foldl returnZeroed G).slots.length = G.slots.length ∧ (l.foldl returnZeroed G).free = G.free ++ l ∧
    (l.foldl returnZeroed G).filling = G.filling ∧ (l.foldl returnZeroed G).idle = G.idle ∧ (l.foldl returnZeroed G).mode = G.mode ∧
    (l.foldl returnZeroed G).full = G.full ∧ (l.foldl returnZeroed G).pulse = G.pulse := by
  induction l with
  | nil => intro G; simp
  | cons i l ih =>
    intro G
    obtain ⟨a, b, c, d, e, f, g, h⟩ := ih (returnZeroed G i)
    rw [List.foldl_cons]
    refine ⟨a, b.trans (by simp [returnZeroed, Memory.write]), ?_, d, e, f, g, h⟩
    rw [c]; simp [returnZeroed, fifoPush]

theorem drain_inv {s : State} (h : Pre s) (hd : s.host.phase = .drain) {g : Gen} (hm : (s.gen g).mode ≠ .unconfigured) {w : CommandWord}
    (hc : s.host.cmd = some w) (hw : decodeWord w = .stop g) :
    Inv (respond .ok 0 (s.modGen g drainGen)) := by
  obtain ⟨a, b, c, d, e, f, k, l⟩ := foldl_zero_frame ((s.gen g).current.slotIndices ++ (s.gen g).pending) (s.gen g)
  have hfn := filling_none h (by rw [hd]; rfl)
  have hG : (respond .ok 0 (s.modGen g drainGen)).gen g = drainGen (s.gen g) := by simp
  have hO : ∀ j, j ≠ g → (respond .ok 0 (s.modGen g drainGen)).gen j = s.gen j := fun j hj => by
    simp [State.gen_modGen_ne _ _ hj]
  have hf : ∀ j, ((respond .ok 0 (s.modGen g drainGen)).gen j).filling = none := by
    intro j; by_cases ej : j = g
    · subst ej; rw [hG]; exact d.trans (hfn _)
    · rw [hO _ ej, hfn]
  refine (inv_iff _).2 ⟨⟨fun j => ?_, fun j => ?_, fun j => ?_, fun j => ?_, fun hp => (by cases hp), fun _ hp => (by cases hp),
    fun _ _ hp => (by cases hp), fun j x y => ?_⟩, Pos.done rfl rfl⟩
  · by_cases ej : j = g
    · subst ej; rw [hG]
      refine (h.pool _).perm ?_ a b
      have e1 : (drainGen (s.gen j)).owned = (s.gen j).free ++ ((s.gen j).current.slotIndices ++ (s.gen j).pending) := by
        show (List.foldl returnZeroed (s.gen j) ((s.gen j).current.slotIndices ++ (s.gen j).pending)).free ++ [] ++ 
          (List.foldl returnZeroed (s.gen j) ((s.gen j).current.slotIndices ++ (s.gen j).pending)).filling.toList ++ [] = _
        rw [c, d, hfn]; simp
      rw [e1]
      have e2 : (s.gen j).owned = (s.gen j).free ++ ((s.gen j).pending ++ (s.gen j).current.slotIndices) := by
        simp [GenState.owned, hfn]
      rw [e2]
      exact List.Perm.append_left _ List.perm_append_comm
    · rw [hO _ ej]; exact h.pool j
  · by_cases ej : j = g
    · subst ej; rw [hG]
      exact ⟨fun x hx => by simp [drainGen] at hx, fun x hx => by simp [drainGen] at hx,
        fun _ => (by have := (h.packets _).idle hm; rw [← e] at this; exact this), fun _ => rfl⟩
    · rw [hO _ ej]; exact h.packets j
  · by_cases ej : j = g
    · subst ej; rw [hG]; exact (h.timers _).congr f k l
    · rw [hO _ ej]; exact h.timers j
  · rw [hf]; simp [holdsSlot]
  · by_cases ej : j = g
    · subst ej; rw [hG] at y; exact absurd rfl y
    · rw [hO _ ej] at x y
      obtain ⟨-, v, hv, hv2⟩ := h.rest j x y
      rw [hc] at hv; obtain rfl := Option.some.inj hv
      rw [hw] at hv2; injection hv2 with e2; exact absurd e2.symm ej

theorem stop_inv {s : State} (h : Pre s) (hd : s.host.phase = .entry) {g : Gen} (hm : (s.gen g).mode ≠ .unconfigured) {w : CommandWord}
    (hc : s.host.cmd = some w) (hw : decodeWord w = .stop g) : Inv (stopped g s) := by
  have hfn := filling_none h (by rw [hd]; rfl)
  have hG : (stopped g s).gen g = { s.gen g with full := timerShutdown (s.gen g).full, pulse := timerShutdown (s.gen g).pulse, mode := .idle } := by
    simp [stopped]
  have hO : ∀ j, j ≠ g → (stopped g s).gen j = s.gen j := fun j hj => by
    simp [stopped, State.gen_modGen_ne _ _ hj]
  have hcmd : (stopped g s).host.cmd = some w := by simp [stopped, hc]
  have hph : (stopped g s).host.phase = .drain := by simp [stopped]
  refine (inv_iff _).2 ⟨⟨fun j => ?_, fun j => ?_, fun j => ?_, fun j => ?_, fun hp => (by rw [hph] at hp; cases hp), fun _ hp => (by rw [hph] at hp; cases hp),
    fun _ _ hp => (by rw [hph] at hp; cases hp), fun j x y => ?_⟩, Pos.of hcmd ?_ (fun hp => (by rw [hph] at hp; cases hp))⟩
  · by_cases ej : j = g
    · subst ej; rw [hG]; exact (h.pool _).congr rfl rfl rfl
    · rw [hO _ ej]; exact h.pool j
  · by_cases ej : j = g
    · subst ej; rw [hG]
      exact ⟨(h.packets _).pending, (h.packets _).current, fun _ => (h.packets _).idle hm, fun hx => by cases hx⟩
    · rw [hO _ ej]; exact h.packets j
  · by_cases ej : j = g
    · subst ej; rw [hG]; exact ⟨fun _ => ⟨rfl, rfl⟩, fun hx => by cases hx⟩
    · rw [hO _ ej]; exact h.timers j
  · rw [hph]
    have : ((stopped g s).gen j).filling = (s.gen j).filling := by
      by_cases ej : j = g
      · subst ej; rw [hG]
      · rw [hO _ ej]
    rw [this, hfn]; simp [holdsSlot]
  · refine ⟨hph, w, hcmd, ?_⟩
    by_cases ej : j = g
    · rw [ej]; exact hw
    · rw [hO _ ej] at x y
      obtain ⟨z, -⟩ := h.rest j x y
      rw [hd] at z; cases z
  · rw [hw]; simp [commandPosition, hph, hG]

/-- CONFIGURE rebuilds one generator that was unconfigured (R231). -/
theorem configure_pre {s t : State} (h : Pre s) (hd : s.host.phase = .entry) {g : Gen} (hm : (s.gen g).mode = .unconfigured)
    {n : Nat} {u : GenState}
    (hu : u.free = List.range n ∧ u.pending = [] ∧ u.filling = none ∧ u.current = .none ∧ u.poolSize = n ∧ u.slots = List.replicate n Packet.zero ∧
      u.idle = idlePacket (s.gen g).idle ∧ u.mode = .idle ∧ u.full = (s.gen g).full ∧ u.pulse = (s.gen g).pulse)
    (hG : t.gen g = u) (hO : ∀ j, j ≠ g → t.gen j = s.gen j) (hph : holdsFrame t.host.phase = false) : Pre t := by
  have hfn := filling_none h (by rw [hd]; rfl)
  obtain ⟨a, b, c, d, e, f, i, m, x, y⟩ := hu
  refine ⟨fun j => ?_, fun j => ?_, fun j => ?_, fun j => ?_, fun hp => (by rw [hph] at hp; cases hp), fun _ hp => absurd hp (not_slot_publish (frame_of_slot hph)),
    fun _ _ _ _ hp => (by rw [hph] at hp; cases hp), fun j xx yy => ?_⟩
  · by_cases ej : j = g
    · subst ej; rw [hG]
      refine ⟨?_, ?_⟩
      · simp [GenState.owned, a, b, c, d, e, Current.slotIndices]
      · rw [Memory.wf_iff, f, e, List.length_replicate]
    · rw [hO _ ej]; exact h.pool j
  · by_cases ej : j = g
    · subst ej; rw [hG]
      exact ⟨fun x hx => (by rw [b] at hx; cases hx), fun x hx => (by rw [d] at hx; cases hx), fun _ => (by rw [i]; exact idlePacket_ok _), fun _ => d⟩
    · rw [hO _ ej]; exact h.packets j
  · by_cases ej : j = g
    · subst ej; rw [hG]
      have := (h.timers j).off (by rw [hm]; simp)
      exact ⟨fun _ => by rw [x, y]; exact this, fun hx => by rw [m] at hx; cases hx⟩
    · rw [hO _ ej]; exact h.timers j
  · rw [frame_of_slot hph]
    by_cases ej : j = g
    · subst ej; rw [hG, c]; simp
    · rw [hO _ ej, hfn]; simp
  · by_cases ej : j = g
    · subst ej; rw [hG] at yy; exact absurd d yy
    · rw [hO _ ej] at xx yy
      obtain ⟨z, -⟩ := h.rest j xx yy
      rw [hd] at z; cases z

theorem configureEntry_inv {s t : State} (h : Pre s) (hd : s.host.phase = .entry) {g : Gen} {pin : BitVec 8} {pool : BitVec 16} {w : CommandWord}
    (hc : s.host.cmd = some w) (hw : decodeWord w = .configure g pin pool) (he : configureEntry g pin pool s = .next t) : Inv t := by
  obtain ⟨-, rfl⟩ | ⟨hm, -, ⟨-, rfl⟩ | ⟨-, rfl⟩⟩ := configureEntry_next he
  · exact h.fault_inv _
  · have hG : (configured g (drawGpioOk (s.modGen g (createPool pin pool.toNat))).2).gen g =
      { createPool pin pool.toNat (s.gen g) with pinLevel := .low, pinMode := .output, mode := .idle } := by simp [configured]
    have hO : ∀ j, j ≠ g → (configured g (drawGpioOk (s.modGen g (createPool pin pool.toNat))).2).gen j = s.gen j := fun j hj => by
      simp [configured, State.gen_modGen_ne _ _ hj, pinWrite_gen, hj]
    have hph : (configured g (drawGpioOk (s.modGen g (createPool pin pool.toNat))).2).host.phase = .startEntry := by simp [configured]
    have hcmd : (configured g (drawGpioOk (s.modGen g (createPool pin pool.toNat))).2).host.cmd = some w := by simp [configured, hc]
    refine (inv_iff _).2 ⟨configure_pre (n := pool.toNat) (u := { createPool pin pool.toNat (s.gen g) with pinLevel := .low, pinMode := .output, mode := .idle }) h hd hm ⟨rfl, rfl, rfl, rfl, rfl, rfl, rfl, rfl, rfl, rfl⟩ hG hO (by rw [hph]; rfl),
      Pos.of hcmd ?_ (fun hp => (by rw [hph] at hp; cases hp))⟩
    rw [hw]; simp [commandPosition, hph, hG]
  · exact (inv_iff _).2 ⟨configure_pre (g := g) (n := pool.toNat) (u := { createPool pin pool.toNat (s.gen g) with mode := .idle })
      h hd hm ⟨rfl, rfl, rfl, rfl, rfl, rfl, rfl, rfl, rfl, rfl⟩ (by simp) (fun j hj => by simp [State.gen_modGen_ne _ _ hj]) rfl, Pos.done rfl rfl⟩

theorem startEntry_inv {s t : State} (h : Pre s) (hd : s.host.phase = .entry ∨ s.host.phase = .startEntry) {g : Gen} {w : CommandWord}
    (hc : s.host.cmd = some w) (hw : decodeWord w = .start g ∨ ∃ pin pool, decodeWord w = .configure g pin pool) (he : startEntry g s = .next t) : Inv t := by
  obtain ⟨-, rfl⟩ | ⟨hm, rfl⟩ := startEntry_next he
  · exact h.fault_inv _
  · refine move_inv h (fun j => by simp) (by rcases hd with hd | hd <;> rw [hd] <;> rfl) (by rcases hd with hd | hd <;> rw [hd] <;> simp) rfl (w := w) hc ?_
    rcases hw with hw | ⟨pin, pool, hw⟩ <;> rw [hw] <;> simp [commandPosition, startPhase, hm]

theorem startSteps_inv {s t : State} (h : Pre s) {g : Gen} {w : CommandWord}
    (hc : s.host.cmd = some w) (hw : decodeWord w = .start g ∨ ∃ pin pool, decodeWord w = .configure g pin pool)
    (hp : commandPosition s (decodeWord w) = true) (ht : holdsFrame s.host.phase = true → s.host.load.gen = loadTarget (decodeWord w))
    (he : startSteps g s = .next t) : Inv t := by
  have hm : (s.gen g).mode = .idle := by
    rcases hw with hw | ⟨pin, pool, hw⟩ <;> rw [hw] at hp <;> simp [commandPosition] at hp <;> exact hp.2
  have htg : loadTarget (decodeWord w) = g := by
    rcases hw with hw | ⟨pin, pool, hw⟩ <;> rw [hw] <;> rfl
  have pos : ∀ u : State, startPhase u.host.phase = true → (u.gen g).mode = .idle → commandPosition u (decodeWord w) = true := by
    intro u h1 h2
    rcases hw with hw | ⟨pin, pool, hw⟩ <;> rw [hw] <;> simp [commandPosition, h1, h2]
  have entry : ∀ (site : LoadSite) (pl : List Byte) (r : BitVec 8), s.host.phase = .load site .entry → startPhase (.load site .acquire) = true →
      lenLegal pl.length = true → (∃ i, decodeFrame (frameOf pl) = .ok i) → loadEntry g pl.length pl r site s = .next t → Inv t := by
    intro site pl r hph hsp hl hdec he
    obtain ⟨-, rfl⟩ | ⟨-, -, rfl⟩ | ⟨-, hl', -⟩ := loadEntry_next he
    · exact h.fault_inv _
    · exact load_inv h (fun j => by simp) (by rw [hph]; rfl) (by rw [hph]; simp) (site := site) rfl (w := w) hc (pos _ hsp (by simpa using hm)) (by rw [htg]; rfl)
        hl rfl (fun _ => hdec)
    · rw [hl] at hl'; cases hl'
  have stage : ∀ (site : LoadSite) (st : LoadStage) (after : State → Result), s.host.phase = .load site st → st ≠ .entry →
      (∀ i, s.host.phase = .load site .publish → (s.gen s.host.load.gen).filling = some i → after (published i s) = .next t → Inv t) →
      loadStage site after st s = .next t → Inv t := by
    intro site st after hph hst hpub he
    have htt : s.host.load.gen = loadTarget (decodeWord w) := ht (by rw [hph]; cases st <;> first | rfl | exact absurd rfl hst)
    obtain ⟨rfl, he⟩ | ⟨rfl, he⟩ | ⟨rfl, he⟩ := loadStage_next he
    · exact acquire_inv h hph hc hp htt he
    · exact fill_inv h hph hc hp htt he
    · obtain ⟨i, hi, he⟩ := loadPublish_next.1 he
      exact hpub i hph hi he
  obtain ⟨hph, he⟩ | ⟨hph, he⟩ | ⟨st, hph, hst, he⟩ | ⟨hph, he⟩ | ⟨st, hph, hst, he⟩ | ⟨hph, he⟩ := startSteps_next he
  · exact startEntry_inv h (.inr hph) hc hw he
  · exact entry _ _ _ hph rfl rfl reset_dec0 he
  · refine stage _ _ _ hph hst (fun i hph hi he => ?_) he
    obtain rfl := next_inj.1 he
    exact (inv_iff _).2 ⟨publish_pre h hph hi (fun j => by simp) rfl, Pos.of (w := w) (by simp [published, hc]) (pos _ rfl (by simpa [published_mode] using hm)) (fun hx => by cases hx)⟩
  · exact entry _ _ _ hph rfl rfl idle_dec0 he
  · refine stage _ _ _ hph hst (fun i hph hi he => ?_) he
    obtain rfl := next_inj.1 he
    exact (inv_iff _).2 ⟨publish_pre h hph hi (fun j => by simp) rfl, Pos.of (w := w) (by simp [published, hc]) (pos _ rfl (by simpa [published_mode] using hm)) (fun hx => by cases hx)⟩
  · obtain ⟨-, rfl⟩ | ⟨-, rfl⟩ := startArm_next he
    · have hcur := current_none h (g := g) (by rw [hm]; simp) (by rw [hph]; simp)
      have hfn := filling_none h (by rw [hph]; rfl)
      have hG : (respond .ok 0 ((drawTimerOk s).2.modGen g (armTimers g))).gen g = armTimers g (s.gen g) := by simp
      have hO : ∀ j, j ≠ g → (respond .ok 0 ((drawTimerOk s).2.modGen g (armTimers g))).gen j = s.gen j := fun j hj => by
        simp [State.gen_modGen_ne _ _ hj]
      refine (inv_iff _).2 ⟨⟨fun j => ?_, fun j => ?_, fun j => ?_, fun j => ?_, fun hp => (by cases hp), fun _ hp => (by cases hp),
        fun _ _ hp => (by cases hp), fun j x y => ?_⟩, Pos.done rfl rfl⟩
      · by_cases ej : j = g
        · subst ej; rw [hG]; exact (h.pool _).congr rfl rfl rfl
        · rw [hO _ ej]; exact h.pool j
      · by_cases ej : j = g
        · subst ej; rw [hG]
          exact ⟨(h.packets _).pending, (h.packets _).current, fun _ => (h.packets _).idle (by rw [hm]; simp), fun hx => by cases hx⟩
        · rw [hO _ ej]; exact h.packets j
      · by_cases ej : j = g
        · subst ej; rw [hG]; exact armTimers_inv _ _
        · rw [hO _ ej]; exact h.timers j
      · have : ((respond .ok 0 ((drawTimerOk s).2.modGen g (armTimers g))).gen j).filling = none := by
          by_cases ej : j = g
          · subst ej; rw [hG]; exact hfn _
          · rw [hO _ ej]; exact hfn _
        rw [this]; simp [holdsSlot]
      · by_cases ej : j = g
        · subst ej; rw [hG] at x; exact absurd rfl x
        · rw [hO _ ej] at x y
          have := (h.rest j x y).1
          rw [hph] at this; cases this
    · exact respond_inv h (fun j => by simp) (by rw [hph]; rfl) (by rw [hph]; simp) _ _

theorem smSteps_inv {s t : State} (h : Pre s) {w : CommandWord} {wr : Bool} {op : SmOp} {dec : Bool → State → Result}
    (hc : s.host.cmd = some w) 
    (hq : ∀ u : State, commandPosition u (decodeWord w) = (smPositions wr u.sm u.host.phase && u.sm.op == op && (u.gen .prog).mode != .unconfigured))
    (htg : loadTarget (decodeWord w) = .prog)
    (hp : commandPosition s (decodeWord w) = true) (ht : holdsFrame s.host.phase = true → s.host.load.gen = loadTarget (decodeWord w))
    (hwr : wr = true ∨ s.sm.phase ≠ .loadTrail)
    (hdec : ∀ a, s.host.phase = .sample → dec a s = .next t → Inv t)
    (he : smSteps dec s = .next t) : Inv t := by
  have hp' := hp
  rw [hq] at hp'
  simp only [Bool.and_eq_true, beq_iff_eq, bne_iff_ne] at hp'
  obtain ⟨⟨hpos, hop⟩, hm⟩ := hp'
  have pos : ∀ u : State, smPositions wr u.sm u.host.phase = true → u.sm.op = op → (u.gen .prog).mode ≠ .unconfigured → commandPosition u (decodeWord w) = true := by
    intro u h1 h2 h3
    rw [hq]; simp [h1, h2, h3]
  obtain ⟨hph, he⟩ | ⟨st, hph, hst, he⟩ | ⟨hph, he⟩ | ⟨hph, he⟩ := smSteps_next he
  · obtain ⟨-, rfl⟩ | ⟨-, rfl⟩ := smLoadEntry_next he
    · exact h.fault_inv _
    · refine load_inv h (fun j => by simp) (by rw [hph]; rfl) (by rw [hph]; simp) (site := .engine) rfl (w := w) hc (pos _ ?_ ?_ (by simpa using hm)) (by rw [htg]; rfl)
        (smLoad_legal _).1 rfl (fun _ => (smLoad_legal _).2)
      · simp only [beginLoad_phase, beginLoad_sm, State.modSm_sm, smPositions]
        rw [hph] at hpos
        simp only [smPositions] at hpos
        unfold smBegin
        split
        · split <;> rfl
        · revert hpos; cases hx : s.sm.phase <;> simp_all [smLoadPhase]
      · simp only [beginLoad_sm, State.modSm_sm]
        unfold smBegin
        split
        · split <;> (try exact hop)
        · exact hop
  · have htt : s.host.load.gen = loadTarget (decodeWord w) := ht (by rw [hph]; cases st <;> first | rfl | exact absurd rfl hst)
    obtain ⟨rfl, he⟩ | ⟨rfl, he⟩ | ⟨rfl, he⟩ := loadStage_next he
    · exact acquire_inv h hph hc hp htt he
    · exact fill_inv h hph hc hp htt he
    · obtain ⟨i, hi, he⟩ := loadPublish_next.1 he
      have hsm : (published i s).sm = s.sm := by simp [published]
      have hcm : (published i s).host = s.host := by simp [published]
      have hmm : ((published i s).gen .prog).mode ≠ .unconfigured := by rw [published_mode]; exact hm
      have key : ∀ u : State, (∀ j, u.gen j = (published i s).gen j) → u.host.cmd = some w → holdsFrame u.host.phase = false →
          smPositions wr u.sm u.host.phase = true → u.sm.op = op → Inv u := by
        intro u hu hcu hfu hpu hou
        exact (inv_iff _).2 ⟨publish_pre h hph hi hu hfu, Pos.of hcu (pos _ hpu hou (by rw [hu]; exact hmm)) (fun hx => by rw [hfu] at hx; cases hx)⟩
      obtain ⟨hx, rfl⟩ | ⟨hx, rfl⟩ | ⟨hx, -, rfl⟩ | ⟨hx, -, rfl⟩ := smAfterLoad_next he
      · exact key _ (fun j => by simp [State.toLoad]) (by simp [State.toLoad, hcm, hc]) rfl rfl (by simp [State.toLoad, hsm, hop])
      · exact key _ (fun j => by simp) (by simp [hcm, hc]) rfl (by simp [smPositions]) (by simp [hsm, hop])
      · exact key _ (fun j => by simp [State.toLoad]) (by simp [State.toLoad, hcm, hc]) rfl rfl (by simp [State.toLoad, hsm, hop])
      · rw [hsm] at hx
        obtain rfl : wr = true := by rcases hwr with h | h; exact h; exact absurd hx h
        exact key _ (fun j => by simp) (by simp [hcm, hc]) rfl rfl (by simp [hsm, hop])
  · obtain ⟨-, rfl⟩ | ⟨-, rfl⟩ := smPoll_next he
    · exact move_inv h (fun j => by simp) (by rw [hph]; rfl) (by rw [hph]; simp) rfl (w := w) hc (pos _ (by simp [smPositions]) (by simp [hop]) (by simpa using hm))
    · refine move_inv h (fun j => by simp) (by rw [hph]; rfl) (by rw [hph]; simp) rfl (w := w) hc (pos _ ?_ (by simp [hop]) (by simpa using hm))
      rw [hph] at hpos; simpa using hpos
  · obtain ⟨-, rfl⟩ | ⟨-, he⟩ := smSample_next he
    · refine move_inv h (fun j => by simp) (by rw [hph]; rfl) (by rw [hph]; simp) (by simp [hph]; rfl) (w := w) (by simpa using hc) (pos _ ?_ ?_ (by simpa using hm))
      · rw [hph] at hpos
        simp only [smPositions, beq_iff_eq] at hpos
        simp only [delay_phase, State.modSm_host, drawAdc_host, hph, smPositions, delay_sm, State.modSm_sm, drawAdc_sm, countSample]
        split <;> simpa using hpos
      · simp only [delay_sm, State.modSm_sm, drawAdc_sm, countSample]
        split <;> exact hop
    · exact hdec _ hph he

theorem read_dec {s t : State} (h : Pre s) {w : CommandWord} {cv : BitVec 11} (hw : decodeWord w = .readCv cv) (hc : s.host.cmd = some w)
    (hp : commandPosition s (decodeWord w) = true) {a : Bool} (hph : s.host.phase = .sample) (he : readDecide a s = .next t) : Inv t := by
  rw [hw] at hp
  simp only [commandPosition, Bool.and_eq_true, beq_iff_eq, bne_iff_ne] at hp
  obtain ⟨-, rfl⟩ | ⟨-, he⟩ := readDecide_next he
  · refine move_inv h (fun j => by simp [State.toLoad]) (by rw [hph]; rfl) (by rw [hph]; simp) rfl (w := w) (by simp [State.toLoad, hc]) ?_
    rw [hw]; simp [commandPosition, State.toLoad, smPositions, smLoadPhase, hp.1.2, hp.2]
  · obtain rfl := smRespond_next.1 he
    exact respond_inv h (fun j => by simp) (by rw [hph]; rfl) (by rw [hph]; simp) _ _

theorem write_dec {s t : State} (h : Pre s) {w : CommandWord} {op : SmOp} (hc : s.host.cmd = some w)
    (hq : ∀ u : State, commandPosition u (decodeWord w) = (smPositions true u.sm u.host.phase && u.sm.op == op && (u.gen .prog).mode != .unconfigured))
    (hp : commandPosition s (decodeWord w) = true) {a : Bool} (hph : s.host.phase = .sample) (he : writeDecide a s = .next t) : Inv t := by
  rw [hq] at hp
  simp only [Bool.and_eq_true, beq_iff_eq, bne_iff_ne] at hp
  obtain ⟨-, -, he⟩ | ⟨-, -, rfl⟩ | ⟨-, rfl⟩ := writeDecide_next he
  · obtain rfl := smRespond_next.1 he
    exact respond_inv h (fun j => by simp) (by rw [hph]; rfl) (by rw [hph]; simp) _ _
  · refine move_inv h (fun j => by simp [State.toLoad]) (by rw [hph]; rfl) (by rw [hph]; simp) rfl (w := w) (by simp [State.toLoad, hc]) ?_
    rw [hq]; simp [State.toLoad, smPositions, smLoadPhase, hp.1.2, hp.2]
  · refine move_inv h (fun j => by simp [State.toLoad]) (by rw [hph]; rfl) (by rw [hph]; simp) rfl (w := w) (by simp [State.toLoad, hc]) ?_
    rw [hq]; simp [State.toLoad, smPositions, smLoadPhase, hp.1.2, hp.2]

theorem smEntry_inv {s t : State} (h : Pre s) {w : CommandWord} {op : SmOp} {wr : Bool} (hc : s.host.cmd = some w) {cv : BitVec 11} {b : BitVec 3} {v : BitVec 8}
    (hq : ∀ u : State, commandPosition u (decodeWord w) = (smPositions wr u.sm u.host.phase && u.sm.op == op && (u.gen .prog).mode != .unconfigured))
    (hph : s.host.phase = .entry) (he : smEntry op cv b v s = .next t) : Inv t := by
  obtain rfl | ⟨hm, -, -, rfl⟩ := smEntry_next he
  · exact h.fault_inv _
  · refine move_inv h (fun j => by cases j <;> rfl) (by rw [hph]; rfl) (by rw [hph]; simp) rfl (w := w) hc ?_
    rw [hq]
    have : ((smEntered op cv b v s).gen .prog).mode = (s.gen .prog).mode := rfl
    rw [this]
    simp [smEntered, smPositions, smLoadPhase, hm]

theorem writeSteps_inv {s t : State} (h : Pre s) {w : CommandWord} {op : SmOp} (hc : s.host.cmd = some w)
    (hq : ∀ u : State, commandPosition u (decodeWord w) = (smPositions true u.sm u.host.phase && u.sm.op == op && (u.gen .prog).mode != .unconfigured))
    (htg : loadTarget (decodeWord w) = .prog)
    (hp : commandPosition s (decodeWord w) = true) (ht : holdsFrame s.host.phase = true → s.host.load.gen = loadTarget (decodeWord w))
    (he : writeSteps s = .next t) : Inv t := by
  obtain ⟨hph, he⟩ | ⟨-, he⟩ := writeSteps_next he
  · obtain rfl := smRespond_next.1 he
    exact respond_inv h (fun j => by simp) (by rw [hph]; rfl) (by rw [hph]; simp) _ _
  · exact smSteps_inv h hc hq htg hp ht (.inl rfl) (fun a hph he => write_dec h hc hq hp hph he) he

theorem host_cmd_inv {s t : State} {w : CommandWord} (h : Pre s) (hc : s.host.cmd = some w)
    (hp : s.host.phase = .entry ∨ (commandPosition s (decodeWord w) = true ∧ (holdsFrame s.host.phase = true → s.host.load.gen = loadTarget (decodeWord w))))
    (he : exec (decodeWord w) s = .next t) : Inv t := by
  obtain ⟨n1, n2, n3⟩ := decodeWord_host w
  cases hw : decodeWord w with
  | configure g pin pool =>
    rw [hw] at he
    obtain ⟨hf, ⟨hph, he⟩ | ⟨hph, he⟩⟩ := execConfigure_next he
    · exact configureEntry_inv h hph hc hw he
    · obtain hp | ⟨hp, ht⟩ := hp
      · exact absurd hp hph
      · exact startSteps_inv h hc (.inr ⟨_, _, hw⟩) hp ht he
  | start g =>
    rw [hw] at he
    obtain ⟨hf, ⟨hph, he⟩ | ⟨hph, -, he⟩⟩ := execStart_next he
    · exact startEntry_inv h (.inl hph) hc (.inl hw) he
    · obtain hp | ⟨hp, ht⟩ := hp
      · exact absurd hp hph
      · exact startSteps_inv h hc (.inl hw) hp ht he
  | stop g =>
    rw [hw] at he
    obtain ⟨hf, ⟨-, -, rfl⟩ | ⟨hph, hm, rfl⟩ | ⟨hph, rfl⟩⟩ := execStop_next he
    · exact h.fault_inv _
    · exact stop_inv h hph hm hc hw
    · obtain hp | ⟨hp, ht⟩ := hp
      · rw [hph] at hp; cases hp
      · rw [hw] at hp
        refine drain_inv h hph ?_ hc hw
        simp [commandPosition] at hp
        rw [hp.2]; simp
  | loadPacket g len rep p0 p1 p2 p3 p4 =>
    rw [hw] at he
    obtain ⟨hf, ⟨hph, he⟩ | ⟨st, hph, he⟩⟩ := execLoadPacket_next he
    · obtain ⟨-, rfl⟩ | ⟨-, hl, rfl⟩ | ⟨-, -, rfl⟩ := loadEntry_next he
      · exact h.fault_inv _
      · exact load_inv h (fun j => by simp) (by rw [hph]; rfl) (by rw [hph]; simp) (site := .caller) rfl (w := w) hc (by rw [hw]; rfl) (by rw [hw]; rfl)
          (by rw [payloadOf_length hl]; exact hl) rfl (fun hx => absurd rfl hx)
      · exact respond_inv h (fun j => rfl) (by rw [hph]; rfl) (by rw [hph]; simp) _ _
    · obtain hp | ⟨hp, ht⟩ := hp
      · rw [hph] at hp; cases hp
      · have htt : st ≠ .entry → s.host.load.gen = loadTarget (decodeWord w) := fun hst => ht (by rw [hph]; cases st <;> first | rfl | exact absurd rfl hst)
        obtain ⟨rfl, he2⟩ | ⟨rfl, he2⟩ | ⟨rfl, he2⟩ := loadStage_next he
        · exact acquire_inv h hph hc hp (htt (by simp)) he2
        · exact fill_inv h hph hc hp (htt (by simp)) he2
        · obtain ⟨i, hi, he3⟩ := loadPublish_next.1 he2
          obtain rfl := next_inj.1 he3
          exact (inv_iff _).2 ⟨publish_pre h hph hi (fun j => by simp) rfl, Pos.done rfl rfl⟩
  | isEmpty g =>
    rw [hw] at he
    obtain ⟨hf, hph, ⟨-, rfl⟩ | ⟨-, rfl⟩⟩ := execIsEmpty_next he
    · exact h.fault_inv _
    · exact respond_inv h (fun j => rfl) (by rw [hph]; rfl) (by rw [hph]; simp) _ _
  | waitEmpty g =>
    rw [hw] at he
    obtain ⟨hf, ⟨-, -, rfl⟩ | ⟨hph, ⟨-, rfl⟩ | ⟨-, rfl⟩⟩⟩ := execWaitEmpty_next he
    · exact h.fault_inv _
    · have h1 : s.host.phase = .entry ∨ s.host.phase = .poll := hph.imp_left (·.1)
      exact respond_inv h (fun j => rfl) (by rcases h1 with h1 | h1 <;> rw [h1] <;> rfl) (by rcases h1 with h1 | h1 <;> rw [h1] <;> simp) _ _
    · have h1 : s.host.phase = .entry ∨ s.host.phase = .poll := hph.imp_left (·.1)
      exact move_inv h (fun j => by simp) (by rcases h1 with h1 | h1 <;> rw [h1] <;> rfl) (by rcases h1 with h1 | h1 <;> rw [h1] <;> simp)
        rfl (w := w) hc (by rw [hw]; rfl)
  | readCv cv =>
    rw [hw] at he
    have hq : ∀ u : State, commandPosition u (decodeWord w) = (smPositions false u.sm u.host.phase && u.sm.op == .readCv && (u.gen .prog).mode != .unconfigured) := by
      intro u; rw [hw]; rfl
    obtain ⟨hf, ⟨hph, he⟩ | ⟨hph, he⟩⟩ := execReadCv_next he
    · exact smEntry_inv h hc hq hph he
    · obtain hp | ⟨hp, ht⟩ := hp
      · exact absurd hp hph
      · by_cases htr : s.sm.phase = .loadTrail
        · exfalso
          rw [hq] at hp
          simp only [Bool.and_eq_true, beq_iff_eq, bne_iff_ne] at hp
          have := hp.1.1
          revert he
          cases hx : s.host.phase with
          | load a b => cases a <;> simp [hx, smPositions, smLoadPhase, htr] at this
          | _ => simp [hx, smPositions, htr] at this
        · exact smSteps_inv h hc hq (by rw [hw]; rfl) hp ht (.inr htr) (fun a hph he => read_dec h hw hc hp hph he) he
  | writeProgCvByte cv v =>
    rw [hw] at he
    have hq : ∀ u : State, commandPosition u (decodeWord w) = (smPositions true u.sm u.host.phase && u.sm.op == .writeByte && (u.gen .prog).mode != .unconfigured) := by
      intro u; rw [hw]; rfl
    obtain ⟨hf, ⟨hph, he⟩ | ⟨hph, he⟩⟩ := execWriteProgCvByte_next he
    · exact smEntry_inv h hc hq hph he
    · obtain hp | ⟨hp, ht⟩ := hp
      · exact absurd hp hph
      · exact writeSteps_inv h hc hq (by rw [hw]; rfl) hp ht he
  | writeProgCvBit cv b v =>
    rw [hw] at he
    have hq : ∀ u : State, commandPosition u (decodeWord w) = (smPositions true u.sm u.host.phase && u.sm.op == .writeBit && (u.gen .prog).mode != .unconfigured) := by
      intro u; rw [hw]; rfl
    obtain ⟨hf, ⟨hph, he⟩ | ⟨hph, he⟩⟩ := execWriteProgCvBit_next he
    · exact smEntry_inv h hc hq hph he
    · obtain hp | ⟨hp, ht⟩ := hp
      · exact absurd hp hph
      · exact writeSteps_inv h hc hq (by rw [hw]; rfl) hp ht he
  | illegal v =>
    rw [hw] at he
    obtain ⟨hf, rfl⟩ := execIllegal_next (w := v) he
    exact h.fault_inv _
  | irqFull g => exact absurd hw (n1 g)
  | irqPulse g => exact absurd hw (n2 g)
  | dccReset => exact absurd (by rw [hw]; rfl) (n3 resetFrame)
  | dccIdle => exact absurd (by rw [hw]; rfl) (n3 idleFrame)
  | smVerifyByte a d x => exact absurd (by rw [hw]; rfl) (n3 (verifyByteFrame a d x))
  | smWriteByte a d x => exact absurd (by rw [hw]; rfl) (n3 (writeByteFrame a d x))
  | smVerifyBit a v b x => exact absurd (by rw [hw]; rfl) (n3 (verifyBitFrame a v b x))
  | smWriteBit a v b x => exact absurd (by rw [hw]; rfl) (n3 (writeBitFrame a v b x))

/-- The host's step is exec of the command in execution, at a state with the same generators and engine (R33). -/
theorem host_step {s : State} (h : Inv s) (hf : s.faulted = none) (he : hostEnabled s = true) :
    ∃ w u, u.host.cmd = some w ∧ u.faulted = none ∧ Pre u ∧ u.gen = s.gen ∧ u.sm = s.sm ∧
      (u.host.phase = .entry ∨ (commandPosition u (decodeWord w) = true ∧ (holdsFrame u.host.phase = true → u.host.load.gen = loadTarget (decodeWord w)))) ∧
      runAgent .host s = exec (decodeWord w) u := by
  have hh := (inv_iff s).1 h
  obtain ⟨w, ws, hc, hi, hfe⟩ | ⟨w, hc, hfe⟩ := hostFetch_cases he
  · refine ⟨w, { s with
        host := { s.host with cmd := some w, phase := .entry, wakeAt := 0 }, inputs := { s.inputs with cmds := ws } }, rfl, hf, ?_, rfl, rfl, .inl rfl, ?_⟩
    · have hph := h.host.ready hf hc
      exact hh.1.move (fun g => by cases g <;> rfl) (by rw [hph]; rfl) rfl (by rw [hph]; simp) (fun hx => by cases hx)
    · rw [runAgent, hfe]
  · have hpos := h.host.position hf w hc
    have e : ∀ j, commandPosition { s with host := { s.host with wakeAt := 0 } } j = commandPosition s j := by
      intro j; cases j <;> rfl
    refine ⟨w, { s with host := { s.host with wakeAt := 0 } }, hc, hf, ?_, rfl, rfl, .inr ⟨by rw [e]; exact hpos, fun hx => h.host.target hf hx w hc⟩, ?_⟩
    · exact ⟨hh.1.pool, hh.1.packets, hh.1.timers, hh.1.filling, hh.1.frame, hh.1.publish, hh.1.bootFrame, hh.1.rest⟩
    · rw [runAgent, hfe]
      by_cases hx : ∀ site, s.host.phase = .load site .fill → site = .caller
      · rw [hostInstr_word hx]
      · push Not at hx
        obtain ⟨site, hph, hne⟩ := hx
        obtain ⟨i, hi⟩ := h.host.bootFrame _ _ hph hne (by rw [hph]; rfl)
        rw [hostInstr_frame hph hne hi]
        show exec i _ = _
        rw [exec_frame (decodeFrame_sound hi), exec_fill_eq_frame (s := { s with host := { s.host with wakeAt := 0 } }) (by rw [e]; exact hpos) (site := site) hph]

end Sys2Proof.Machine
end

