-- ==== Sys2Proof/Laws/PerInstr.lean ====
section
/-! SUPPORT. The statements made for all instructions, one lemma per constructor. Family `LawfulCode`: the code of a well-formed
instruction is a legal one: a command's word fits its row of the table, ILLEGAL's fits none (R81, R82), and a frame has three or four
bytes whose XOR is 0 (R87, R88, R89). -/

namespace Sys2Proof.Laws.LawfulCode

open Sys2Proof.Machine

/-- A word spells a command unless the instruction is ILLEGAL (R82); a frame's bytes XOR to 0 (R87); an interrupt's entry point is fixed by
its source (R330). -/
def Statement (i : Instr) : Prop :=
  i.wf = true →
    match encode i with
    | .word w => spellsCommand w = true ∨ (i = .illegal w ∧ spellsCommand w = false)
    | .frame bytes => (bytes.length = 3 ∨ bytes.length = 4) ∧ checksum bytes = 0
    | .interrupt k g => i = decodeInterrupt k g

/-! ### The words of the commands fit their rows (R81) -/

theorem fits_configure (g : Gen) (pin : BitVec 8) (pool : BitVec 16) :
    rowConfigure.fits (0x1#4 ++ g.code ++ 0#11 ++ pin ++ 0#8 ++ pool ++ 0#16) = true := by
  simp only [CommandRow.fits, rowConfigure, beq_iff_eq]
  refine BitVec.eq_of_getLsbD_eq fun i hi => ?_
  interval_cases i <;> (simp only [BitVec.getLsbD_and, BitVec.getLsbD_append]; simp)

theorem fits_loadPacket (g : Gen) (len : BitVec 3) (rep : BitVec 8) (p0 p1 p2 p3 p4 : Byte) :
    rowLoadPacket.fits (0x4#4 ++ g.code ++ len ++ rep ++ p0 ++ p1 ++ p2 ++ p3 ++ p4 ++ 0#8) = true := by
  simp only [CommandRow.fits, rowLoadPacket, beq_iff_eq]
  refine BitVec.eq_of_getLsbD_eq fun i hi => ?_
  interval_cases i <;> (simp only [BitVec.getLsbD_and, BitVec.getLsbD_append]; simp)

theorem fits_readCv (cv : BitVec 11) : rowReadCv.fits (0x7#4 ++ 0#17 ++ cv ++ 0#32) = true := by
  simp only [CommandRow.fits, rowReadCv, beq_iff_eq]
  refine BitVec.eq_of_getLsbD_eq fun i hi => ?_
  interval_cases i <;> (simp only [BitVec.getLsbD_and, BitVec.getLsbD_append]; simp)

theorem fits_writeProgCvByte (cv : BitVec 11) (val : Byte) :
    rowWriteProgCvByte.fits (0x8#4 ++ 0#17 ++ cv ++ 0#24 ++ val) = true := by
  simp only [CommandRow.fits, rowWriteProgCvByte, beq_iff_eq]
  refine BitVec.eq_of_getLsbD_eq fun i hi => ?_
  interval_cases i <;> (simp only [BitVec.getLsbD_and, BitVec.getLsbD_append]; simp)

theorem fits_writeProgCvBit (cv : BitVec 11) (bit : BitVec 3) (val : Bool) :
    rowWriteProgCvBit.fits (0x9#4 ++ 0#17 ++ cv ++ 0#21 ++ bit ++ 0#7 ++ BitVec.ofBool val) = true := by
  simp only [CommandRow.fits, rowWriteProgCvBit, beq_iff_eq]
  refine BitVec.eq_of_getLsbD_eq fun i hi => ?_
  interval_cases i <;> (simp only [BitVec.getLsbD_and, BitVec.getLsbD_append]; simp)

/-- A word that fits a row of the table spells a command (R82). -/
theorem spells_of_fits {r : CommandRow} (hr : r ∈ tableRows) {w : CommandWord} (h : r.fits w = true) : spellsCommand w = true :=
  List.any_eq_true.2 ⟨r, hr, h⟩

/-! ### One lemma per constructor -/

theorem configure (g : Gen) (pin : BitVec 8) (pool : BitVec 16) : Statement (.configure g pin pool) := fun _ =>
  .inl (spells_of_fits (r := rowConfigure) (by decide) (fits_configure g pin pool))

theorem start (g : Gen) : Statement (.start g) := fun _ => .inl (by cases g <;> decide)

theorem stop (g : Gen) : Statement (.stop g) := fun _ => .inl (by cases g <;> decide)

theorem loadPacket (g : Gen) (len : BitVec 3) (rep : BitVec 8) (p0 p1 p2 p3 p4 : Byte) :
    Statement (.loadPacket g len rep p0 p1 p2 p3 p4) := fun _ =>
  .inl (spells_of_fits (r := rowLoadPacket) (by decide) (fits_loadPacket g len rep p0 p1 p2 p3 p4))

theorem isEmpty (g : Gen) : Statement (.isEmpty g) := fun _ => .inl (by cases g <;> decide)

theorem waitEmpty (g : Gen) : Statement (.waitEmpty g) := fun _ => .inl (by cases g <;> decide)

theorem readCv (cv : BitVec 11) : Statement (.readCv cv) := fun _ =>
  .inl (spells_of_fits (r := rowReadCv) (by decide) (fits_readCv cv))

theorem writeProgCvByte (cv : BitVec 11) (val : Byte) : Statement (.writeProgCvByte cv val) := fun _ =>
  .inl (spells_of_fits (r := rowWriteProgCvByte) (by decide) (fits_writeProgCvByte cv val))

theorem writeProgCvBit (cv : BitVec 11) (bit : BitVec 3) (val : Bool) : Statement (.writeProgCvBit cv bit val) := fun _ =>
  .inl (spells_of_fits (r := rowWriteProgCvBit) (by decide) (fits_writeProgCvBit cv bit val))

theorem illegal (w : CommandWord) : Statement (.illegal w) := fun h => .inr ⟨rfl, by simpa [Instr.wf] using h⟩

theorem irqFull (g : Gen) : Statement (.irqFull g) := fun _ => rfl

theorem irqPulse (g : Gen) : Statement (.irqPulse g) := fun _ => rfl

theorem dccReset : Statement .dccReset := fun _ => ⟨.inl rfl, by decide⟩

theorem dccIdle : Statement .dccIdle := fun _ => ⟨.inl rfl, by decide⟩

/-- The six header bits over the address's top two bits are the byte with those header bits, and that address part in it (R89). -/
theorem smByte0_eq (h : BitVec 6) (a : BitVec 10) : smByte0 h a = (h ++ 0#2) ||| (a >>> 8).setWidth 8 := by
  refine BitVec.eq_of_getLsbD_eq fun i hi => ?_
  interval_cases i <;> (simp only [smByte0, BitVec.getLsbD_or, BitVec.getLsbD_append]; simp)

theorem smByte1_eq (a : BitVec 10) : smByte1 a = a.setWidth 8 := by
  refine BitVec.eq_of_getLsbD_eq fun i hi => ?_
  interval_cases i <;> simp [smByte1]

theorem smBitByte_eq (h : BitVec 4) (v : Bool) (b : BitVec 3) : smBitByte h v b = bitThird (h ++ 0#4) v b := by
  refine BitVec.eq_of_getLsbD_eq fun i hi => ?_
  cases v <;> interval_cases i <;> (simp only [smBitByte, bitThird, BitVec.getLsbD_or, BitVec.getLsbD_append]; simp)

theorem checksum_four (b0 b1 b2 : Byte) : checksum [b0, b1, b2, b0 ^^^ b1 ^^^ b2] = 0 := by
  simp [checksum]

theorem smVerifyByte (a : BitVec 10) (d x : Byte) : Statement (.smVerifyByte a d x) := fun h => by
  refine ⟨.inr rfl, ?_⟩
  have hx : x = frameChecksum 0x74 a d := by simpa [Instr.wf] using h
  rw [hx, verifyByteFrame, smByte0_eq, smByte1_eq]
  exact checksum_four _ _ _

theorem smWriteByte (a : BitVec 10) (d x : Byte) : Statement (.smWriteByte a d x) := fun h => by
  refine ⟨.inr rfl, ?_⟩
  have hx : x = frameChecksum 0x7C a d := by simpa [Instr.wf] using h
  rw [hx, writeByteFrame, smByte0_eq, smByte1_eq]
  exact checksum_four _ _ _

theorem smVerifyBit (a : BitVec 10) (v : Bool) (b : BitVec 3) (x : Byte) : Statement (.smVerifyBit a v b x) := fun h => by
  refine ⟨.inr rfl, ?_⟩
  have hx : x = frameChecksum 0x78 a (bitThird 0xE0 v b) := by simpa [Instr.wf] using h
  rw [hx, verifyBitFrame, smByte0_eq, smByte1_eq, smBitByte_eq]
  exact checksum_four _ _ _

theorem smWriteBit (a : BitVec 10) (v : Bool) (b : BitVec 3) (x : Byte) : Statement (.smWriteBit a v b x) := fun h => by
  refine ⟨.inr rfl, ?_⟩
  have hx : x = frameChecksum 0x78 a (bitThird 0xF0 v b) := by simpa [Instr.wf] using h
  rw [hx, writeBitFrame, smByte0_eq, smByte1_eq, smBitByte_eq]
  exact checksum_four _ _ _

end Sys2Proof.Laws.LawfulCode
end

