-- ==== Sys2Proof/Tests/Slice0.lean ====
section
/-! SUPPORT. Small tests: expected results are the spec's worked examples and vectors (95_test_vectors.md, named V-..; R95, R287), and one
witness for every statement with hypotheses. -/

namespace Sys2Proof.Tests

open Sys2Proof Sys2Proof.Machine

/-! ### Small states -/

/-- A generator at power-on with its pin LOW. -/
def offGen : GenState := GenState.powerOn .low

/-- A configured generator with `n` free slots, Idle. -/
def idleGen (n : Nat) : GenState := { createPool 4 n offGen with mode := .idle, pinMode := .output }

/-- V-S2's packet, in a fresh slot. -/
def packetS2 : Packet := fillPacket Packet.zero [0x03, 0x3F, 0x80, 0xBC] 0

/-- A running generator of two slots, its timers just armed, with V-S2's packet pending in slot 0. -/
def runGen : GenState :=
  armTimers .ops { idleGen 2 with slots := [packetS2, Packet.zero], free := [1], pending := [0] }

/-- The running generator with slot 0 current at bit `bit`, `r` repeats left and `q` pending. -/
def playGen (bit r : BitVec 8) (q : List Nat) : GenState :=
  { runGen with
    slots := [{ packetS2 with currentBit := bit, repeats := r }, packetS2], free := [], pending := q, current := .slot 0 }

/-- A block at a host position, with its two generators. -/
def block (ops prog : GenState) (cmd : Option CommandWord) (phase : HostPhase) : State where
  now := 7
  ops := ops
  prog := prog
  host := { cmd := cmd, phase := phase, wakeAt := 0, resp := none
            load := { gen := .prog, frame := [0x00, 0x00, 0x00], repeats := 3 } }
  sm := { SmState.powerOn with op := .readCv, cv := 1, thr := 245, attempt := 5 }
  trace := []
  faulted := none
  inputs := { cmds := [], sched := [], adc := [255, 0], gpioOk := [true, false], timerOk := [true, false], draws := 0, passed := 0, waits := 0 }
  params := { maxMaProg := 1000, emptyPollUs := 1000, isrLatencyMax := 0 }

/-- A PROG generator that holds slot 1 for a load. -/
def holdGen : GenState := { idleGen 2 with free := [0], filling := some 1 }

/-- A PROG generator with nothing free. -/
def fullGen : GenState := { idleGen 2 with free := [], pending := [0, 1] }

/-- The state a result answers, if it answers one. -/
def after : Host.Outcome State Fault Refusal → Option State
  | .next t => some t
  | _ => none

/-- The response and the fault mark after a result. -/
def outcome (r : Host.Outcome State Fault Refusal) : Option (Option ResponseWord × Option FaultReason) :=
  (after r).map fun t => (t.host.resp, t.faulted)

/-- The block with an interrupt latched on OPS. -/
def latched (k : TimerKind) (s : State) : State :=
  s.modGen .ops fun G => G.setTimer k { G.timer k with latched := true }

/-- The block with a schedule. -/
def scheduled (l : List Agent) (s : State) : State := { s with inputs := { s.inputs with sched := l } }

/-! ### WellFormed: ill-formed terms are refused -/

theorem test_wf_refuses_command_as_illegal : (Instr.illegal 0x2800000000000000).wf = false := by decide
theorem test_wf_refuses_verify_byte_checksum : (Instr.smVerifyByte 0 0x01 0x74).wf = false := by decide
theorem test_wf_refuses_write_byte_checksum : (Instr.smWriteByte 6 0x55 0x2E).wf = false := by decide
theorem test_wf_refuses_verify_bit_checksum : (Instr.smVerifyBit 28 true 5 0x99).wf = false := by decide
theorem test_wf_refuses_write_bit_checksum : (Instr.smWriteBit 28 true 5 0x89).wf = false := by decide

/-! ### Decoding: words of R95, V-E and R287 -/

theorem test_decode_configure : decodeTableWord 64 0x1800190000400000 = some (.configure .prog 25 64) := by decide
theorem test_decode_start : decodeTableWord 64 0x2800000000000000 = some (.start .prog) := by decide
theorem test_decode_stop : decodeTableWord 64 0x3000000000000000 = some (.stop .ops) := by decide
theorem test_decode_load_packet :
    decodeTableWord 64 0x4504CBB8EC1C0600 = some (.loadPacket .ops 5 4 0xCB 0xB8 0xEC 0x1C 0x06) := by decide
theorem test_decode_is_empty : decodeTableWord 64 0x5800000000000000 = some (.isEmpty .prog) := by decide
theorem test_decode_wait_empty : decodeTableWord 64 0x6000000000000000 = some (.waitEmpty .ops) := by decide
theorem test_decode_read_cv : decodeTableWord 64 0x700007FF00000000 = some (.readCv 2047) := by decide
theorem test_decode_write_prog_cv_byte :
    decodeTableWord 64 0x80000400000000FF = some (.writeProgCvByte 1024 0xFF) := by decide
theorem test_decode_write_prog_cv_bit :
    decodeTableWord 64 0x9000000700000701 = some (.writeProgCvBit 7 7 true) := by decide
theorem test_decode_illegal_bit_above_cv :
    decodeTableWord 64 0x7000080000000000 = some (.illegal 0x7000080000000000) := by decide
theorem test_decode_irq_full : decode (.interrupt .full .prog) = .ok (.irqFull .prog) := by decide
theorem test_decode_irq_pulse : decode (.interrupt .pulse .ops) = .ok (.irqPulse .ops) := by decide
theorem test_decode_dcc_reset : decodeTableWord 24 0x000000 = some .dccReset := by decide
theorem test_decode_dcc_idle : decodeTableWord 24 0xFF00FF = some .dccIdle := by decide
theorem test_decode_sm_verify_byte : decodeTableWord 32 0x74065527 = some (.smVerifyByte 6 0x55 0x27) := by decide
theorem test_decode_sm_write_byte : decodeTableWord 32 0x7FFFFF7F = some (.smWriteByte 1023 0xFF 0x7F) := by decide
theorem test_decode_sm_verify_bit : decodeTableWord 32 0x7806EF91 = some (.smVerifyBit 6 true 7 0x91) := by decide
theorem test_decode_sm_write_bit : decodeTableWord 32 0x7806FF81 = some (.smWriteBit 6 true 7 0x81) := by decide

/-- V-E's IllegalCommand rows, each with its reason. -/
theorem test_decode_rejects :
    [0x4300033F80000001, 0x2000000000000001, 0x9000001D00000502, 0x7800000100000000, 0x0, 0xA000000000000000,
      0xFFFFFFFFFFFFFFFF].map decodeCommand =
    [.error .reservedBitSet, .error .reservedBitSet, .error .reservedBitSet, .error .serviceGenerator, .error .unassignedOpcode,
      .error .unassignedOpcode, .error .unassignedOpcode] := by decide

/-- R95's words, from the encoder. -/
theorem test_encode_words :
    [Instr.configure .prog 25 64, .loadPacket .ops 3 0 0x03 0x3F 0x80 0 0, .readCv 1024, .writeProgCvByte 7 0x55,
      .writeProgCvBit 29 5 true].map encode =
    [.word 0x1800190000400000, .word 0x4300033F80000000, .word 0x7000040000000000, .word 0x8000000700000055,
      .word 0x9000001D00000501] := by decide

/-! ### Serializer, checksum and ACK computations -/

/-- V-C: the buffer of `CB B8 EC 1C 06`. -/
theorem test_fill_six_bytes :
    (fillPacket Packet.zero (frameOf [0xCB, 0xB8, 0xEC, 0x1C, 0x06]) 4).buffer =
      (#v[0xFF, 0xFF, 0xFD, 0x96, 0xB8, 0x76, 0x07, 0x00, 0xC8, 0x50] : Buffer) := by decide

/-- V-C5: a slot used again keeps its bits past the new frame. -/
theorem test_fill_keeps_old_bits :
    (fillPacket { Packet.zero with buffer := Vector.replicate 10 0xFF } (frameOf [0x01, 0x02]) 1).buffer =
      (#v[0xFF, 0xFF, 0xFC, 0x02, 0x02, 0x01, 0xFF, 0xFF, 0xFF, 0xFF] : Buffer) := by decide

/-- V-A1. -/
theorem test_thresholds : [1, 60, 61, 1000, 2500, 65535].map ackThreshold = [245760, 4096, 4028, 245, 98, 3] := by decide

/-- V-A2. -/
theorem test_ack_decide :
    [(0, 0), (61250, 250), (61500, 250), (765, 3), (1012, 250), (246, 1), (65100, 250)].map (fun x => ackDecide x.1 x.2 245) =
      [false, false, true, true, false, true, true] := by decide

/-- V-SM1: `VERIFY_BIT(1, 1, 7)` and `WRITE_BYTE(1024, 0xFF)`. -/
theorem test_engine_frames :
    frameOf (verifyBit 1 true 7) = [0x78, 0x00, 0xEF, 0x97] ∧ frameOf (writeByte 1024 0xFF) = [0x7F, 0xFF, 0xFF, 0x7F] := by decide

/-! ### One step of each instruction -/

/-- V-E: a pool of 1 violates the contract. -/
theorem test_configure_pool_of_one :
    outcome (exec (.configure .ops 19 1) (block offGen offGen none .entry)) = some (none, some .contractViolation) := by decide

/-- V-G2's first step with a true draw: the pin is driven LOW at the time of the step (V-G1). -/
theorem test_configure_drives_pin_low :
    (after (exec (.configure .prog 25 64) (block offGen offGen none .entry))).map (·.trace) =
      some [{ time := 7, gen := .prog, level := .low }] := by decide

/-- V-G5: START on Running. -/
theorem test_start_running :
    outcome (exec (.start .ops) (block runGen offGen none .entry)) = some (none, some .contractViolation) := by decide

/-- V-G3: a failed timer setup. -/
theorem test_start_timer_failure :
    outcome (exec (.start .ops) { block (idleGen 2) offGen none .arm with
      inputs := { cmds := [], sched := [], adc := [], gpioOk := [], timerOk := [false], draws := 0, passed := 0, waits := 0 } }) =
      some (some 0x0200000000000000, none) := by decide

/-- V-G6: the wait of STOP. -/
theorem test_stop_waits :
    (after (exec (.stop .ops) (block runGen offGen none .entry))).map (fun t => (t.host.wakeAt, t.ops.full.attached)) =
      some (250007, false) := by decide

/-- V-G7: the current slot is returned by the drain, before the pending ones. -/
theorem test_stop_drains :
    (after (exec (.stop .ops) (block (playGen 58 0 [1]) offGen none .drain))).map (fun t => (t.ops.free, t.ops.pending)) =
      some ([0, 1], []) := by decide

/-- V-C4: `LEN = 6` and `LEN = 7`. -/
theorem test_load_packet_long :
    outcome (exec (.loadPacket .ops 6 0 1 2 3 4 5) (block (idleGen 2) offGen none .entry)) =
      some (some 0x0100000000000000, none) ∧
    outcome (exec (.loadPacket .ops 7 0 1 2 3 4 5) (block (idleGen 2) offGen none .entry)) =
      some (some 0x0100000000000000, none) := by decide

/-- V-S2: the buffer after the four steps. -/
theorem test_load_packet_s2 :
    (after (hostSteps (.loadPacket .ops 3 0 0x03 0x3F 0x80 0 0) 4 (block (idleGen 1) offGen none .entry))).map
      (fun t => (t.ops.slots.map (·.buffer), t.ops.pending)) =
      some ([#v[0xFF, 0xFF, 0xFC, 0x06, 0x3F, 0x40, 0x2F, 0, 0, 0]], [0]) := by decide

/-- V-Q4, V-E: the truth value follows `pending` alone. -/
theorem test_is_empty :
    outcome (exec (.isEmpty .ops) (block runGen offGen none .entry)) = some (some 0, none) ∧
    outcome (exec (.isEmpty .ops) (block (playGen 3 0 []) offGen none .entry)) = some (some 1, none) := by decide

/-- V-Q1: a poll every 1000 µs. -/
theorem test_wait_empty_polls :
    (after (exec (.waitEmpty .ops) (block runGen offGen none .entry))).map (·.host.wakeAt) = some 1007 := by decide

/-- V-SM4: `cv = 0` and `cv = 1025`. -/
theorem test_read_cv_range :
    outcome (exec (.readCv 0) (block offGen (idleGen 2) none .entry)) = some (none, some .contractViolation) ∧
    outcome (exec (.readCv 1025) (block offGen (idleGen 2) none .entry)) = some (none, some .contractViolation) := by decide

/-- V-S5: bit 0's check, three reads of 255, sets bit 0 of the accumulator. -/
theorem test_read_cv_bit_ack :
    (after (exec (.readCv 1)
      { block offGen (idleGen 2) none .sample with
        sm := { SmState.powerOn with op := .readCv, thr := 245, k := 250, sum := 765, nOk := 3 } })).map
      (fun t => (t.sm.acc, t.sm.bitIndex)) = some (1, 1) := by decide

/-- R261: every field of the engine is set at entry; the threshold of 1000 mA is 245. -/
theorem test_write_byte_entry :
    (after (exec (.writeProgCvByte 7 0x55) (block offGen (idleGen 2) none .entry))).map
      (fun t => (t.sm.op, t.sm.cv, t.sm.value, t.sm.thr, t.sm.attempt)) = some (.writeByte, 7, 0x55, 245, 0) := by decide

/-- V-S6: after the fifth attempt's trailing reset the write answers false. -/
theorem test_write_byte_exhausted :
    outcome (exec (.writeProgCvByte 7 0x55) (block offGen (idleGen 2) none .finish)) = some (some 0, none) := by decide

/-- R284: the first ACK of a bit write leads to the verify group, which V-E frames as `78 06 EF 91`. -/
theorem test_write_bit_verifies :
    (after (exec (.writeProgCvBit 7 7 true)
      { block offGen (idleGen 2) none .sample with
        sm := { SmState.powerOn with op := .writeBit, cv := 7, bit := 7, value := 1, thr := 245, k := 250, sum := 246, nOk := 1 } })).map
      (fun t => frameOf (smFrame t.sm).1) = some [0x78, 0x06, 0xEF, 0x91] := by decide

/-- V-E: an illegal word, on a running block. -/
theorem test_illegal :
    outcome (exec (.illegal 0xA000000000000000) (block runGen offGen none .entry)) = some (none, some .illegalCommand) := by decide

/-- V-B: bit 22 of V-S2's packet is 0, and the cell is a 0's (V-W6). -/
theorem test_irq_full_zero :
    (after (exec (.irqFull .ops) (latched .full (block (playGen 22 0 []) offGen none .entry)))).map
      (fun t => (t.ops.slots.map (·.currentBit), t.ops.full.alarm, t.ops.pulse.alarm)) = some ([23, 0], 196, 98) := by decide

/-- V-B: a cursor past the end faults, and changes nothing else. -/
theorem test_irq_full_overrun :
    (after (exec (.irqFull .ops) (latched .full (block (playGen 59 0 []) offGen none .entry)))).map
      (fun t => (t.faulted, t.ops.full.latched, t.trace)) = some (some .cursorOverrun, true, []) := by decide

/-- R186. -/
theorem test_irq_pulse :
    (after (exec (.irqPulse .ops) (latched .pulse (block runGen offGen none .entry)))).map (fun t => (t.trace, t.ops.pulse.latched)) =
      some ([{ time := 7, gen := .ops, level := .low }], false) := by decide

/-- The buffers of the frames that the rows stand for in V-C and V-SM1, laid out in the held slot. -/
def heldBuffer (i : Instr) : Option (List Buffer) :=
  (after (exec i (block offGen holdGen none (.load .bootReset .fill)))).map fun t => (t.prog.slots.drop 1).map (·.buffer)

theorem test_dcc_reset : heldBuffer .dccReset = some [#v[0xFF, 0xFF, 0xFC, 0, 0, 0, 0, 0, 0, 0]] := by decide
theorem test_dcc_idle : heldBuffer .dccIdle = some [#v[0xFF, 0xFF, 0xFD, 0xFE, 0, 0x7F, 0x80, 0, 0, 0]] := by decide
theorem test_sm_write_byte :
    heldBuffer (.smWriteByte 6 0x55 0x2F) = some [#v[0xFF, 0xFF, 0xFC, 0xF8, 0x06, 0x2A, 0x8B, 0xC0, 0, 0]] := by decide
theorem test_sm_verify_bit :
    heldBuffer (.smVerifyBit 0 true 0 0x90) = some [#v[0xFF, 0xFF, 0xFC, 0xF0, 0x00, 0x74, 0x24, 0x00, 0, 0]] := by decide
/-- R123 on `74 06 55 27`. -/
theorem test_sm_verify_byte :
    heldBuffer (.smVerifyByte 6 0x55 0x27) = some [#v[0xFF, 0xFF, 0xFC, 0xE8, 0x06, 0x2A, 0x89, 0xC0, 0, 0]] := by decide
/-- R123 on `78 1C FD 99`. -/
theorem test_sm_write_bit :
    heldBuffer (.smWriteBit 28 true 5 0x99) = some [#v[0xFF, 0xFF, 0xFC, 0xF0, 0x1C, 0x7E, 0xA6, 0x40, 0, 0]] := by decide

/-- V-B, the rows with the idle singleton and with repeats. -/
theorem test_cursor_rows :
    (getNextBit (playGen 58 2 [])).map (fun x => (x.1, x.2.slots.map (·.repeats))) = some (true, [1, 0]) ∧
    (getNextBit (playGen 58 0 [])).map (fun x => (x.1, x.2.free, x.2.current, x.2.idle.currentBit)) =
      some (true, [0], .idlePkt, 1) ∧
    (getNextBit { runGen with current := .idlePkt, idle := { runGen.idle with currentBit := 49 } }).map
      (fun x => (x.2.current, x.2.free)) = some (.slot 0, [1]) := by decide

/-! ### Text (R93) -/

theorem test_text :
    (Instr.loadPacket .ops 3 0 0x03 0x3F 0x80 0 0).text = some "LOAD_PACKET OPS, [3, 63, 128], 0" ∧
    (Instr.loadPacket .ops 6 0 1 2 3 4 5).text = none := by decide

/-- R95's lines and R94's pseudo-instruction, read from text and encoded. -/
theorem test_text_words :
    ["CONFIGURE PROG, 25, 64", "START PROG", "STOP OPS", "LOAD_PACKET OPS, [0x03, 0x3F, 0x80], 0", "LOAD_PACKET PROG, [0xFF, 0x00], 10",
      "LOAD_RESET PROG, 20", "IS_EMPTY OPS ; a comment", "WAIT_EMPTY PROG", "READ_CV 1024", "WRITE_PROG_CV_BYTE 7, 0x55",
      "WRITE_PROG_CV_BIT 29, 5, 1"].map (fun l => (Instr.ofText l).map encode) =
    [0x1800190000400000, 0x2800000000000000, 0x3000000000000000, 0x4300033F80000000, 0x4A0AFF0000000000, 0x4A14000000000000,
      0x5000000000000000, 0x6800000000000000, 0x7000040000000000, 0x8000000700000055, 0x9000001D00000501].map
      fun w => some (Code.word w) := by decide

/-! ### A block inside a run -/

/-- OPS plays slot 0 from bit `bit`, in the first half of a cell; slot 1 is pending. -/
def liveGen (bit : BitVec 8) (lat : Bool) : GenState :=
  { playGen bit 0 [1] with pinLevel := .high, full := { runGen.full with latched := lat } }

/-- The block with that generator, a ready host, the words `cmds` to come and the schedule `l`. -/
def live (l : List Agent) (cmds : List CommandWord) (bit : BitVec 8) (lat : Bool) : State :=
  let s := block (liveGen bit lat) offGen none .entry
  { s with inputs := { s.inputs with cmds := cmds, sched := l } }

theorem packetS2_laid {bit r : BitVec 8} : PacketLaid { packetS2 with currentBit := bit, repeats := r } :=
  ⟨[0x03, 0x3F, 0x80], by decide, rfl, by
    show ∀ k, k < 58 → bufBit packetS2.buffer k = (layout [0x03, 0x3F, 0x80, 0xBC]).getD k false
    decide⟩

theorem offGen_timers : TimerInv offGen := ⟨fun _ => ⟨rfl, rfl⟩, fun h => by cases h⟩

theorem liveGen_timers (bit : BitVec 8) (lat : Bool) : TimerInv (liveGen bit lat) :=
  ⟨fun h => absurd rfl h, fun _ => ⟨rfl, rfl, rfl, rfl, rfl, rfl, rfl, true, rfl, rfl⟩⟩

theorem liveGen_packets {bit : BitVec 8} (lat : Bool) (h : bit ≤ 58) : PacketsInv (liveGen bit lat) where
  pending := by
    intro i hi
    obtain rfl : i = 1 := by simpa [liveGen, playGen] using hi
    exact ⟨packetS2, rfl, packetS2_laid (bit := 0) (r := 0), rfl⟩
  current := by
    intro i hi
    obtain rfl : 0 = i := by simpa [liveGen, playGen] using hi
    exact ⟨_, rfl, packetS2_laid, h⟩
  idle := fun _ => idlePacket_ok _
  unconfigured := fun h => by cases h

theorem liveGen_pool (bit : BitVec 8) (lat : Bool) : PoolInv (liveGen bit lat) :=
  ⟨List.Perm.swap 0 1 [], rfl⟩

theorem live_inv (l : List Agent) (cmds : List CommandWord) {bit : BitVec 8} (lat : Bool) (h : bit ≤ 58) :
    Inv (live l cmds bit lat) where
  pool g := by
    cases g
    · exact liveGen_pool bit lat
    · exact ⟨List.Perm.refl _, rfl⟩
  packets g := by
    cases g
    · exact liveGen_packets lat h
    · exact ⟨fun _ hi => (by cases hi), fun _ hi => (by cases hi), fun hm => absurd rfl hm, fun _ => rfl⟩
  timers g := by
    cases g
    · exact liveGen_timers bit lat
    · exact offGen_timers
  host := {
    ready := fun _ _ => rfl
    position := fun _ w hw => by cases hw
    target := fun _ hf => by cases hf
    filling := fun g => ⟨fun hf => by cases g <;> exact absurd rfl hf, fun hf => by cases hf.1⟩
    frame := fun hf => by cases hf
    publish := fun _ hp => by cases hp
    bootFrame := fun _ _ hp => by cases hp
    rest := fun g hm hc => by
      cases g
      · exact absurd rfl hm
      · exact absurd rfl hc }

theorem live_ideal (l : List Agent) (cmds : List CommandWord) (bit : BitVec 8) : IdealInv (live l cmds bit false) where
  ideal := rfl
  timers g := by
    cases g
    · exact liveGen_timers bit false
    · exact offGen_timers
  cell g hm := by
    cases g
    · exact .firstHalf rfl rfl rfl rfl (show 0 < 58 by decide)
    · cases hm
  pin g hm := by
    cases g
    · exact fun _ => ⟨fun _ => .inl rfl, fun _ => rfl⟩
    · cases hm

theorem live_latency (l : List Agent) (cmds : List CommandWord) (bit : BitVec 8) (lat : Bool) :
    LatencyInv (live l cmds bit lat) where
  budget := show 0 < 58 by decide
  timers g := by
    cases g
    · exact liveGen_timers bit lat
    · exact offGen_timers
  waited g hm _ := by
    cases g
    · exact ⟨rfl, Nat.le_refl 0⟩
    · cases hm
  below g hm := by
    cases g
    · exact show 0 < 116 by decide
    · cases hm
  pulseWaited g hm hl := by
    cases g
    · cases hl
    · cases hm
  pulseBelow g hm _ := by
    cases g
    · exact show 0 < 58 by decide
    · cases hm

/-! ### A run without end -/

/-- WAIT_EMPTY on an Idle PROG whose `pending` never empties (R362), with a poll delay of 0: the host has a step at every moment. -/
structure Polling (s : State) : Prop where
  unfaulted : s.faulted = none
  ops : s.ops = offGen
  prog : s.prog = fullGen
  cmd : s.host.cmd = some 0x6800000000000000
  phase : s.host.phase = .poll
  awake : s.host.wakeAt ≤ s.now
  noDelay : s.params.emptyPollUs = 0

theorem Polling.hostEnabled {s : State} (h : Polling s) : hostEnabled s = true := by
  have hq : anyDeliverable s = false := by rw [anyDeliverable, h.ops, h.prog]; rfl
  simp [Machine.hostEnabled, h.cmd, h.awake, hq]

theorem Polling.step {s : State} (h : Polling s) : ∃ t, step s = .next t ∧ Polling t := by
  have hen := pickAgent_enabled s
  obtain ⟨l, d, p, w, hs⟩ := pickAgent_snd s
  simp only [Machine.step, h.unfaulted, hs]
  rcases ha : (pickAgent s).1 with _ | ⟨k, g⟩ | _ <;> rw [ha] at hen
  · refine ⟨{ s with
      host := { s.host with phase := .poll, wakeAt := s.now }
      inputs := { s.inputs with sched := l, draws := d, passed := p, waits := w } }, ?_, h.unfaulted, h.ops, h.prog, h.cmd, rfl,
      Nat.le_refl s.now, h.noDelay⟩
    have hp : s.prog.pending = [0, 1] := by rw [h.prog]; rfl
    have hd : decodeWord 0x6800000000000000 = .waitEmpty .prog := by decide
    obtain ⟨_, _, hc, -⟩ | ⟨w', hc, hf⟩ := hostFetch_cases
      (s := { s with faulted := none, inputs := { s.inputs with sched := l, draws := d, passed := p, waits := w } }) hen
    · cases hc.symm.trans h.cmd
    · cases hc.symm.trans h.cmd
      rw [runAgent, hf, hostInstr_word (by simp [h.phase]), hd]
      simp [exec, execWaitEmpty, unlessFaulted, h.phase, pollEmpty, State.gen, hp, fifoEmpty, delay, State.setPhase, h.noDelay, h.cmd, h.unfaulted]
  · exfalso
    cases g <;> cases k <;> simp [enabled, State.gen, GenState.timer, h.ops, h.prog] at hen <;> cases hen
  · exact ⟨_, rfl, rfl, by show s.ops.tick = _; rw [h.ops]; rfl, by show s.prog.tick = _; rw [h.prog]; rfl, h.cmd,
      h.phase, Nat.le_succ_of_le h.awake, h.noDelay⟩

/-- The run from a state, step by step. -/
def runFrom (s : State) : Nat → State
  | 0 => s
  | n + 1 => (after (step (runFrom s n))).getD s

/-- Its first state. -/
def pollStart : State := { block offGen fullGen (some 0x6800000000000000) .poll with params := ⟨1000, 0, 0⟩ }

theorem pollStart_polling (n : Nat) : Polling (runFrom pollStart n) := by
  induction n with
  | zero => exact ⟨rfl, rfl, rfl, rfl, rfl, Nat.zero_le 7, rfl⟩
  | succ n ih =>
    obtain ⟨t, ht, hp⟩ := ih.step
    simpa [runFrom, ht, after] using hp

/-! ### Witnesses: states and operands that meet each statement's hypotheses -/

theorem witness_DecodeEncodeAgree :
    [Instr.configure .prog 255 65535, .start .ops, .stop .prog, .loadPacket .ops 7 255 1 2 3 4 5, .isEmpty .ops, .waitEmpty .prog,
      .readCv 2047, .writeProgCvByte 0 255, .writeProgCvBit 1024 7 true, .illegal 0, .irqFull .ops, .irqPulse .prog, .dccReset, .dccIdle,
      .smVerifyByte 1023 255 119, .smWriteByte 0 0 0x7C, .smVerifyBit 28 true 5 0x89, .smWriteBit 28 true 5 0x99].all Instr.wf = true := by
  decide

theorem witness_IllegalWordsRaiseIllegalCommand :
    spellsCommand 0x9000001D00000501 = true ∧ spellsCommand 0x2000000000000001 = false ∧ opField 0x0 = 0 ∧
    0xA#4 ≤ opField 0xA000000000000000 ∧ 0xA#4 ≤ opField 0xFFFFFFFFFFFFFFFF ∧
    7#4 ≤ opField 0x7800000100000000 ∧ (0x7800000100000000 : CommandWord).getLsbD 59 = true ∧
    7#4 ≤ opField 0x9800000000000000 ∧ (0x9800000000000000 : CommandWord).getLsbD 59 = true ∧
    (block runGen offGen none .entry).faulted = none := by decide

theorem witness_EngineBuildersGiveTableFrames :
    (1 ≤ (1#11).toNat ∧ (1#11).toNat ≤ 1024) ∧ 1 ≤ (1024#11).toNat ∧ (1024#11).toNat ≤ 1024 := by decide

/-- Each clause at the ends of its ranges, on V-S2's frame. -/
theorem witness_LayoutPlacesEveryBit :
    let F : List Byte := [0x03, 0x3F, 0x80, 0xBC]
    (0 ≤ 21 ∧ 21 ≤ 21) ∧ (0 < F.length ∧ 3 < F.length) ∧ F[0]? = some 0x03 ∧ F[3]? = some 0xBC ∧ (0 ≤ 7 ∧ 7 ≤ 7) := by decide

theorem witness_LayoutByteForm :
    (3 ≤ [0x00, 0x00, (0x00 : Byte)].length ∧ [0x00, 0x00, (0x00 : Byte)].length ≤ 6) ∧
    3 ≤ [0xCB, 0xB8, 0xEC, 0x1C, 0x06, (0x85 : Byte)].length ∧ [0xCB, 0xB8, 0xEC, 0x1C, 0x06, (0x85 : Byte)].length ≤ 6 := by decide

theorem witness_PendingPacketsAreWellFormed : Inv (live [] [] 22 false) ∧ 1 ∈ ((live [] [] 22 false).gen .ops).pending :=
  ⟨live_inv [] [] false (by decide), List.mem_singleton.2 rfl⟩

/-- A ready host with a word to take; a host inside START at a load's entry, and inside its own load's fill; a boot load's fill. -/
theorem witness_StepRunsHostInstruction :
    (∃ s1, pickAgent (live [.host] [0x5000000000000000] 22 false) = (.host, s1)) ∧
    (live [.host] [0x5000000000000000] 22 false).host.cmd = none ∧
    (∃ s1, pickAgent (scheduled [.host] (block offGen holdGen (some 0x2800000000000000) (.load .bootIdle .entry))) = (.host, s1)) ∧
    (∃ s1, pickAgent (scheduled [.host] (block offGen holdGen (some 0x4A14000000000000) (.load .caller .fill))) = (.host, s1)) ∧
    (∃ s1, pickAgent (scheduled [.host] (block offGen holdGen (some 0x2800000000000000) (.load .bootReset .fill))) = (.host, s1)) ∧
    decodeFrame (block offGen holdGen (some 0x2800000000000000) (.load .bootReset .fill)).host.load.frame = .ok .dccReset ∧
    (block offGen holdGen (some 0x2800000000000000) (.load .bootReset .fill)).faulted = none :=
  ⟨⟨_, rfl⟩, rfl, ⟨_, rfl⟩, ⟨_, rfl⟩, ⟨_, rfl⟩, rfl, rfl⟩

theorem witness_StepRunsInterruptOrClock :
    (∃ s1, pickAgent (scheduled [.isr .full .ops] (latched .full (block runGen offGen none .entry))) = (.isr .full .ops, s1)) ∧
    (∃ s1, pickAgent (scheduled [.isr .pulse .ops] (latched .pulse (block runGen offGen none .entry))) = (.isr .pulse .ops, s1)) ∧
    ∃ s1, pickAgent (live [.clock] [] 22 false) = (.clock, s1) :=
  ⟨⟨_, rfl⟩, ⟨_, rfl⟩, ⟨_, rfl⟩⟩

/-- A state with another end of the host's delay. -/
def resting (n : Nat) (s : State) : State := { s with host := { s.host with wakeAt := n } }

/-- A state with another latency bound. -/
def withLatency (n : Nat) (s : State) : State := { s with params := { s.params with isrLatencyMax := n } }

/-- An interrupt waits while the host has a command: under a latency of 57 the host has a step, under the ideal latency and during a delay
it has none, nor with nothing to do. -/
theorem witness_InterruptsPreemptHostAndClock :
    (live [.clock] [] 22 false).faulted = none ∧ (latched .full (block runGen offGen none .entry)).faulted = none ∧
    enabled (live [.clock] [] 22 false) .clock = true ∧
    (latched .full (block runGen offGen none .entry)).params.isrLatencyMax = 0 ∧
    anyDeliverable (latched .full (block runGen offGen none .entry)) = true ∧
    enabled (live [] [0x5000000000000000] 22 false) .host = true ∧
    (let s := latched .full (block runGen offGen (some 0x6800000000000000) .poll)
     enabled (withLatency 57 s) .host = true ∧ enabled s .host = false) ∧
    (let s := live [] [0x5000000000000000] 22 false
     enabled (resting 7 s) .host = true ∧ enabled (resting 8 s) .host = false) ∧
    enabled (live [] [] 22 false) .host = false := by decide

theorem witness_OfferedCodeIsRunNext :
    (Instr.start .prog).wf = true ∧ encode (.start .prog) = .word 0x2800000000000000 ∧
    encode .dccReset = .frame [0x00, 0x00, 0x00] ∧ tableCode 24 0x000000 = some (.frame [0x00, 0x00, 0x00]) ∧
    encode (.smWriteByte 1023 0xFF 0x7F) = .frame [0x7F, 0xFF, 0xFF, 0x7F] ∧
    tableCode 32 0x7FFFFF7F = some (.frame [0x7F, 0xFF, 0xFF, 0x7F]) := by decide

theorem witness_FaultsArePermanentAndPrecise :
    ({ State.reset with faulted := some .cursorOverrun } : State).faulted = some .cursorOverrun ∧
    (block runGen offGen none .entry).faulted = none ∧
    ∃ t, exec (.start .ops) (block runGen offGen none .entry) = .next t ∧ t.faulted = some .contractViolation :=
  ⟨rfl, rfl, _, rfl, rfl⟩

/-- A pool of 1 and a pool of 2; CV 0, 1, 1024 and 1025; a step that takes START on a running generator and one that takes IS_EMPTY; a
cursor at the end of its packet and past it. -/
theorem witness_FaultReasonsHaveTheirCauses :
    (contractCause (block offGen (idleGen 2) none .entry) (.configure .ops 4 1) = true ∧
      contractCause (block offGen (idleGen 2) none .entry) (.configure .ops 4 2) = false ∧
      contractCause (block offGen (idleGen 2) none .entry) (.readCv 0) = true ∧
      contractCause (block offGen (idleGen 2) none .entry) (.readCv 1) = false ∧
      contractCause (block offGen (idleGen 2) none .entry) (.readCv 1024) = false ∧
      contractCause (block offGen (idleGen 2) none .entry) (.readCv 1025) = true) ∧
    (Inv (live [.host] [0x2000000000000000] 22 false) ∧
      (∃ t, step (live [.host] [0x2000000000000000] 22 false) = .next t ∧ t.faulted = some .contractViolation) ∧
      Inv (live [.host] [0x5000000000000000] 22 false) ∧
      ∃ t, step (live [.host] [0x5000000000000000] 22 false) = .next t ∧ t.faulted = none) ∧
    ((playGen 59 0 []).currentPacket = some { packetS2 with currentBit := 59 } ∧ packetS2.numBits < 59 ∧
      ¬ packetS2.numBits < 58) ∧
    ((latched .full (block (playGen 59 0 []) offGen none .entry)).gen .ops).full.latched = true ∧
    ((latched .full (block (playGen 59 0 []) offGen none .entry)).gen .ops).full.attached = true :=
  ⟨by decide, ⟨live_inv _ _ _ (by decide), ⟨_, rfl, rfl⟩, live_inv _ _ _ (by decide), _, rfl, rfl⟩, by decide, rfl, rfl⟩

theorem witness_ResetMeetsInvariants :
    (⟨1000, 1000, 0⟩ : Params).isrLatencyMax = 0 ∧ (⟨1000, 1000, 57⟩ : Params).isrLatencyMax < 58 := by decide

/-- A tick, and a full-cycle ISR at the end of a packet. -/
theorem witness_StepKeepsInvariant :
    (Inv (live [.clock] [] 22 false) ∧ ∃ t, step (live [.clock] [] 22 false) = .next t) ∧
    Inv (live [.isr .full .ops] [] 58 true) ∧ ∃ t, step (live [.isr .full .ops] [] 58 true) = .next t :=
  ⟨⟨live_inv _ _ _ (by decide), _, rfl⟩, live_inv _ _ _ (by decide), _, rfl⟩

theorem witness_StepKeepsIdealCells :
    Inv (live [.clock] [] 22 false) ∧ IdealInv (live [.clock] [] 22 false) ∧ ∃ t, step (live [.clock] [] 22 false) = .next t :=
  ⟨live_inv _ _ _ (by decide), live_ideal _ _ _, _, rfl⟩

theorem witness_StepKeepsLatencyBound :
    LatencyInv (live [.isr .full .ops] [] 58 true) ∧ ∃ t, step (live [.isr .full .ops] [] 58 true) = .next t :=
  ⟨live_latency _ _ _ _, _, rfl⟩

/-- The counters at their bound: 250 reads of 4095. -/
theorem witness_StepKeepsSampleCounters :
    SampleInv { SmState.powerOn with phase := .sample, k := 250, nOk := 250, sum := 1023750 } ∧
    SampleInv (live [.clock] [] 22 false).sm ∧ ∃ t, step (live [.clock] [] 22 false) = .next t :=
  ⟨fun _ => by decide, fun h => (by cases h), _, rfl⟩

theorem witness_CursorNeverOverruns :
    Inv (live [.isr .full .ops] [] 58 true) ∧ (live [.isr .full .ops] [] 58 true).faulted = none ∧
    ∃ t, step (live [.isr .full .ops] [] 58 true) = .next t :=
  ⟨live_inv _ _ _ (by decide), rfl, _, rfl⟩

theorem witness_UnfaultedBlockAlwaysSteps :
    (Inv (live [] [] 58 true) ∧ (live [] [] 58 true).faulted = none) ∧
    IsRun (runFrom pollStart) ∧ ∀ m, hostEnabled (runFrom pollStart m) = true := by
  refine ⟨⟨live_inv _ _ _ (by decide), rfl⟩, fun n => ?_, fun m => (pollStart_polling m).hostEnabled⟩
  obtain ⟨t, ht, -⟩ := (pollStart_polling n).step
  simp [runFrom, ht, after]

theorem witness_OnlyClockAdvancesTime :
    (∃ t, step (live [.clock] [] 22 false) = .next t ∧ t.now = 8) ∧
    ∃ t, step (live [.host] [0x5000000000000000] 22 false) = .next t ∧ t.now = 7 :=
  ⟨⟨_, rfl, rfl⟩, _, rfl, rfl⟩

/-- Each writer, the pulse ISR on a pin that is LOW already; a step of a command that writes no pin, and CONFIGURE's next step. -/
theorem witness_PinWritesAreTraced :
    (∃ t, exec (.configure .prog 25 64) (block offGen offGen none .entry) = .next t ∧
      writesPin (.configure .prog 25 64) (block offGen offGen none .entry) t .prog .low) ∧
    (∃ t, exec (.irqFull .ops) (latched .full (block runGen offGen none .entry)) = .next t ∧
      writesPin (.irqFull .ops) (latched .full (block runGen offGen none .entry)) t .ops .high) ∧
    (∃ t, exec (.irqPulse .ops) (latched .pulse (block runGen offGen none .entry)) = .next t ∧
      writesPin (.irqPulse .ops) (latched .pulse (block runGen offGen none .entry)) t .ops .low) ∧
    runGen.pinLevel = .low ∧
    (∃ t, exec (.isEmpty .ops) (block runGen offGen none .entry) = .next t ∧
      ∀ g l, ¬ writesPin (.isEmpty .ops) (block runGen offGen none .entry) t g l) ∧
    ∃ t, exec (.configure .prog 25 64) (block offGen (idleGen 64) none .startEntry) = .next t ∧
      ∀ g l, ¬ writesPin (.configure .prog 25 64) (block offGen (idleGen 64) none .startEntry) t g l :=
  ⟨⟨_, rfl, .inl ⟨25, 64, rfl, rfl, rfl, rfl⟩⟩, ⟨_, rfl, .inr (.inl ⟨rfl, rfl, rfl⟩)⟩, ⟨_, rfl, .inr (.inr ⟨rfl, rfl⟩)⟩, rfl,
    ⟨_, rfl, fun g l h => by obtain ⟨_, _, h, -⟩ | ⟨h, -⟩ | ⟨h, -⟩ := h <;> cases h⟩,
    _, rfl, fun g l h => by obtain ⟨_, _, -, h, -⟩ | ⟨h, -⟩ | ⟨h, -⟩ := h <;> cases h⟩

theorem witness_ModeChangesOnlyByController :
    (∃ t, exec (.configure .prog 25 64) (block offGen offGen none .entry) = .next t ∧ (t.gen .prog).mode ≠ .unconfigured) ∧
    (∃ t, exec (.start .prog) (block offGen (idleGen 2) none .arm) = .next t ∧ (t.gen .prog).mode ≠ .idle) ∧
    ∃ t, exec (.stop .ops) (block runGen offGen none .entry) = .next t ∧ (t.gen .ops).mode ≠ .running :=
  ⟨⟨_, rfl, fun h => by cases h⟩, ⟨_, rfl, fun h => by cases h⟩, _, rfl, fun h => by cases h⟩

theorem witness_IdleSingletonNeverChanges :
    Inv (live [.isr .full .ops] [] 58 true) ∧ (∃ t, step (live [.isr .full .ops] [] 58 true) = .next t) ∧
    ((live [.isr .full .ops] [] 58 true).gen .ops).mode ≠ .unconfigured :=
  ⟨live_inv _ _ _ (by decide), ⟨_, rfl⟩, fun h => by cases h⟩

theorem witness_TimersTouchedOnlyByStartStopAndIsrs :
    (∃ t, exec (.start .prog) (block offGen (idleGen 2) none .arm) = .next t ∧ ((t.gen .prog).timer .full).begun ≠ false) ∧
    ∃ t, exec (.irqPulse .ops) (latched .pulse (block runGen offGen none .entry)) = .next t ∧
      ((t.gen .ops).timer .pulse).latched ≠ true :=
  ⟨⟨_, rfl, fun h => by cases h⟩, _, rfl, fun h => by cases h⟩

/-- A timer that is not begun; one a tick before its alarm; one whose next tick is its alarm, auto-reloading and one-shot; each with its
interrupt waiting (the age grows) and without. -/
theorem witness_AlarmFiresAtItsCount :
    (Timer.off.latched = false ∧ Timer.off.begun = false) ∧
    (runGen.full.latched = false ∧ (liveGen 22 true).full.latched = true ∧ (liveGen 22 true).full.attached = true ∧
      1 = if (liveGen 22 true).full.latched = true ∧ (liveGen 22 true).full.attached = true then (liveGen 22 true).full.age + 1
        else (liveGen 22 true).full.age) ∧
    (runGen.full.begun = true ∧ ¬ (({ runGen.full with counter := 114 } : Timer).counter + 1 = runGen.full.alarm)) ∧
    (({ runGen.full with counter := 115 } : Timer).counter + 1 = runGen.full.alarm ∧ runGen.full.alarmEn = true ∧ runGen.full.autoreload = true) ∧
    ({ runGen.pulse with counter := 57 } : Timer).counter + 1 = runGen.pulse.alarm ∧ runGen.pulse.alarmEn = true ∧
      runGen.pulse.autoreload = false := by decide

theorem witness_CellLastsFullPeriod :
    TimerInv (liveGen 22 false) ∧ (liveGen 22 false).mode = .running ∧ (liveGen 22 false).full.counter = 0 ∧
    (liveGen 22 false).full.latched = false ∧ (liveGen 22 false).pulse.latched = false :=
  ⟨liveGen_timers _ _, rfl, rfl, rfl, rfl⟩

theorem witness_FullCycleIsrBeginsCell :
    (live [] [] 58 true).faulted = none ∧ PoolInv ((live [] [] 58 true).gen .ops) ∧ PacketsInv ((live [] [] 58 true).gen .ops) ∧
    ((live [] [] 58 true).gen .ops).mode ≠ .unconfigured ∧ ((live [] [] 58 true).gen .ops).full.latched = true ∧
    ((live [] [] 58 true).gen .ops).full.attached = true :=
  ⟨rfl, (live_inv _ _ _ (by decide)).pool .ops, (live_inv _ _ _ (by decide)).packets .ops, fun h => (by cases h), rfl, rfl⟩

theorem witness_PulseIsrDrivesLow :
    (latched .pulse (block runGen offGen none .entry)).faulted = none ∧
    ((latched .pulse (block runGen offGen none .entry)).gen .ops).pulse.latched = true ∧
    ((latched .pulse (block runGen offGen none .entry)).gen .ops).pulse.attached = true := by decide

theorem witness_IsrFrame :
    (∃ t, exec (.irqFull .ops) (live [] [] 58 true) = .next t ∧ t.faulted = none) ∧
    ∃ t, exec (.irqPulse .ops) (latched .pulse (block runGen offGen none .entry)) = .next t ∧ t.faulted = none :=
  ⟨⟨_, rfl, rfl⟩, _, rfl, rfl⟩

/-- Each row: mid-pass at the last bit, a repeat, a release to a pending slot and to the idle singleton, the idle singleton done with
something pending and with nothing, and in mid-pass. -/
theorem witness_ArbiterPlaysRepeatThenPendingThenIdle :
    ((playGen 57 0 []).current = .slot 0 ∧ (57 : BitVec 8) < packetS2.numBits ∧ packetS2.numBits.toNat ≤ 80) ∧
    ((playGen 58 1 []).slots.read 0 = some { packetS2 with currentBit := packetS2.numBits, repeats := 1 } ∧ 0 < packetS2.numBits) ∧
    ((playGen 58 0 [1]).slots.read 0 = some { packetS2 with currentBit := packetS2.numBits } ∧ (playGen 58 0 [1]).pending = [1] ∧
      (playGen 58 0 [1]).slots.read 1 = some packetS2 ∧ packetS2.currentBit < packetS2.numBits) ∧
    ((playGen 58 0 []).pending = [] ∧ 0 < (playGen 58 0 []).idle.numBits ∧ (playGen 58 0 []).idle.numBits.toNat ≤ 80) ∧
    (runGen.current = .none ∧ runGen.pending = [0] ∧ runGen.slots.read 0 = some packetS2) ∧
    ((49 : BitVec 8) = runGen.idle.numBits ∧ runGen.idle.repeats = 0 ∧ (48 : BitVec 8) < runGen.idle.numBits) := by decide

/-- The running generator at the end of a pass of the idle singleton. -/
def idleEnd : GenState := { runGen with current := .idlePkt, idle := { runGen.idle with currentBit := 49 } }

/-- Nothing current, the idle singleton at its end, and another slot at the end of its last pass. -/
theorem witness_PacketMakesRepeatsPlusOnePasses :
    (runGen.current = .none ∧
      (idleEnd.current = .idlePkt ∧ idleEnd.idle.currentBit = idleEnd.idle.numBits ∧ idleEnd.idle.repeats = 0 ∧
        idleEnd.pending = 0 :: []) ∧
      (playGen 58 0 [1]).current = .slot 0 ∧ (playGen 58 0 [1]).slots.read 0 = some { packetS2 with currentBit := 58 } ∧
      58 = packetS2.numBits ∧ packetS2.repeats = 0 ∧ (playGen 58 0 [1]).pending = 1 :: [] ∧
      (playGen 58 0 [1]).slots.read 1 = some packetS2) ∧
    runGen.pending = 0 :: [] ∧ runGen.slots.read 0 = some packetS2 ∧ packetS2.currentBit = 0 ∧
    0 < packetS2.numBits ∧ packetS2.numBits.toNat ≤ 80 := by decide

theorem witness_LoadPacketPublishesFrame :
    (block (idleGen 2) offGen none .entry).faulted = none ∧ (block (idleGen 2) offGen none .entry).host.phase = .entry ∧
    (idleGen 2).mode ≠ .unconfigured ∧ (2 ≤ (2#3).toNat ∧ (2#3).toNat ≤ 5) ∧ (2 ≤ (5#3).toNat ∧ (5#3).toNat ≤ 5) ∧
    (idleGen 2).free = 0 :: [1] ∧ (idleGen 2).slots.read 0 = some Packet.zero := by decide

theorem witness_LoadPacketRejectsLength :
    (block (idleGen 2) offGen none .entry).faulted = none ∧
    (block (idleGen 2) offGen none .entry).host.phase = .entry ∧ (idleGen 2).mode ≠ .unconfigured ∧
    ¬ (2 ≤ (1#3).toNat ∧ (1#3).toNat ≤ 5) ∧ ¬ (2 ≤ (6#3).toNat ∧ (6#3).toNat ≤ 5) ∧ ¬ (2 ≤ (0#3).toNat ∧ (0#3).toNat ≤ 5) ∧
    ¬ (2 ≤ (7#3).toNat ∧ (7#3).toNat ≤ 5) := by decide

/-- Each of the four kinds of load, with a free slot and with none. -/
theorem witness_LoadPacketWaitsForFreeSlot :
    [LoadSite.caller, .bootReset, .bootIdle, .engine].all (fun site =>
      let s := block offGen (idleGen 2) none (.load site .acquire)
      let t := block offGen fullGen none (.load site .acquire)
      s.faulted = none ∧ s.host.phase = .load site .acquire ∧ (s.gen s.host.load.gen).free = 0 :: [1] ∧
        t.faulted = none ∧ t.host.phase = .load site .acquire ∧ (t.gen t.host.load.gen).free = []) = true := by decide

theorem witness_LoadFrame :
    (∃ t, exec (.loadPacket .prog 2 3 0 0 0 0 0) (block offGen holdGen none (.load .caller .fill)) = .next t) ∧
    (∃ t, exec .dccReset (block offGen holdGen none (.load .bootReset .fill)) = .next t) ∧ encode .dccReset = .frame resetFrame :=
  ⟨⟨_, rfl⟩, ⟨_, rfl⟩, rfl⟩

/-- A block at the fill step of a load, with a slot held and a frame in the load register. -/
def filling (site : LoadSite) (frame : List Byte) : State :=
  let s := block offGen holdGen none (.load site .fill)
  { s with host := { s.host with load := { s.host.load with frame := frame } } }

/-- Each of the six frame rows at a load it belongs to, and one whose checksum byte is wrong. -/
theorem witness_FrameRowsFillHeldSlot :
    [(Instr.dccReset, LoadSite.caller), (.dccReset, .bootReset), (.dccIdle, .bootIdle), (.dccReset, .engine),
      (.smVerifyByte 0 0x01 0x75, .engine), (.smWriteByte 1023 0xFF 0x7F, .engine), (.smVerifyBit 28 true 5 0x89, .engine),
      (.smWriteBit 28 true 5 0x99, .engine), (.smWriteByte 0 0 0, .engine)].all (fun (i, site) =>
      match encode i with
      | .frame bytes =>
        let s := filling site bytes
        s.faulted = none ∧ s.host.phase = .load site .fill ∧ s.host.load.gen = .prog ∧ s.host.load.frame = bytes ∧
          (s.gen .prog).filling = some 1 ∧ (s.gen .prog).slots.read 1 = some Packet.zero
      | _ => false) = true := by decide

theorem witness_IsEmptyReadsPending :
    (block runGen offGen none .entry).faulted = none ∧ (block runGen offGen none .entry).host.phase = .entry ∧
    offGen.mode = .unconfigured ∧ runGen.mode ≠ .unconfigured := by decide

theorem witness_WaitEmptyPollsPending :
    (block offGen offGen none .entry).faulted = none ∧ (block offGen offGen none .entry).host.phase = .entry ∧
    (block runGen offGen none .poll).faulted = none ∧
    (block (playGen 3 0 []) offGen none .entry).faulted = none ∧ (block (playGen 3 0 []) offGen none .entry).host.phase = .entry ∧
    (block runGen offGen none .poll).host.phase = .poll ∧ offGen.mode = .unconfigured ∧ runGen.mode ≠ .unconfigured ∧
    runGen.pending ≠ [] ∧ (playGen 3 0 []).pending = [] := by decide

theorem witness_QueueCommandsFrame :
    (∃ t, exec (.isEmpty .ops) (block runGen offGen none .entry) = .next t) ∧
    (∃ t, exec (.waitEmpty .ops) (block runGen offGen none .poll) = .next t) ∧
    ∃ t, exec (.illegal 0) (block runGen offGen none .entry) = .next t :=
  ⟨⟨_, rfl⟩, ⟨_, rfl⟩, _, rfl⟩

theorem witness_ConfigureBootsGenerator :
    (block offGen offGen none .entry).faulted = none ∧ (block offGen offGen none .entry).host.phase = .entry ∧
    offGen.mode = .unconfigured ∧ 2 ≤ (2#16).toNat ∧ 2 ≤ (65535#16).toNat ∧
    (block offGen offGen none .entry).inputs.gpioOk = true :: [false] ∧
    (block offGen offGen none .entry).inputs.timerOk = true :: [false] := by decide

theorem witness_ConfigureReportsGpioFailure :
    (block offGen offGen none .entry).faulted = none ∧ (block offGen offGen none .entry).host.phase = .entry ∧
    offGen.mode = .unconfigured ∧ 2 ≤ (2#16).toNat ∧
    ({ block offGen offGen none .entry with
        inputs := { cmds := [], sched := [], adc := [], gpioOk := [false], timerOk := [], draws := 0, passed := 0, waits := 0 } } : State).inputs.gpioOk =
      false :: [] := by decide

theorem witness_StartLoadsBootPacketsAndArms :
    (block (idleGen 2) offGen none .entry).faulted = none ∧ (block (idleGen 2) offGen none .entry).host.phase = .entry ∧
    (idleGen 2).mode = .idle ∧ (idleGen 2).free = 0 :: 1 :: [] ∧ (0 : Nat) ≠ 1 ∧ (idleGen 2).slots.read 0 = some Packet.zero ∧
    (idleGen 2).slots.read 1 = some Packet.zero ∧ (block (idleGen 2) offGen none .entry).inputs.timerOk = true :: [false] := by decide

theorem witness_StartReportsTimerFailure :
    let s := { block (idleGen 2) offGen none .arm with
      inputs := { cmds := [], sched := [], adc := [], gpioOk := [], timerOk := [false], draws := 0, passed := 0, waits := 0 } }
    s.faulted = none ∧ s.host.phase = .arm ∧ s.inputs.timerOk = false :: [] := by decide

theorem witness_StopEndsTimersThenWaits :
    (block runGen (idleGen 2) none .entry).faulted = none ∧
    (block runGen (idleGen 2) none .entry).host.phase = .entry ∧ runGen.mode ≠ .unconfigured ∧ (idleGen 2).mode ≠ .unconfigured := by
  decide

theorem witness_StopReturnsZeroedPackets :
    (block (liveGen 22 false) offGen none .drain).faulted = none ∧
    (block (liveGen 22 false) offGen none .drain).host.phase = .drain ∧
    PoolInv ((block (liveGen 22 false) offGen none .drain).gen .ops) ∧ (liveGen 22 false).filling = none :=
  ⟨rfl, rfl, liveGen_pool _ _, rfl⟩

theorem witness_ControllerFrame :
    (∃ t, exec (.configure .prog 25 64) (block runGen offGen none .entry) = .next t) ∧
    (∃ t, exec (.start .prog) (block runGen holdGen none (.load .bootReset .fill)) = .next t) ∧
    (∃ t, exec (.stop .prog) (block runGen (idleGen 2) none .entry) = .next t) ∧ Gen.ops ≠ .prog ∧
    (block runGen holdGen none (.load .bootReset .fill)).host.load.gen = .prog ∧
    (∃ t, exec (.stop .ops) (block runGen offGen none .drain) = .next t) ∧
    holdsFrame (block runGen offGen none .drain).host.phase = false ∧ (block runGen offGen none .drain).host.load.gen ≠ .ops :=
  ⟨⟨_, rfl⟩, ⟨_, rfl⟩, ⟨_, rfl⟩, by decide, rfl, ⟨_, rfl⟩, rfl, by decide⟩

/-- CV 0, 1, 1024 and 1025, and a `max_ma` of 0. -/
theorem witness_ServiceEntrySetsEngine :
    (block offGen (idleGen 2) none .entry).faulted = none ∧ (block offGen (idleGen 2) none .entry).host.phase = .entry ∧
    ((block offGen (idleGen 2) none .entry).gen .prog).mode ≠ .unconfigured ∧ (0#11).toNat < 1 ∧ 1024 < (1025#11).toNat ∧
    (1 ≤ (1#11).toNat ∧ (1#11).toNat ≤ 1024) ∧ (1 ≤ (1024#11).toNat ∧ (1024#11).toNat ≤ 1024) ∧
    (block offGen (idleGen 2) none .entry).params.maxMaProg ≠ 0 ∧ (⟨0, 1000, 0⟩ : Params).maxMaProg = 0 ∧
    (block offGen offGen none .entry).prog.mode = .unconfigured := by decide

/-- A block at the entry of one of the engine's loads, with the engine's operation, phase and attempt. -/
def loading (op : SmOp) (p : SmPhase) (attempt : BitVec 3) : State :=
  { block offGen (idleGen 2) none (.load .engine .entry) with sm := { SmState.powerOn with op := op, phase := p, attempt := attempt } }

/-- The engine's four loading phases: the entry of each operation, the last phase with the fourth attempt and with the fifth. -/
theorem witness_ServiceLoadsPublishGroups :
    [loading .readCv .entry 0, loading .writeByte .entry 0, loading .writeBit .entry 0, loading .readCv .loadReset 0,
      loading .writeByte .loadFrame 1, loading .writeByte .loadTrail 4, loading .writeBit .loadTrail 5].all (fun s =>
      s.faulted = none ∧ s.host.phase = .load .engine .entry ∧ (s.gen .prog).mode ≠ .unconfigured ∧ (s.gen .prog).free = 0 :: [1] ∧
        (s.gen .prog).slots.read 0 = some Packet.zero ∧
        (s.sm.phase = .entry ∨ s.sm.phase = .loadReset ∨ s.sm.phase = .loadFrame ∨ s.sm.phase = .loadTrail)) = true ∧
    (loading .writeByte .loadTrail 4).sm.attempt < 5 ∧ ¬ (loading .writeBit .loadTrail 5).sm.attempt < 5 := by decide

theorem witness_GroupsFollowTheProcedures :
    ({ SmState.powerOn with op := .readCv, bitIndex := 7 } : SmState).bitIndex.toNat < 8 ∧
    ¬ ({ SmState.powerOn with op := .readCv, bitIndex := 8 } : SmState).bitIndex.toNat < 8 ∧
    ({ SmState.powerOn with op := .writeByte, verifying := true } : SmState).verifying = true ∧
    ({ SmState.powerOn with op := .writeBit, verifying := false } : SmState).verifying = false := by decide

/-- The wait with nothing pending and with something; the first and the last read of a check. -/
theorem witness_AckCheckCountsSamples :
    (block offGen (idleGen 2) none .poll).faulted = none ∧
    (block offGen (idleGen 2) none .sample).faulted = none ∧
    (block offGen (idleGen 2) none .poll).host.phase = .poll ∧ (idleGen 2).pending = [] ∧ runGen.pending ≠ [] ∧
    (block offGen (idleGen 2) none .sample).host.phase = .sample ∧ (0 : BitVec 8).toNat < 250 ∧ (249 : BitVec 8).toNat < 250 ∧
    (block offGen (idleGen 2) none .sample).inputs.adc = 255 :: [0] := by decide

theorem witness_AckThresholdFormula : 0 < 60 ∧ 60 ≤ 60 ∧ 1023750 ≤ 4095 * 250 := by decide

theorem witness_ReadCvAccumulatesAndResponds :
    (block offGen (idleGen 2) none .sample).faulted = none ∧
    (block offGen (idleGen 2) none .sample).host.phase = .sample ∧ 250 ≤ (250 : BitVec 8).toNat ∧
    ackDecide 765 3 245 = true ∧ ackDecide 0 0 245 = false ∧ (7 : BitVec 4).toNat < 8 ∧ 8 ≤ (8 : BitVec 4).toNat := by decide

/-- The end of a check of a write's first group, and of its verify group; the end after the last attempt. -/
theorem witness_WritesConfirmOrRetry :
    [false, true].all (fun v =>
      let s := block offGen (idleGen 2) none .sample
      let t := { s with sm := { s.sm with op := .writeByte, k := 250, sum := 61500, nOk := 250, verifying := v } }
      t.faulted = none ∧ t.host.phase = .sample ∧ 250 ≤ t.sm.k.toNat ∧ t.sm.verifying = v ∧
        ackDecide t.sm.sum.toNat t.sm.nOk.toNat t.sm.thr.toNat = true) = true ∧
    (block offGen (idleGen 2) none .sample).faulted = none ∧
    (block offGen (idleGen 2) none .sample).host.phase = .sample ∧ 250 ≤ (250 : BitVec 8).toNat ∧
    ackDecide 61500 250 245 = true ∧ ackDecide 61250 250 245 = false ∧
    (block offGen (idleGen 2) none .finish).host.phase = .finish ∧ (block offGen (idleGen 2) none .finish).faulted = none := by decide

theorem witness_ServiceLeavesOpsAlone :
    (∃ t, exec (.readCv 1) (block runGen holdGen none (.load .engine .fill)) = .next t) ∧
    (block runGen holdGen none (.load .engine .fill)).host.load.gen = .prog ∧
    (∃ t, exec (.writeProgCvByte 7 0x55) (block runGen (idleGen 2) none .entry) = .next t) ∧
    ∃ t, exec (.writeProgCvBit 7 7 true) (block runGen (idleGen 2) none .finish) = .next t :=
  ⟨⟨_, rfl⟩, rfl, ⟨_, rfl⟩, _, rfl⟩

end Sys2Proof.Tests
end

section
/-! PROOFS. The stream of a frame bit by bit (R91, R122), and the ten buffer bytes it gives in a zeroed buffer (R123). -/

namespace Sys2Proof.Proofs

open Sys2Proof Sys2Proof.Machine

/-- Bit `n` of a frame's stream after the preamble: a 0 before each byte, then its bits, most significant first; 0 past the end (R91). -/
def frameBit (frame : List Byte) (n : Nat) : Bool :=
  decide (n % 9 ≠ 0) && (frame.getD (n / 9) 0).getLsbD (8 - n % 9)

theorem flatMap_byteBits_getD (frame : List Byte) (n : Nat) :
    (frame.flatMap fun y => false :: byteBits y).getD n false = frameBit frame n := by
  induction frame generalizing n with
  | nil => simp [frameBit]
  | cons y ys ih =>
    rw [List.flatMap_cons]
    by_cases h : n < 9
    · interval_cases n <;> rfl
    · obtain ⟨m, rfl⟩ := Nat.exists_eq_add_of_le' (not_lt.1 h)
      rw [List.getD_append_right _ _ _ _ (by simp), show m + 9 - (false :: byteBits y).length = m from rfl, ih]
      simp [frameBit, Nat.add_div_right]

theorem layout_getD (frame : List Byte) (k : Nat) :
    (layout frame).getD k false = (decide (k < 22) || frameBit frame (k - 22)) := by
  rw [layout, Config.preambleBits]
  by_cases h : k < 22
  · rw [List.getD_append _ _ _ _ (by simpa using h), List.getD_replicate _ h]
    simp [h]
  · rw [List.getD_append_right _ _ _ _ (by simpa using h), List.length_replicate, flatMap_byteBits_getD]
    simp [h]

theorem bufBit_zero (k : Nat) : bufBit Packet.zero.buffer k = false := by
  simp [bufBit, Packet.zero]

/-- In a zeroed buffer every bit past the stream is 0, as the stream's own default is. -/
theorem bufBit_fillPacket_zero {frame : List Byte} (r : BitVec 8) (h : frame.length ≤ 6) (k : Nat) :
    bufBit (fillPacket Packet.zero frame r).buffer k = (decide (k < 22) || frameBit frame (k - 22)) := by
  rw [bufBit_fillPacket _ _ _ h, bufBit_zero, ← layout_getD]
  split
  · rfl
  · exact (List.getD_eq_default _ _ (by rw [layout_length]; omega)).symm

/-- The bits of a buffer's byte are its eight stream bits, the first the most significant (R8, R62). -/
theorem getLsbD_buffer (b : Buffer) {i j : Nat} (hi : i < 10) (hj : j < 8) : b[i].getLsbD j = bufBit b (8 * i + (7 - j)) := by
  have hdiv : (8 * i + (7 - j)) / 8 = i := by omega
  have hmod : 7 - (8 * i + (7 - j)) % 8 = j := by omega
  simp only [bufBit, hdiv, hmod, hi, dite_true]

/-- The eight bits of a frame's stream from bit `n` on, as a byte: they straddle at most two frame bytes and the 0 between them. -/
def frameByte (frame : List Byte) (n : Nat) : Byte :=
  if n % 9 = 0 then frame.getD (n / 9) 0 >>> 1
  else (frame.getD (n / 9) 0 <<< (n % 9 - 1)) ||| (frame.getD (n / 9 + 1) 0 >>> (10 - n % 9))

theorem frameByte_getLsbD (frame : List Byte) (n : Nat) {j : Nat} (hj : j < 8) :
    (frameByte frame n).getLsbD j = frameBit frame (n + (7 - j)) := by
  obtain ⟨q, o, ho, rfl⟩ : ∃ q o, o < 9 ∧ n = 9 * q + o := ⟨n / 9, n % 9, by omega, by omega⟩
  have hq : (9 * q + o) / 9 = q := by omega
  have hr : (9 * q + o) % 9 = o := by omega
  rw [frameByte, frameBit, hq, hr]
  obtain rfl | h0 := Nat.eq_zero_or_pos o
  · have hq' : (9 * q + 0 + (7 - j)) / 9 = q := by omega
    have hr' : (9 * q + 0 + (7 - j)) % 9 = 7 - j := by omega
    have hb : 8 - (7 - j) = 1 + j := by omega
    rw [if_pos rfl, BitVec.getLsbD_ushiftRight, hq', hr', hb]
    obtain rfl | h7 : j = 7 ∨ 7 - j ≠ 0 := by omega
    · simp
    · simp [h7]
  rw [if_neg (by omega), BitVec.getLsbD_or, BitVec.getLsbD_shiftLeft, BitVec.getLsbD_ushiftRight]
  obtain h | h | h : o ≤ j + 1 ∨ o = j + 2 ∨ j + 3 ≤ o := by omega
  · have hq' : (9 * q + o + (7 - j)) / 9 = q := by omega
    have hr' : (9 * q + o + (7 - j)) % 9 = o + (7 - j) := by omega
    have hb : 8 - (o + (7 - j)) = j - (o - 1) := by omega
    rw [hq', hr', hb, BitVec.getLsbD_of_ge _ (10 - o + j) (by omega)]
    simp [hj, show ¬ j < o - 1 by omega, h0.ne']
  · have hr' : (9 * q + o + (7 - j)) % 9 = 0 := by omega
    rw [hr', BitVec.getLsbD_of_ge _ (10 - o + j) (by omega)]
    simp [show j < o - 1 by omega]
  · have hq' : (9 * q + o + (7 - j)) / 9 = q + 1 := by omega
    have hr' : (9 * q + o + (7 - j)) % 9 = o - 2 - j := by omega
    have hb : 8 - (o - 2 - j) = 10 - o + j := by omega
    rw [hq', hr', hb]
    simp [show j < o - 1 by omega, show o - 2 - j ≠ 0 by omega]

/-- The first two bytes are preamble alone. -/
theorem fillPacket_zero_preamble {frame : List Byte} (r : BitVec 8) (h : frame.length ≤ 6) {i : Nat} (hi : i < 2) :
    (fillPacket Packet.zero frame r).buffer[i] = 0xFF := by
  refine BitVec.eq_of_getLsbD_eq fun j hj => ?_
  rw [getLsbD_buffer _ (by omega) hj, bufBit_fillPacket_zero r h, decide_eq_true (by omega), Bool.true_or]
  interval_cases j <;> rfl

/-- The third byte ends the preamble, and holds the 0 before the first frame byte and that byte's top bit. -/
theorem fillPacket_zero_junction {frame : List Byte} (r : BitVec 8) (h : frame.length ≤ 6) :
    (fillPacket Packet.zero frame r).buffer[2] = 0xFC ||| (frame.getD 0 0 >>> 7) := by
  refine BitVec.eq_of_getLsbD_eq fun j hj => ?_
  rw [getLsbD_buffer _ (by omega) hj, bufBit_fillPacket_zero r h]
  interval_cases j <;> simp [frameBit]

/-- Every later byte is eight bits of the frame's stream. -/
theorem fillPacket_zero_byte {frame : List Byte} (r : BitVec 8) (h : frame.length ≤ 6) {i : Nat} (hi : i < 10) (h3 : 3 ≤ i) :
    (fillPacket Packet.zero frame r).buffer[i] = frameByte frame (8 * i - 22) := by
  refine BitVec.eq_of_getLsbD_eq fun j hj => ?_
  rw [getLsbD_buffer _ hi hj, bufBit_fillPacket_zero r h, frameByte_getLsbD _ _ hj, decide_eq_false (by omega), Bool.false_or]
  congr 1
  omega

/-- Settles O8: two bytes of preamble, its end with the frame's first bit, then seven bytes of the frame's stream. -/
theorem layoutByteForm : Obligations.LayoutByteForm := by
  intro F r _ h6
  have h7 : F.getD 6 0#8 = 0#8 := List.getD_eq_default _ _ h6
  refine Vector.ext fun i hi => ?_
  obtain h | rfl | h : i < 2 ∨ i = 2 ∨ 3 ≤ i := by omega
  · rw [fillPacket_zero_preamble r h6 h]
    interval_cases i <;> rfl
  · exact fillPacket_zero_junction r h6
  · rw [fillPacket_zero_byte r h6 hi h]
    interval_cases i <;> simp [frameByte, -List.getD_eq_getElem?_getD, h7, BitVec.ushiftRight_eq_zero]

end Sys2Proof.Proofs
end

section
/-! PROOFS. When each agent has a step, and which of them moves (R11, R33, R183, R190 to R192, R331). -/

namespace Sys2Proof.Proofs

open Sys2Proof Sys2Proof.Machine

variable {s : State}

theorem due_iff {t : Timer} {l : Nat} : t.due l = true ↔ t.latched = true ∧ t.attached = true ∧ l ≤ t.age := by
  rw [Timer.due, Bool.and_eq_true, deliverable_iff, decide_eq_true_iff, and_assoc]

theorem anyDeliverable_iff : anyDeliverable s = true ↔ ∃ k g, ((s.gen g).timer k).deliverable = true :=
  ⟨anyDeliverable_cases, fun ⟨_, _, h⟩ => anyDeliverable_of h⟩

theorem anyDue_iff : anyDue s = true ↔ ∃ k g, ((s.gen g).timer k).due s.params.isrLatencyMax = true :=
  ⟨anyDue_cases, fun ⟨_, _, h⟩ => anyDue_of h⟩

theorem enabled_isr_iff {k : TimerKind} {g : Gen} :
    enabled s (.isr k g) = true ↔ ((s.gen g).timer k).latched = true ∧ ((s.gen g).timer k).attached = true :=
  deliverable_iff

theorem enabled_clock_iff :
    enabled s .clock = true ↔ ∀ k g, ((s.gen g).timer k).latched = true → ((s.gen g).timer k).attached = true →
      ((s.gen g).timer k).age < s.params.isrLatencyMax := by
  rw [enabled, Bool.not_eq_true', ← Bool.not_eq_true, anyDue_iff]
  simp only [due_iff, not_exists, not_and, not_le]

theorem anyDeliverable_eq_false_iff :
    anyDeliverable s = false ↔ ∀ k g, ¬ (((s.gen g).timer k).latched = true ∧ ((s.gen g).timer k).attached = true) := by
  rw [← Bool.not_eq_true, anyDeliverable_iff]
  simp only [deliverable_iff, not_exists]

theorem hostEnabled_iff :
    hostEnabled s = true ↔ (s.host.cmd ≠ none ∨ s.inputs.cmds ≠ []) ∧ s.host.wakeAt ≤ s.now ∧
      (anyDeliverable s = false ∨ 0 < s.params.isrLatencyMax) := by
  simp only [hostEnabled, Bool.and_eq_true, Bool.or_eq_true, Bool.not_eq_true', decide_eq_true_iff, Option.isSome_iff_ne_none,
    List.isEmpty_eq_false_iff, and_assoc]

/-- A given order is followed while its next agent has a step. -/
theorem pickAgent_given {a : Agent} {rest : List Agent} (hs : s.inputs.sched = a :: rest) (ha : enabled s a = true) :
    (pickAgent s).1 = a := by
  simp [pickAgent, nextAgent, hs, ha]

/-- Under the ideal latency a latched and attached interrupt is due at once. -/
theorem anyDue_of_ideal (hl : s.params.isrLatencyMax = 0) (hd : anyDeliverable s = true) : anyDue s = true := by
  obtain ⟨k, g, h⟩ := anyDeliverable_iff.1 hd
  obtain ⟨hlat, hatt⟩ := deliverable_iff.1 h
  exact anyDue_iff.2 ⟨k, g, due_iff.2 ⟨hlat, hatt, hl ▸ Nat.zero_le _⟩⟩

/-- Under the ideal latency neither the host nor the clock has a step while an interrupt waits, so an ISR moves (R192, R331). -/
theorem pickAgent_ideal (hl : s.params.isrLatencyMax = 0) (hd : anyDeliverable s = true) :
    ∃ k g, (pickAgent s).1 = .isr k g := by
  have hen := pickAgent_enabled s
  cases ha : (pickAgent s).1 with
  | isr k g => exact ⟨k, g, rfl⟩
  | host =>
    rw [ha] at hen
    obtain ⟨-, -, hidle | hpos⟩ := hostEnabled_iff.1 hen
    · rw [hidle] at hd; cases hd
    · omega
  | clock =>
    rw [ha, enabled, anyDue_of_ideal hl hd] at hen
    cases hen

/-- Settles O12: the agent chosen has a step, and each agent's condition is the one its rule gives. -/
theorem interruptsPreemptHostAndClock : Obligations.InterruptsPreemptHostAndClock := by
  intro s _
  refine ⟨pickAgent_enabled s, fun a rest => pickAgent_given, pickAgent_ideal, fun k g => enabled_isr_iff, enabled_clock_iff, ?_⟩
  rw [← anyDeliverable_eq_false_iff]
  exact hostEnabled_iff

end Sys2Proof.Proofs
end

section
/-! PROOFS. Progress: every step of an unfaulted block that meets the invariant answers a next state (R11, R322). One lemma for each
shared operation, then one for each command. -/

namespace Sys2Proof.Proofs

open Sys2Proof Sys2Proof.Machine

/-- The result is a next state: neither a fault nor a refusal. -/
def HasNext (r : Result) : Prop := ∃ t, r = .next t

variable {s : State} {g : Gen}

theorem hasNext_next (t : State) : HasNext (.next t) := ⟨t, rfl⟩

/-- Raising one of the block's own faults is a next state (R40, R322). -/
theorem raiseFault_hasNext (r : FaultReason) (s : State) : HasNext (raiseFault r s) := ⟨_, rfl⟩

/-! ### The stages of a load (R125 to R128) -/

theorem loadEntry_hasNext (n : Nat) (p : List Byte) (r : BitVec 8) (site : LoadSite) : HasNext (loadEntry g n p r site s) := by
  unfold loadEntry
  split
  · exact raiseFault_hasNext _ _
  · split <;> exact hasNext_next _

theorem loadAcquire_hasNext (site : LoadSite) : HasNext (loadAcquire site s) := by
  unfold loadAcquire
  dsimp only
  split <;> exact hasNext_next _

/-- A host that holds a slot holds one that exists (R31, R152). -/
theorem held_packet (h : Pre s) (hp : holdsSlot s.host.phase = true) :
    ∃ i p, (s.gen s.host.load.gen).filling = some i ∧ (s.gen s.host.load.gen).slots.read i = some p := by
  obtain ⟨i, hi⟩ := Option.ne_none_iff_exists'.1 ((h.filling s.host.load.gen).2 ⟨hp, rfl⟩)
  obtain ⟨p, hr⟩ := Memory.read_isSome (GenState.mem_owned_lt (h.pool _) (GenState.mem_owned.2 (.inr (.inr (.inl hi)))))
  exact ⟨i, p, hi, hr⟩

/-- A load goes on from each stage after its entry, if its command goes on from the publication. -/
theorem loadStage_hasNext (h : Pre s) {site : LoadSite} {stage : LoadStage} (hp : s.host.phase = .load site stage)
    (hs : stage ≠ .entry) {after : State → Result} (ha : ∀ i, HasNext (after (published i s))) :
    HasNext (loadStage site after stage s) := by
  cases stage with
  | entry => exact absurd rfl hs
  | acquire => exact loadAcquire_hasNext site
  | fill =>
    obtain ⟨i, p, hi, hr⟩ := held_packet h (by rw [hp]; rfl)
    exact ⟨_, fillHeld_next.2 ⟨i, p, hi, hr, rfl⟩⟩
  | publish =>
    obtain ⟨i, -, hi, -⟩ := held_packet h (by rw [hp]; rfl)
    obtain ⟨t, ht⟩ := ha i
    exact ⟨t, loadPublish_next.2 ⟨i, hi, ht⟩⟩

/-! ### Polls, START's steps and the engine's -/

theorem pollEmpty_hasNext {done : State → Result} (hd : HasNext (done s)) : HasNext (pollEmpty g done s) := by
  unfold pollEmpty
  split
  · exact hd
  · exact hasNext_next _

theorem startEntry_hasNext : HasNext (startEntry g s) := by
  unfold startEntry
  split
  · exact raiseFault_hasNext _ _
  · split
    · exact raiseFault_hasNext _ _
    · exact hasNext_next _

theorem configureEntry_hasNext (pin : BitVec 8) (pool : BitVec 16) : HasNext (configureEntry g pin pool s) := by
  unfold configureEntry
  split
  · exact raiseFault_hasNext _ _
  · split
    · exact raiseFault_hasNext _ _
    · exact hasNext_next _

theorem stopEntry_hasNext : HasNext (stopEntry g s) := by
  unfold stopEntry
  split
  · exact raiseFault_hasNext _ _
  · exact hasNext_next _

theorem startPhase_cases {p : HostPhase} (h : startPhase p = true) :
    (∃ stage, p = .load .bootReset stage) ∨ (∃ stage, p = .load .bootIdle stage) ∨ p = .arm := by
  unfold startPhase at h
  split at h
  · exact .inl ⟨_, rfl⟩
  · exact .inr (.inl ⟨_, rfl⟩)
  · exact .inr (.inr rfl)
  · cases h

/-- START goes on from each position it can rest at, and CONFIGURE at START's entry (R231, R240). -/
theorem startSteps_hasNext (h : Pre s) (hp : startPhase s.host.phase = true ∨ s.host.phase = .startEntry) :
    HasNext (startSteps g s) := by
  unfold startSteps
  split
  · exact startEntry_hasNext
  · exact loadEntry_hasNext _ _ _ _
  · rename_i stage hne hph
    exact loadStage_hasNext h hph hne fun i => hasNext_next _
  · exact loadEntry_hasNext _ _ _ _
  · rename_i stage hne hph
    exact loadStage_hasNext h hph hne fun i => hasNext_next _
  · exact hasNext_next _
  · rename_i hentry _ hreset _ hidle harm
    obtain hp | hp := hp
    · obtain ⟨stage, he⟩ | ⟨stage, he⟩ | he := startPhase_cases hp
      · exact absurd he (hreset stage)
      · exact absurd he (hidle stage)
      · exact absurd he harm
    · exact absurd hp hentry

theorem smEntry_hasNext (op : SmOp) (cv : BitVec 11) (b : BitVec 3) (v : BitVec 8) : HasNext (smEntry op cv b v s) := by
  unfold smEntry
  split
  · exact raiseFault_hasNext _ _
  · split
    · exact raiseFault_hasNext _ _
    · split
      · exact raiseFault_hasNext _ _
      · exact hasNext_next _

theorem smLoadEntry_hasNext : HasNext (smLoadEntry s) := by
  unfold smLoadEntry
  split
  · exact raiseFault_hasNext _ _
  · exact hasNext_next _

/-- The engine goes on from a publication in each of its loading phases (R269, R283). -/
theorem smAfterLoad_hasNext {write : Bool} {stage : LoadStage} (hp : smLoadPhase write s.sm.phase stage = true)
    (hs : stage ≠ .entry) : HasNext (smAfterLoad s) := by
  unfold smAfterLoad
  cases hph : s.sm.phase with
  | loadReset => exact hasNext_next _
  | loadFrame => exact hasNext_next _
  | loadTrail => dsimp only; split <;> exact hasNext_next _
  | entry =>
    rw [hph] at hp
    cases stage with
    | entry => exact absurd rfl hs
    | _ => cases hp
  | wait | sample | done => rw [hph] at hp; cases hp

theorem smSample_hasNext {dec : Bool → State → Result} (hd : ∀ a, HasNext (dec a s)) : HasNext (smSample dec s) := by
  unfold smSample
  split
  · exact hasNext_next _
  · exact hd _

theorem readDecide_hasNext (a : Bool) : HasNext (readDecide a s) := by
  unfold readDecide
  split <;> exact hasNext_next _

theorem writeDecide_hasNext (a : Bool) : HasNext (writeDecide a s) := by
  unfold writeDecide
  split <;> exact hasNext_next _

theorem smPositions_cases {write : Bool} {m : SmState} {p : HostPhase} (h : smPositions write m p = true) :
    (∃ stage, p = .load .engine stage ∧ smLoadPhase write m.phase stage = true) ∨ p = .poll ∨ p = .sample ∨
      (p = .finish ∧ write = true) := by
  unfold smPositions at h
  split at h
  · exact .inl ⟨_, rfl, h⟩
  · exact .inr (.inl rfl)
  · exact .inr (.inr (.inl rfl))
  · exact .inr (.inr (.inr ⟨rfl, h⟩))
  · cases h

/-- The engine goes on from each position it can rest at, but the end of a write (R281). -/
theorem smSteps_hasNext (h : Pre s) {write : Bool} (hp : smPositions write s.sm s.host.phase = true)
    (hne : s.host.phase ≠ .finish) {dec : Bool → State → Result} (hd : ∀ a, HasNext (dec a s)) :
    HasNext (smSteps dec s) := by
  unfold smSteps
  split
  · exact smLoadEntry_hasNext
  · rename_i stage hs hph
    rw [hph] at hp
    exact loadStage_hasNext h hph hs fun i => smAfterLoad_hasNext (by simpa [published, smPositions] using hp) hs
  · exact pollEmpty_hasNext (hasNext_next _)
  · exact smSample_hasNext hd
  · rename_i _ hload hpoll hsample
    obtain ⟨stage, he, -⟩ | he | he | ⟨he, -⟩ := smPositions_cases hp
    · exact absurd he (hload stage)
    · exact absurd he hpoll
    · exact absurd he hsample
    · exact absurd he hne

/-- Both writes go on from each position they can rest at (R283, R284). -/
theorem writeSteps_hasNext (h : Pre s) {op : SmOp}
    (hp : (smPositions true s.sm s.host.phase && s.sm.op == op && (s.gen .prog).mode != .unconfigured) = true) :
    HasNext (writeSteps s) := by
  rw [Bool.and_eq_true, Bool.and_eq_true] at hp
  obtain ⟨⟨hpos, -⟩, -⟩ := hp
  unfold writeSteps
  split
  · exact hasNext_next _
  · rename_i hne
    exact smSteps_hasNext h hpos hne writeDecide_hasNext

/-! ### The commands, the interrupts and the whole step -/

theorem execConfigure_hasNext (h : Pre s) (hf : s.faulted = none) {pin : BitVec 8} {pool : BitVec 16}
    (hp : s.host.phase = .entry ∨ commandPosition s (.configure g pin pool) = true) : HasNext (execConfigure g pin pool s) := by
  rw [execConfigure, unlessFaulted_none hf]
  split
  · exact configureEntry_hasNext pin pool
  · rename_i hne
    have hpos := hp.resolve_left hne
    simp only [commandPosition, Bool.and_eq_true, Bool.or_eq_true, beq_iff_eq] at hpos
    exact startSteps_hasNext h hpos.1

theorem execStart_hasNext (h : Pre s) (hf : s.faulted = none)
    (hp : s.host.phase = .entry ∨ commandPosition s (.start g) = true) : HasNext (execStart g s) := by
  rw [execStart, unlessFaulted_none hf]
  split
  · exact startEntry_hasNext
  · rename_i hph
    simp [hph, commandPosition, startPhase] at hp
  · rename_i hne _
    have hpos := hp.resolve_left hne
    rw [commandPosition, Bool.and_eq_true] at hpos
    exact startSteps_hasNext h (.inl hpos.1)

theorem execStop_hasNext (hf : s.faulted = none) (hp : s.host.phase = .entry ∨ commandPosition s (.stop g) = true) :
    HasNext (execStop g s) := by
  rw [execStop, unlessFaulted_none hf]
  split
  · exact stopEntry_hasNext
  · exact hasNext_next _
  · rename_i hentry hdrain
    have hpos := hp.resolve_left hentry
    simp only [commandPosition, Bool.and_eq_true, beq_iff_eq] at hpos
    exact absurd hpos.1 hdrain

theorem execLoadPacket_hasNext (h : Pre s) (hf : s.faulted = none) {len : BitVec 3} {rep : BitVec 8} {p0 p1 p2 p3 p4 : Byte}
    (hp : s.host.phase = .entry ∨ commandPosition s (.loadPacket g len rep p0 p1 p2 p3 p4) = true) :
    HasNext (execLoadPacket g len rep p0 p1 p2 p3 p4 s) := by
  rw [execLoadPacket, unlessFaulted_none hf]
  split
  · exact loadEntry_hasNext _ _ _ _
  · rename_i stage hph
    refine loadStage_hasNext h hph ?_ fun i => hasNext_next _
    rintro rfl
    simp [hph, commandPosition] at hp
  · rename_i hne hload
    have hpos := hp.resolve_left hne
    simp only [commandPosition, Bool.or_eq_true, beq_iff_eq] at hpos
    obtain (hpos | hpos) | hpos := hpos <;> exact absurd hpos (hload _)

theorem execIsEmpty_hasNext (hf : s.faulted = none) (hp : s.host.phase = .entry) : HasNext (execIsEmpty g s) := by
  rw [execIsEmpty, unlessFaulted_none hf, hp]
  dsimp only
  split
  · exact raiseFault_hasNext _ _
  · exact hasNext_next _

theorem execWaitEmpty_hasNext (hf : s.faulted = none) (hp : s.host.phase = .entry ∨ s.host.phase = .poll) :
    HasNext (execWaitEmpty g s) := by
  rw [execWaitEmpty, unlessFaulted_none hf]
  split
  · split
    · exact raiseFault_hasNext _ _
    · exact pollEmpty_hasNext (hasNext_next _)
  · exact pollEmpty_hasNext (hasNext_next _)
  · rename_i hentry hpoll
    exact absurd (hp.resolve_left hentry) hpoll

theorem execReadCv_hasNext (h : Pre s) (hf : s.faulted = none) {cv : BitVec 11}
    (hp : s.host.phase = .entry ∨ commandPosition s (.readCv cv) = true) : HasNext (execReadCv cv s) := by
  rw [execReadCv, unlessFaulted_none hf]
  split
  · exact smEntry_hasNext _ _ _ _
  · rename_i hne
    have hpos := hp.resolve_left hne
    simp only [commandPosition, Bool.and_eq_true] at hpos
    obtain ⟨⟨hpos, -⟩, -⟩ := hpos
    refine smSteps_hasNext h hpos (fun hph => ?_) readDecide_hasNext
    rw [hph] at hpos
    cases hpos

theorem execWriteProgCvByte_hasNext (h : Pre s) (hf : s.faulted = none) {cv : BitVec 11} {val : Byte}
    (hp : s.host.phase = .entry ∨ commandPosition s (.writeProgCvByte cv val) = true) : HasNext (execWriteProgCvByte cv val s) := by
  rw [execWriteProgCvByte, unlessFaulted_none hf]
  split
  · exact smEntry_hasNext _ _ _ _
  · rename_i hne
    exact writeSteps_hasNext h (hp.resolve_left hne)

theorem execWriteProgCvBit_hasNext (h : Pre s) (hf : s.faulted = none) {cv : BitVec 11} {bit : BitVec 3} {val : Bool}
    (hp : s.host.phase = .entry ∨ commandPosition s (.writeProgCvBit cv bit val) = true) :
    HasNext (execWriteProgCvBit cv bit val s) := by
  rw [execWriteProgCvBit, unlessFaulted_none hf]
  split
  · exact smEntry_hasNext _ _ _ _
  · rename_i hne
    exact writeSteps_hasNext h (hp.resolve_left hne)

theorem execIllegal_hasNext (hf : s.faulted = none) (w : CommandWord) : HasNext (execIllegal w s) := by
  rw [execIllegal, unlessFaulted_none hf]
  exact raiseFault_hasNext _ _

/-- A host command has a step at its entry and at every position it can rest at (R33). -/
theorem command_hasNext (h : Pre s) (hf : s.faulted = none) {i : Instr} (hi : isCommand i)
    (hp : s.host.phase = .entry ∨ commandPosition s i = true) : HasNext (exec i s) := by
  cases i with
  | configure => exact execConfigure_hasNext h hf hp
  | start => exact execStart_hasNext h hf hp
  | stop => exact execStop_hasNext hf hp
  | loadPacket => exact execLoadPacket_hasNext h hf hp
  | isEmpty => exact execIsEmpty_hasNext hf (hp.resolve_right Bool.false_ne_true)
  | waitEmpty => exact execWaitEmpty_hasNext hf (hp.imp_right beq_iff_eq.1)
  | readCv => exact execReadCv_hasNext h hf hp
  | writeProgCvByte => exact execWriteProgCvByte_hasNext h hf hp
  | writeProgCvBit => exact execWriteProgCvBit_hasNext h hf hp
  | illegal w => exact execIllegal_hasNext hf w
  | _ => exact hi.elim

/-- A command word decodes to a host command or to ILLEGAL (R82). -/
theorem decodeWord_isCommand (w : CommandWord) : isCommand (decodeWord w) := by
  obtain ⟨hfull, hpulse, hframe⟩ := decodeWord_host w
  cases hw : decodeWord w with
  | irqFull g => exact absurd hw (hfull g)
  | irqPulse g => exact absurd hw (hpulse g)
  | dccReset | dccIdle | smVerifyByte | smWriteByte | smVerifyBit | smWriteBit => exact absurd (by rw [hw]; rfl) (hframe _)
  | _ => trivial

/-- An interrupt that is latched and attached has a step, be it the one that raises CursorOverrun (R183, R213). -/
theorem interrupt_hasNext (hf : s.faulted = none) {k : TimerKind} (hd : ((s.gen g).timer k).deliverable = true) :
    HasNext (exec (decodeInterrupt k g) s) := by
  have htake := takeInterrupt_some.2 ⟨hd, rfl⟩
  cases k with
  | full =>
    rw [decodeInterrupt, exec, execIrqFull, unlessFaulted_none hf, htake]
    dsimp only
    split
    · exact raiseFault_hasNext _ _
    · exact hasNext_next _
  | pulse =>
    rw [decodeInterrupt, exec, execIrqPulse, unlessFaulted_none hf, htake]
    exact hasNext_next _

/-- Every agent that has a step takes it (R11). -/
theorem runAgent_hasNext (h : Inv s) (hf : s.faulted = none) {a : Agent} (ha : enabled s a = true) : HasNext (runAgent a s) := by
  cases a with
  | clock => exact hasNext_next _
  | isr k g => exact interrupt_hasNext hf ha
  | host =>
    obtain ⟨w, u, -, hu, hpre, -, -, hp, hrun⟩ := host_step h hf ha
    rw [hrun]
    exact command_hasNext hpre hu (decodeWord_isCommand w) (hp.imp_right And.left)

theorem step_hasNext (h : Inv s) (hf : s.faulted = none) : HasNext (step s) := by
  obtain ⟨l, d, p, w, hs⟩ := pickAgent_snd s
  rw [step, hf]
  dsimp only
  rw [hs]
  exact runAgent_hasNext (h.inputs { s.inputs with sched := l, draws := d, passed := p, waits := w }) hf
    ((enabled_inputs s l d p w _).trans (pickAgent_enabled s))

/-! ### Weak fairness of the host (R191) -/

/-- A step keeps the order and the waits that the choice of its agent left. -/
theorem step_waits {t : State} (h : step s = .next t) :
    t.inputs.sched = s.inputs.sched.tail ∧ t.inputs.passed = (pickAgent s).2.inputs.passed ∧
      t.inputs.waits = (pickAgent s).2.inputs.waits := by
  rw [← pickAgent_sched s]
  obtain ⟨-, inp, rfl, ⟨-, -, rfl⟩ | ⟨k, g, -, -, he⟩ | ⟨w, ws, -, -, -, he⟩ | ⟨w, -, -, he⟩⟩ := step_cases h
  · exact ⟨rfl, rfl, rfl⟩
  · exact exec_waits he
  · have hw := exec_waits he
    exact hw
  · have hw := exec_waits he
    exact hw

/-- While the host has a step and is passed over, the given order runs down and its one wait grows. -/
theorem run_passed {run : Nat → State} (hr : IsRun run) {n : Nat} (he : ∀ m, n ≤ m → hostEnabled (run m) = true)
    (hno : ∀ m, n ≤ m → (pickAgent (run m)).1 ≠ .host) (k : Nat) :
    (run (n + k)).inputs.sched = (run n).inputs.sched.drop k ∧ (run (n + k)).inputs.passed = (run n).inputs.passed + k ∧
      (run (n + k)).inputs.waits = (run n).inputs.waits := by
  induction k with
  | zero => exact ⟨rfl, rfl, rfl⟩
  | succ k ih =>
    obtain ⟨hsched, hpassed, hwaits⟩ := ih
    obtain ⟨hs, hp, hw⟩ := step_waits (hr (n + k))
    obtain ⟨hp', hw'⟩ := pickAgent_passed (he (n + k) (by omega)) (hno (n + k) (by omega))
    rw [← Nat.add_assoc, hs, hp, hw, hp', hw', hsched, hpassed, hwaits, List.tail_drop]
    exact ⟨rfl, rfl, rfl⟩

/-- Once the given order is used up and the host's patience is over, the host is the agent that moves. -/
theorem run_hostWeaklyFair {run : Nat → State} (hr : IsRun run) : HostWeaklyFair run := by
  intro n he
  by_contra hno
  push Not at hno
  obtain ⟨hsched, hpassed, hwaits⟩ :=
    run_passed hr he hno ((run n).inputs.sched.length + Config.hostPatience (run n).inputs.waits)
  have hpick := pickAgent_host (he _ (Nat.le_add_right n _))
    (hsched.trans (List.drop_eq_nil_of_le (Nat.le_add_right _ _))) (by rw [hwaits, hpassed]; omega)
  exact hno _ (Nat.le_add_right n _) hpick

/-- Settles O23: progress under the invariant, and fairness by the count of the host's wait. -/
theorem unfaultedBlockAlwaysSteps : Obligations.UnfaultedBlockAlwaysSteps :=
  ⟨fun _ => step_hasNext, fun _ => run_hostWeaklyFair⟩

end Sys2Proof.Proofs
end

section
/-! PROOFS. The whole step: that it keeps the block's invariant, and what it is where the host moves (R11, R33, R65, R331). -/

namespace Sys2Proof.Proofs

open Sys2Proof Sys2Proof.Machine

variable {s t : State}

/-! ### The invariant -/

/-- Every agent that has a step keeps the invariant: the clock, both ISRs, and the host at each position of each command. -/
theorem runAgent_inv (h : Inv s) (hf : s.faulted = none) {a : Agent} (ha : enabled s a = true) (hr : runAgent a s = .next t) :
    Inv t := by
  cases a with
  | clock =>
    obtain rfl := next_inj.1 hr
    exact clock_inv h
  | isr k g =>
    cases k with
    | full => exact (full_inv h hr).1
    | pulse => exact pulse_inv h hr
  | host =>
    obtain ⟨w, u, hc, -, hpre, -, -, hp, hrun⟩ := host_step h hf ha
    exact host_cmd_inv hpre hc hp (hrun ▸ hr)

/-- Choosing an agent keeps the invariant, which does not speak of the inputs. -/
theorem pickAgent_inv (h : Inv s) : Inv (pickAgent s).2 := by
  obtain ⟨l, d, p, w, hs⟩ := pickAgent_snd s
  rw [hs]
  exact h.inputs _

/-- The agent chosen still has its step once it is chosen. -/
theorem pickAgent_snd_enabled (s : State) : enabled (pickAgent s).2 (pickAgent s).1 = true := by
  obtain ⟨l, d, p, w, hs⟩ := pickAgent_snd s
  rw [hs, enabled_inputs]
  exact pickAgent_enabled s

/-- Settles O18: choosing the agent keeps the invariant, and so does the step of whichever agent is chosen. -/
theorem stepKeepsInvariant : Obligations.StepKeepsInvariant := by
  intro s t h hs
  obtain ⟨hf, hr⟩ := step_next hs
  exact runAgent_inv (pickAgent_inv h) hf (pickAgent_snd_enabled s) hr

/-! ### The host's step -/

/-- The step of a host that is the agent chosen: the instruction it fetches, in the state it fetches it in. -/
theorem step_host {s1 : State} (hf : s.faulted = none) (hp : pickAgent s = (.host, s1)) :
    step s = exec (hostFetch s1).1 (hostFetch s1).2 := by
  rw [step, hf]
  dsimp only
  rw [hp]
  rfl

/-- Choosing the host leaves what it fetches from: its own interface and the words it is offered. -/
theorem pickAgent_fetch {a : Agent} {s1 : State} (hp : pickAgent s = (a, s1)) :
    s1.host = s.host ∧ s1.inputs.cmds = s.inputs.cmds := by
  obtain ⟨-, rfl⟩ := Prod.mk.inj hp
  exact ⟨rfl, countWait_cmds s _⟩

theorem hostFetch_ready {w : CommandWord} {ws : List CommandWord} (hc : s.host.cmd = none) (hw : s.inputs.cmds = w :: ws) :
    hostFetch s = (decodeWord w, { s with
      host := { s.host with cmd := some w, phase := .entry, wakeAt := 0 }, inputs := { s.inputs with cmds := ws } }) := by
  simp only [hostFetch, takeCommand, hc, hw]
  rfl

theorem hostFetch_inside {w : CommandWord} (hc : s.host.cmd = some w) :
    hostFetch s = (hostInstr s.host w, { s with host := { s.host with wakeAt := 0 } }) := by
  simp only [hostFetch, takeCommand, hc]
  rfl

/-- Settles O10: a ready host fetches the next word, a host inside a command its word, and at the fill step of the block's own load the
frame in the load register. -/
theorem stepRunsHostInstruction : Obligations.StepRunsHostInstruction := by
  intro s s1 w hf hp
  obtain ⟨hh, hw⟩ := pickAgent_fetch hp
  rw [step_host hf hp, ← hh, ← hw]
  refine ⟨fun ws hc hws => ?_, fun hc hcaller => ?_, fun site i hc hph hne hi => ?_⟩
  · rw [hostFetch_ready hc hws]
  · rw [hostFetch_inside hc, hostInstr_word hcaller]
  · rw [hostFetch_inside hc, hostInstr_frame hph hne hi]

end Sys2Proof.Proofs
end

section
/-! PROOFS. Which step changes which part of the state: faults (R40, R322), time and the parameters (R20, R37), and what a step does to one
generator's mode, idle singleton, timers and pin (R27, R29, R36, R39). -/

namespace Sys2Proof.Proofs

open Sys2Proof Sys2Proof.Machine

variable {s t : State} {i : Instr}

/-! ### Faults -/

/-- A faulted block has no step of any instruction (R322). -/
theorem exec_faulted {r : FaultReason} (h : s.faulted = some r) (i : Instr) : exec i s = .fault (.quiescent r) := by
  cases i <;> exact unlessFaulted_some h _

/-- A step either raises a fault and changes nothing else, or leaves the fault mark as it is (R40). -/
theorem exec_fault_or_keep (h : exec i s = .next t) : (∃ r, t = { s with faulted := some r }) ∨ t.faulted = s.faulted := by
  have hform := (exec_next h).2
  cases hform with
  | fault r => exact .inl ⟨r, rfl⟩
  | arm g l d ok => right; cases ok <;> simp
  | configure g pin pool l d ok => right; cases ok <;> simp
  | _ => right; simp [acquired, filled, published, stopped]

/-- Settles O14: every meaning begins by asking for the fault mark, and only a raised fault sets it. -/
theorem faultsArePermanentAndPrecise : Obligations.FaultsArePermanentAndPrecise := by
  refine ⟨rfl, fun s r hr => ⟨by rw [step, hr], exec_faulted hr⟩, fun i s t r hf he hr => ?_⟩
  obtain ⟨q, rfl⟩ | hkeep := exec_fault_or_keep he
  · obtain rfl := Option.some.inj hr
    rfl
  · rw [hkeep, hf] at hr
    cases hr

/-! ### Time and the parameters -/

/-- No instruction moves time or writes a parameter (R20, R37). -/
theorem exec_now_params (h : exec i s = .next t) : t.now = s.now ∧ t.params = s.params := by
  have hform := (exec_next h).2
  cases hform with
  | arm g l d ok => cases ok <;> simp
  | configure g pin pool l d ok => cases ok <;> simp
  | _ => simp [acquired, filled, published, stopped]

/-- A step is the clock's, or an instruction's in a state with the same generators, time and parameters. -/
theorem step_clock_or_exec (h : step s = .next t) :
    ((pickAgent s).1 = .clock ∧ ∃ inp, t = clockStep { s with inputs := inp }) ∨
    ((pickAgent s).1 ≠ .clock ∧ ∃ i u, exec i u = .next t ∧ u.gen = s.gen ∧ u.now = s.now ∧ u.params = s.params) := by
  obtain ⟨-, inp, -, ⟨ha, -, ht⟩ | ⟨k, g, ha, -, he⟩ | ⟨w, ws, ha, -, -, he⟩ | ⟨w, ha, -, he⟩⟩ := step_cases h
  · exact .inl ⟨ha, inp, ht⟩
  · exact .inr ⟨by rw [ha]; simp, _, _, he, rfl, rfl, rfl⟩
  · exact .inr ⟨by rw [ha]; simp, _, _, he, rfl, rfl, rfl⟩
  · exact .inr ⟨by rw [ha]; simp, _, _, he, rfl, rfl, rfl⟩

/-- Settles O24: the clock adds one tick, and no instruction moves time. -/
theorem onlyClockAdvancesTime : Obligations.OnlyClockAdvancesTime := by
  intro s t h
  obtain ⟨ha, inp, rfl⟩ | ⟨ha, i, u, he, -, hnow, hparams⟩ := step_clock_or_exec h
  · exact ⟨rfl, .inl ⟨rfl, ha⟩⟩
  · obtain ⟨hn, hp⟩ := exec_now_params he
    exact ⟨hp.trans hparams, .inr ⟨hn.trans hnow, ha⟩⟩

/-! ### What a step does to one generator -/

/-- The parts of a generator that only the controller and the ISRs write are as they were. -/
structure GenKept (G H : GenState) : Prop where
  mode : H.mode = G.mode
  idle : H.idle = G.idle
  full : H.full = G.full
  pulse : H.pulse = G.pulse
  pinLevel : H.pinLevel = G.pinLevel

theorem GenKept.refl (G : GenState) : GenKept G G := ⟨rfl, rfl, rfl, rfl, rfl⟩

theorem GenKept.of_eq {G H : GenState} (h : H = G) : GenKept G H := h ▸ .refl G

theorem GenKept.trans {G H K : GenState} (h : GenKept G H) (k : GenKept H K) : GenKept G K :=
  ⟨k.mode.trans h.mode, k.idle.trans h.idle, k.full.trans h.full, k.pulse.trans h.pulse, k.pinLevel.trans h.pinLevel⟩

theorem GenKept.timer {G H : GenState} (h : GenKept G H) (k : TimerKind) : H.timer k = G.timer k := by
  cases k
  · exact h.full
  · exact h.pulse

/-- Returning slots to `free` zeroed keeps those parts (R250). -/
theorem foldl_returnZeroed_kept (l : List Nat) (G : GenState) : GenKept G (l.foldl returnZeroed G) := by
  induction l generalizing G with
  | nil => exact .refl G
  | cons j l ih => exact GenKept.trans (H := returnZeroed G j) ⟨rfl, rfl, rfl, rfl, rfl⟩ (ih _)

theorem drainGen_kept (G : GenState) : GenKept G (drainGen G) := by
  obtain ⟨hm, hi, hf, hp, hl⟩ := foldl_returnZeroed_kept (G.current.slotIndices ++ G.pending) G
  exact ⟨hm, hi, hf, hp, hl⟩

/-- A generator's update keeps those parts of both generators if it keeps them of the one it updates. -/
theorem modGen_kept {f : GenState → GenState} (hf : ∀ G, GenKept G (f G)) (s : State) (h g : Gen) :
    GenKept (s.gen g) ((s.modGen h f).gen g) := by
  rw [State.gen_modGen]
  split
  · subst_vars; exact hf _
  · exact .refl _

/-- What a step of an instruction did to generator `g`. -/
inductive GenChange (i : Instr) (s : State) (g : Gen) (H : GenState) : Prop
  /-- a load's stage, a queue's or the engine's step, STOP's drain, a fault, or a step of the other generator -/
  | kept (h : GenKept (s.gen g) H)
  /-- START's arming step (R241) -/
  | arm (boot : isBoot i g) (position : s.host.phase = .arm) (eq : H = armTimers g (s.gen g))
  /-- CONFIGURE's own step (R231) -/
  | configure (command : ∃ pin pool, i = .configure g pin pool) (position : s.host.phase = .entry)
      (before : (s.gen g).mode = .unconfigured) (after : H.mode = .idle) (full : H.full = (s.gen g).full)
      (pulse : H.pulse = (s.gen g).pulse)
  /-- STOP's first step (R249) -/
  | stop (command : i = .stop g) (position : s.host.phase = .entry) (before : (s.gen g).mode ≠ .unconfigured)
      (eq : H = { s.gen g with
        full := timerShutdown (s.gen g).full, pulse := timerShutdown (s.gen g).pulse, mode := .idle })
  /-- the full-cycle ISR (R185) -/
  | full (command : i = .irqFull g) (mode : H.mode = (s.gen g).mode) (idle : H.idle.buffer = (s.gen g).idle.buffer)
  /-- the pulse ISR (R186) -/
  | pulse (command : i = .irqPulse g) (eq : H = { s.gen g with
        pulse := { (s.gen g).pulse with latched := false, age := 0 }, pinLevel := .low })

/-- `GetNextBit` writes no stored bit of the idle singleton (R23). -/
theorem getNextBit_idle_buffer {G H : GenState} {b : Bool} (h : getNextBit G = some (b, H)) : H.idle.buffer = G.idle.buffer := by
  have hs := getNextBit_stored h .idlePkt
  simp only [GenState.stored, GenState.packet, Option.map_some, Option.some.injEq, Prod.mk.injEq] at hs
  exact hs.1

/-- Of the twelve updates a step can make, the arming step, CONFIGURE, STOP's first step and the ISRs alone are changes of more than a
generator's pool, queues and current packet. -/
theorem exec_genChange (h : exec i s = .next t) (g : Gen) : GenChange i s g (t.gen g) := by
  have hform := (exec_next h).2
  cases hform with
  | fault | host | engine => exact .kept (.of_eq (by cases g <;> rfl))
  | acquire site j rest =>
    refine .kept ?_
    rw [acquired, State.setPhase_gen]
    refine modGen_kept (fun G => ?_) s _ g
    exact ⟨rfl, rfl, rfl, rfl, rfl⟩
  | fill site frame j p =>
    refine .kept ?_
    rw [filled, State.setPhase_gen]
    refine modGen_kept (fun G => ?_) s _ g
    exact ⟨rfl, rfl, rfl, rfl, rfl⟩
  | publish site j h m =>
    exact .kept (modGen_kept (f := fun G => { G with pending := fifoPush G.pending j, filling := none })
      (fun G => ⟨rfl, rfl, rfl, rfl, rfl⟩) s _ g)
  | arm g' l d ok h boot position =>
    cases ok with
    | false => exact .kept (.of_eq (by cases g <;> rfl))
    | true =>
      show GenChange i s g ((s.modGen g' (armTimers g')).gen g)
      by_cases hg : g = g'
      · subst hg
        exact .arm boot position (State.gen_modGen_same ..)
      · exact .kept (.of_eq (State.gen_modGen_ne _ _ hg))
  | configure g' pin pool l d ok h command position mode =>
    by_cases hg : g = g'
    · subst hg
      refine .configure ⟨pin, pool, command⟩ position mode ?_ ?_ ?_ <;> cases ok <;> cases g <;> rfl
    · obtain rfl := Gen.ne_iff_other.1 hg
      exact .kept (.of_eq (by cases ok <;> cases g' <;> rfl))
  | stop g' command position mode =>
    rw [stopped, delay_gen, State.setPhase_gen]
    by_cases hg : g = g'
    · subst hg
      exact .stop command position mode (State.gen_modGen_same ..)
    · exact .kept (.of_eq (State.gen_modGen_ne _ _ hg))
  | drain g' =>
    refine .kept ?_
    rw [respond_gen]
    exact modGen_kept drainGen_kept s _ g
  | full g' b G command due bit =>
    by_cases hg : g = g'
    · subst hg
      rw [pinWrite_gen_same, State.gen_setGen_same]
      have hidle := getNextBit_idle_buffer bit
      exact .full command (getNextBit_frame bit).mode hidle
    · obtain rfl := Gen.ne_iff_other.1 hg
      exact .kept (.of_eq (by rw [pinWrite_gen_other, State.gen_setGen_other]))
  | pulse g' command =>
    by_cases hg : g = g'
    · subst hg
      exact .pulse command (by rw [pinWrite_gen_same, State.gen_modGen_same])
    · exact .kept (.of_eq (by rw [pinWrite_gen, if_neg hg, State.gen_modGen_ne _ _ hg]))

/-- Settles O26: of all the changes of a generator, CONFIGURE's, the arming step's and STOP's alone write its mode. -/
theorem modeChangesOnlyByController : Obligations.ModeChangesOnlyByController := by
  intro i s t g h hne
  cases exec_genChange h g with
  | kept hk => exact absurd hk.mode hne
  | arm boot position eq => exact .inr (.inl ⟨boot, position, by rw [eq]; rfl⟩)
  | configure command position before after =>
    obtain ⟨pin, pool, rfl⟩ := command
    exact .inl ⟨pin, pool, rfl, position, before, after⟩
  | stop command position before eq => exact .inr (.inr ⟨command, position, before, by rw [eq]⟩)
  | full _ mode => exact absurd mode hne
  | pulse _ eq => exact absurd (by rw [eq]) hne

/-- Settles O28: of all the changes of a generator, the arming step's, STOP's and its own ISRs' alone write a timer. -/
theorem timersTouchedOnlyByStartStopAndIsrs : Obligations.TimersTouchedOnlyByStartStopAndIsrs := by
  intro i s t g k h hne
  cases exec_genChange h g with
  | kept hk => exact absurd (hk.timer k) hne
  | arm boot position => exact .inl ⟨boot, position⟩
  | configure _ _ _ _ full pulse =>
    cases k with
    | full => exact absurd full hne
    | pulse => exact absurd pulse hne
  | stop command position => exact .inr (.inl ⟨command, position⟩)
  | full command => exact .inr (.inr (.inl command))
  | pulse command eq =>
    cases k with
    | full => exact absurd (by rw [eq]; rfl) hne
    | pulse => exact .inr (.inr (.inr ⟨command, rfl⟩))

/-! ### The idle singleton -/

/-- No step makes a generator Unconfigured (R254). -/
theorem exec_keeps_configured (h : exec i s = .next t) {g : Gen} (hm : (s.gen g).mode ≠ .unconfigured) :
    (t.gen g).mode ≠ .unconfigured := by
  by_cases he : (t.gen g).mode = (s.gen g).mode
  · rwa [he]
  · obtain ⟨_, _, -, -, -, ha⟩ | ⟨-, -, ha⟩ | ⟨-, -, -, ha⟩ := modeChangesOnlyByController i s t g h he <;> simp [ha]

/-- No step of a configured generator writes the idle singleton's buffer: CONFIGURE's own step, which does, needs an Unconfigured
one (R29, R231). -/
theorem exec_idle_buffer (h : exec i s = .next t) {g : Gen} (hm : (s.gen g).mode ≠ .unconfigured) :
    (t.gen g).idle.buffer = (s.gen g).idle.buffer := by
  cases exec_genChange h g with
  | kept hk => rw [hk.idle]
  | arm _ _ eq => rw [eq]; rfl
  | configure _ _ before => exact absurd before hm
  | stop _ _ _ eq => rw [eq]
  | full _ _ idle => exact idle
  | pulse _ eq => rw [eq]

/-- Settles O27: the buffer is never written, and the invariant, which the step keeps, fixes the length and the repeat count. -/
theorem idleSingletonNeverChanges : Obligations.IdleSingletonNeverChanges := by
  intro s t g hinv h hm
  have key : (t.gen g).idle.buffer = (s.gen g).idle.buffer ∧ (t.gen g).mode ≠ .unconfigured := by
    obtain ⟨-, inp, rfl⟩ | ⟨-, i, u, he, hgen, -, -⟩ := step_clock_or_exec h
    · rw [clockStep_gen]
      exact ⟨rfl, hm⟩
    · rw [← hgen] at hm ⊢
      exact ⟨exec_idle_buffer he hm, exec_keeps_configured he hm⟩
  have hidle := ((stepKeepsInvariant s t hinv h).packets g).idle key.2
  exact ⟨key.1, hidle.numBits, hidle.repeats⟩

/-! ### The pins and the trace -/

/-- The step to `t` wrote `g`'s pin with `level`, traced it, and left the other pin (R39). -/
def PinWritten (s t : State) (g : Gen) (level : Level) : Prop :=
  t.trace = s.trace ++ [{ time := s.now, gen := g, level := level }] ∧ (t.gen g).pinLevel = level ∧
    (t.gen g.other).pinLevel = (s.gen g.other).pinLevel

/-- The step to `t` wrote no pin. -/
def PinsKept (s t : State) : Prop := t.trace = s.trace ∧ ∀ g, (t.gen g).pinLevel = (s.gen g).pinLevel

theorem pinWrite_written (g : Gen) (l : Level) {u : State} (htrace : u.trace = s.trace) (hnow : u.now = s.now)
    (hother : (u.gen g.other).pinLevel = (s.gen g.other).pinLevel) : PinWritten s (pinWrite g l u) g l :=
  ⟨by rw [pinWrite_trace, htrace, hnow], by rw [pinWrite_gen_same], by rw [pinWrite_gen_other, hother]⟩

/-- CONFIGURE's own step drives the pin LOW where it goes on to START, and otherwise writes no pin (R231, R233). -/
theorem configure_pins {g : Gen} {pin : BitVec 8} {pool : BitVec 16} (h : exec (.configure g pin pool) s = .next t)
    (hp : s.host.phase = .entry) :
    (t.host.phase = .startEntry ∧ PinWritten s t g .low) ∨ (t.host.phase = .entry ∧ PinsKept s t) := by
  obtain ⟨-, ⟨-, he⟩ | ⟨hne, -⟩⟩ := execConfigure_next h
  · obtain ⟨-, rfl⟩ | ⟨-, -, ⟨-, rfl⟩ | ⟨-, rfl⟩⟩ := configureEntry_next he
    · exact .inr ⟨hp, rfl, fun g => by cases g <;> rfl⟩
    · refine .inl ⟨rfl, ?_, ?_, ?_⟩ <;> cases g <;> rfl
    · refine .inr ⟨rfl, ?_, fun j => ?_⟩
      · simp
      · cases g <;> cases j <;> rfl
  · exact absurd hp hne

/-- The full-cycle ISR drives the pin HIGH, or faults and writes no pin (R185, R213). -/
theorem irqFull_pins {g : Gen} (h : exec (.irqFull g) s = .next t) :
    (t.faulted = none ∧ PinWritten s t g .high) ∨ (t.faulted ≠ none ∧ PinsKept s t) := by
  obtain ⟨hf, -, u, rfl, ⟨-, rfl⟩ | ⟨b, G, -, rfl⟩⟩ := execIrqFull_next h
  · exact .inr ⟨Option.some_ne_none _, rfl, fun g => by cases g <;> rfl⟩
  · refine .inl ⟨by simp [hf], pinWrite_written g .high (by simp) (by simp) ?_⟩
    rw [State.gen_setGen_other, State.gen_modGen_ne _ _ (Gen.other_ne g)]

/-- The pulse ISR drives the pin LOW (R186). -/
theorem irqPulse_pins {g : Gen} (h : exec (.irqPulse g) s = .next t) : PinWritten s t g .low := by
  obtain ⟨-, -, rfl⟩ := execIrqPulse_next h
  exact pinWrite_written g .low (by simp) (by simp) (by rw [State.gen_modGen_ne _ _ (Gen.other_ne g)])

/-- Any other step writes no pin. -/
theorem exec_pinsKept (h : exec i s = .next t) (hc : ∀ g pin pool, i = .configure g pin pool → s.host.phase ≠ .entry)
    (hfull : ∀ g, i ≠ .irqFull g) (hpulse : ∀ g, i ≠ .irqPulse g) : PinsKept s t := by
  constructor
  · have hform := (exec_next h).2
    cases hform with
    | arm g l d ok => cases ok <;> simp
    | configure g pin pool l d ok h command position => exact absurd position (hc _ _ _ command)
    | full g b G command => exact absurd command (hfull g)
    | pulse g command => exact absurd command (hpulse g)
    | _ => simp [acquired, filled, published, stopped]
  · intro g
    cases exec_genChange h g with
    | kept hk => exact hk.pinLevel
    | arm _ _ eq => rw [eq]; rfl
    | configure command position =>
      obtain ⟨pin, pool, rfl⟩ := command
      exact absurd position (hc _ _ _ rfl)
    | stop _ _ _ eq => rw [eq]
    | full command => exact absurd command (hfull g)
    | pulse command => exact absurd command (hpulse g)

/-- Settles O25: the three steps that write a pin write it as they should, and each step that writes none keeps both. -/
theorem pinWritesAreTraced : Obligations.PinWritesAreTraced := by
  intro i s t h
  constructor
  · rintro g l (⟨pin, pool, rfl, hp, ht, rfl⟩ | ⟨rfl, hf, rfl⟩ | ⟨rfl, rfl⟩)
    · obtain ⟨-, hw⟩ | ⟨he, -⟩ := configure_pins h hp
      · exact hw
      · rw [he] at ht; cases ht
    · obtain ⟨-, hw⟩ | ⟨hne, -⟩ := irqFull_pins h
      · exact hw
      · exact absurd hf hne
    · exact irqPulse_pins h
  · intro hno
    by_cases hc : ∃ g pin pool, i = .configure g pin pool ∧ s.host.phase = .entry
    · obtain ⟨g, pin, pool, rfl, hp⟩ := hc
      obtain ⟨ht, -⟩ | ⟨-, hk⟩ := configure_pins h hp
      · exact absurd (.inl ⟨pin, pool, rfl, hp, ht, rfl⟩) (hno g .low)
      · exact hk
    by_cases hfull : ∃ g, i = .irqFull g
    · obtain ⟨g, rfl⟩ := hfull
      obtain ⟨hf, -⟩ | ⟨-, hk⟩ := irqFull_pins h
      · exact absurd (.inr (.inl ⟨rfl, hf, rfl⟩)) (hno g .high)
      · exact hk
    refine exec_pinsKept h (fun g pin pool hi hp => hc ⟨g, pin, pool, hi, hp⟩) (fun g hi => hfull ⟨g, hi⟩) fun g hi => ?_
    exact hno g .low (.inr (.inr ⟨hi, rfl⟩))

end Sys2Proof.Proofs
end

section
/-! PROOFS. Power-on: the values the power-on column gives, and the invariants there (R41, R350). The pulse ISR exactly (R183, R186). -/

namespace Sys2Proof.Proofs

open Sys2Proof Sys2Proof.Machine

/-! ### Power-on -/

theorem reset_gen (g : Gen) : State.reset.gen g = GenState.powerOn (Config.powerOnPinLevel g) := by cases g <;> rfl

theorem reset_gen_params (p : Params) (g : Gen) :
    ({ State.reset with params := p } : State).gen g = GenState.powerOn (Config.powerOnPinLevel g) := by cases g <;> rfl

theorem powerOn_timer (l : Level) (k : TimerKind) : (GenState.powerOn l).timer k = Timer.off := by cases k <;> rfl

/-- Settles O16: the record of the power-on state, field by field. -/
theorem powerOnValues : Obligations.PowerOnValues := by
  refine ⟨rfl, rfl, rfl, rfl, rfl, rfl, rfl, fun g => ?_⟩
  rw [reset_gen]
  refine ⟨rfl, rfl, rfl, rfl, rfl, rfl, rfl, fun k => ?_⟩
  rw [powerOn_timer]
  exact ⟨rfl, rfl, rfl, rfl, rfl, rfl, rfl⟩

theorem powerOn_pool (l : Level) : PoolInv (GenState.powerOn l) := ⟨.refl _, rfl⟩

theorem powerOn_packets (l : Level) : PacketsInv (GenState.powerOn l) where
  pending := fun _ hj => absurd hj List.not_mem_nil
  current := nofun
  idle := fun hm => absurd rfl hm
  unconfigured := fun _ => rfl

theorem powerOn_timers (l : Level) : TimerInv (GenState.powerOn l) :=
  ⟨fun _ => ⟨rfl, rfl⟩, nofun⟩

theorem powerOn_not_running (l : Level) : (GenState.powerOn l).mode ≠ .running := nofun

/-- A ready host at the entry position, holding nothing, agrees with two generators that hold and play nothing. -/
theorem reset_host : HostInv State.reset where
  ready := fun _ _ => rfl
  position := nofun
  target := nofun
  filling := fun g => by
    rw [reset_gen]
    exact ⟨fun h => absurd rfl h, nofun⟩
  frame := nofun
  publish := nofun
  bootFrame := nofun
  rest := fun g _ hc => absurd (by rw [reset_gen]; rfl) hc

theorem reset_inv : Inv State.reset where
  pool := fun g => by rw [reset_gen]; exact powerOn_pool _
  packets := fun g => by rw [reset_gen]; exact powerOn_packets _
  timers := fun g => by rw [reset_gen]; exact powerOn_timers _
  host := reset_host

/-- No generator is Running at power-on. -/
theorem reset_no_running {p : Params} {g : Gen} {P : Prop}
    (h : (({ State.reset with params := p } : State).gen g).mode = .running) : P := by
  rw [reset_gen_params] at h
  exact absurd h (powerOn_not_running _)

theorem reset_timers (p : Params) (g : Gen) : TimerInv (({ State.reset with params := p } : State).gen g) := by
  rw [reset_gen_params]
  exact powerOn_timers _

/-- Settles O17: no generator is configured, nothing is held or played, and no timer runs. -/
theorem resetMeetsInvariants : Obligations.ResetMeetsInvariants :=
  ⟨reset_inv, nofun,
    fun p hp => ⟨hp, reset_timers p, fun _ => reset_no_running, fun _ => reset_no_running⟩,
    fun p hp => ⟨hp, reset_timers p, fun _ => reset_no_running, fun _ => reset_no_running, fun _ => reset_no_running,
      fun _ => reset_no_running⟩⟩

/-! ### The pulse ISR -/

/-- Settles O33: delivery clears the interrupt, and the body writes the pin. -/
theorem pulseIsrDrivesLow : Obligations.PulseIsrDrivesLow := by
  intro g s hf hl ha
  have htake := takeInterrupt_some (k := .pulse).2 ⟨deliverable_iff.2 ⟨hl, ha⟩, rfl⟩
  rw [exec, execIrqPulse, unlessFaulted_none hf, htake]
  cases g <;> rfl

end Sys2Proof.Proofs
end

section
/-! PROOFS. A command word and a frame decode to the instruction they encode (R81, R82, R88, R89), and a code given to the block is what its
very next step runs (log entry 8). -/

namespace Sys2Proof.Proofs

open Sys2Proof Sys2Proof.Machine
open Sys2Proof.Laws.LawfulCode (fits_configure fits_loadPacket fits_readCv fits_writeProgCvByte fits_writeProgCvBit)

/-! ### A word fits one row at most -/

/-- The rows differ in the opcode, which every row's mask keeps. -/
theorem fits_opField {r : CommandRow} (hr : r ∈ tableRows) {w : CommandWord} (h : r.fits w = true) : opField w = opField r.pattern := by
  have hmask : ∀ r ∈ tableRows, opField r.mask = 0xF#4 := by decide
  rw [CommandRow.fits, beq_iff_eq] at h
  have hand : opField (w &&& r.mask) = opField w &&& opField r.mask := BitVec.extractLsb'_and
  rw [← h, hand, hmask r hr]
  exact BitVec.and_allOnes.symm

/-- No word fits two rows (R82). -/
theorem fits_unique {r q : CommandRow} (hr : r ∈ tableRows) (hq : q ∈ tableRows) (hne : q ≠ r) {w : CommandWord}
    (h : r.fits w = true) : q.fits w = false := by
  have hop : ∀ r ∈ tableRows, ∀ q ∈ tableRows, opField q.pattern = opField r.pattern → q = r := by decide
  rw [← Bool.not_eq_true]
  exact fun h' => hne (hop r hr q hq ((fits_opField hq h').symm.trans (fits_opField hr h)))

/-- The rows of the decoder and the command each reads from a word. -/
def rowCommands (w : CommandWord) : List (CommandRow × Instr) :=
  [(rowConfigure, .configure (genField w) (w.extractLsb' 40 8) (w.extractLsb' 16 16)),
   (rowStart, .start (genField w)), (rowStop, .stop (genField w)),
   (rowLoadPacket, .loadPacket (genField w) (w.extractLsb' 56 3) (w.extractLsb' 48 8) (w.extractLsb' 40 8) (w.extractLsb' 32 8)
      (w.extractLsb' 24 8) (w.extractLsb' 16 8) (w.extractLsb' 8 8)),
   (rowIsEmpty, .isEmpty (genField w)), (rowWaitEmpty, .waitEmpty (genField w)), (rowReadCv, .readCv (cvField w)),
   (rowWriteProgCvByte, .writeProgCvByte (cvField w) (w.extractLsb' 0 8)),
   (rowWriteProgCvBit, .writeProgCvBit (cvField w) (w.extractLsb' 8 3) (w.getLsbD 0))]

/-- A word that fits a row is read by that row, whatever its place in the decoder's order. -/
theorem decodeWord_of_fits {w : CommandWord} {r : CommandRow} {i : Instr} (hm : (r, i) ∈ rowCommands w) (h : r.fits w = true) :
    decodeWord w = i := by
  have hn (hr : r ∈ tableRows) (q : CommandRow) (hq : q ∈ tableRows) (hne : q ≠ r) : q.fits w = false := fits_unique hr hq hne h
  simp only [rowCommands, List.mem_cons, Prod.mk.injEq, List.not_mem_nil, or_false] at hm
  rcases hm with ⟨rfl, rfl⟩ | ⟨rfl, rfl⟩ | ⟨rfl, rfl⟩ | ⟨rfl, rfl⟩ |
    ⟨rfl, rfl⟩ | ⟨rfl, rfl⟩ | ⟨rfl, rfl⟩ | ⟨rfl, rfl⟩ | ⟨rfl, rfl⟩
  all_goals
    replace hn := hn (by decide)
    simp (disch := decide) [decodeWord, decodeCommand, h, hn]

/-! ### The fields of a word, read back (R81, R84) -/

theorem decodeWord_configure (g : Gen) (pin : BitVec 8) (pool : BitVec 16) :
    decodeWord (0x1#4 ++ g.code ++ 0#11 ++ pin ++ 0#8 ++ pool ++ 0#16) = .configure g pin pool := by
  rw [decodeWord_of_fits (List.mem_of_getElem? (i := 0) rfl) (fits_configure g pin pool)]
  congr 1
  · simp only [genField, BitVec.getLsbD_append]
    cases g <;> rfl
  all_goals simp (disch := decide) only [BitVec.extractLsb'_append_eq_of_add_le, BitVec.extractLsb'_append_eq_of_le, Nat.reduceSub,
    BitVec.extractLsb'_eq_self]

theorem decodeWord_loadPacket (g : Gen) (len : BitVec 3) (rep : BitVec 8) (p0 p1 p2 p3 p4 : Byte) :
    decodeWord (0x4#4 ++ g.code ++ len ++ rep ++ p0 ++ p1 ++ p2 ++ p3 ++ p4 ++ 0#8) = .loadPacket g len rep p0 p1 p2 p3 p4 := by
  rw [decodeWord_of_fits (List.mem_of_getElem? (i := 3) rfl) (fits_loadPacket g len rep p0 p1 p2 p3 p4)]
  congr 1
  · simp only [genField, BitVec.getLsbD_append]
    cases g <;> rfl
  all_goals simp (disch := decide) only [BitVec.extractLsb'_append_eq_of_add_le, BitVec.extractLsb'_append_eq_of_le, Nat.reduceSub,
    BitVec.extractLsb'_eq_self]

theorem decodeWord_readCv (cv : BitVec 11) : decodeWord (0x7#4 ++ 0#17 ++ cv ++ 0#32) = .readCv cv := by
  rw [decodeWord_of_fits (List.mem_of_getElem? (i := 6) rfl) (fits_readCv cv)]
  congr 1
  simp (disch := decide) only [cvField, BitVec.extractLsb'_append_eq_of_add_le, BitVec.extractLsb'_append_eq_of_le, Nat.reduceSub,
    BitVec.extractLsb'_eq_self]

theorem decodeWord_writeProgCvByte (cv : BitVec 11) (val : Byte) :
    decodeWord (0x8#4 ++ 0#17 ++ cv ++ 0#24 ++ val) = .writeProgCvByte cv val := by
  rw [decodeWord_of_fits (List.mem_of_getElem? (i := 7) rfl) (fits_writeProgCvByte cv val)]
  congr 1
  all_goals simp (disch := decide) only [cvField, BitVec.extractLsb'_append_eq_of_add_le, BitVec.extractLsb'_append_eq_of_le, Nat.reduceSub,
    BitVec.extractLsb'_eq_self]

theorem decodeWord_writeProgCvBit (cv : BitVec 11) (bit : BitVec 3) (val : Bool) :
    decodeWord (0x9#4 ++ 0#17 ++ cv ++ 0#21 ++ bit ++ 0#7 ++ BitVec.ofBool val) = .writeProgCvBit cv bit val := by
  rw [decodeWord_of_fits (List.mem_of_getElem? (i := 8) rfl) (fits_writeProgCvBit cv bit val)]
  congr 1
  · simp (disch := decide) only [cvField, BitVec.extractLsb'_append_eq_of_add_le, BitVec.extractLsb'_append_eq_of_le, Nat.reduceSub,
    BitVec.extractLsb'_eq_self]
  · simp (disch := decide) only [BitVec.extractLsb'_append_eq_of_add_le, BitVec.extractLsb'_append_eq_of_le, Nat.reduceSub,
    BitVec.extractLsb'_eq_self]
  · simp only [BitVec.getLsbD_append]
    cases val <;> rfl

/-- A word that spells no command is ILLEGAL with that word (R82). -/
theorem decodeWord_illegal {w : CommandWord} (h : spellsCommand w = false) : decodeWord w = .illegal w := by
  have hn : ∀ r ∈ tableRows, r.fits w = false := by simpa [spellsCommand] using h
  simp (disch := decide) [decodeWord, decodeCommand, hn]

/-- A well-formed command's own word decodes to it (R81, R82). -/
theorem decodeWord_encode {i : Instr} {w : CommandWord} (hi : i.wf = true) (he : encode i = .word w) : decodeWord w = i := by
  cases i with
  | configure g pin pool => obtain rfl := Code.word.inj he; exact decodeWord_configure g pin pool
  | start g => obtain rfl := Code.word.inj he; cases g <;> decide
  | stop g => obtain rfl := Code.word.inj he; cases g <;> decide
  | loadPacket g len rep p0 p1 p2 p3 p4 => obtain rfl := Code.word.inj he; exact decodeWord_loadPacket ..
  | isEmpty g => obtain rfl := Code.word.inj he; cases g <;> decide
  | waitEmpty g => obtain rfl := Code.word.inj he; cases g <;> decide
  | readCv cv => obtain rfl := Code.word.inj he; exact decodeWord_readCv cv
  | writeProgCvByte cv val => obtain rfl := Code.word.inj he; exact decodeWord_writeProgCvByte cv val
  | writeProgCvBit cv bit val => obtain rfl := Code.word.inj he; exact decodeWord_writeProgCvBit cv bit val
  | illegal v => obtain rfl := Code.word.inj he; exact decodeWord_illegal (by simpa [Instr.wf] using hi)
  | _ => cases he

/-! ### The fields of a frame, read back (R89) -/

theorem smByte0_header (h : BitVec 6) (a : BitVec 10) : (smByte0 h a).extractLsb' 2 6 = h := by
  simp (disch := decide) only [smByte0, BitVec.extractLsb'_append_eq_of_le, Nat.reduceSub, BitVec.extractLsb'_eq_self]

theorem smAddress_smBytes (h : BitVec 6) (a : BitVec 10) : smAddress (smByte0 h a) (smByte1 a) = a := by
  have h0 : (smByte0 h a).extractLsb' 0 2 = a.extractLsb' 8 2 := by
    simp (disch := decide) only [smByte0, BitVec.extractLsb'_append_eq_of_add_le, BitVec.extractLsb'_eq_self]
  rw [smAddress, h0, smByte1]
  exact (BitVec.extractLsb'_append_extractLsb'_eq_extractLsb' (by rfl)).trans BitVec.extractLsb'_eq_self

theorem smBitByte_header (h : BitVec 4) (v : Bool) (b : BitVec 3) : (smBitByte h v b).extractLsb' 4 4 = h := by
  simp (disch := decide) only [smBitByte, BitVec.extractLsb'_append_eq_of_le, Nat.reduceSub, BitVec.extractLsb'_eq_self]

theorem smBitByte_value (h : BitVec 4) (v : Bool) (b : BitVec 3) : (smBitByte h v b).getLsbD 3 = v := by
  simp only [smBitByte, BitVec.getLsbD_append]
  cases v <;> rfl

theorem smBitByte_index (h : BitVec 4) (v : Bool) (b : BitVec 3) : (smBitByte h v b).extractLsb' 0 3 = b := by
  simp (disch := decide) only [smBitByte, BitVec.extractLsb'_append_eq_of_add_le, BitVec.extractLsb'_eq_self]

/-- A frame's own bytes decode to it, whatever its checksum byte (R88, R89; log entry 17). -/
theorem decodeFrame_encode {i : Instr} {b : List Byte} (he : encode i = .frame b) : decodeFrame b = .ok i := by
  cases i with
  | dccReset => obtain rfl := Code.frame.inj he; decide
  | dccIdle => obtain rfl := Code.frame.inj he; decide
  | smVerifyByte a d x =>
    obtain rfl := Code.frame.inj he
    simp [verifyByteFrame, decodeFrame, smByte0_header, smAddress_smBytes]
  | smWriteByte a d x =>
    obtain rfl := Code.frame.inj he
    simp [writeByteFrame, decodeFrame, smByte0_header, smAddress_smBytes]
  | smVerifyBit a v b x =>
    obtain rfl := Code.frame.inj he
    simp only [verifyBitFrame, decodeFrame, decodeBitFrame, smByte0_header, smAddress_smBytes, smBitByte_header, smBitByte_value,
      smBitByte_index]
    simp
  | smWriteBit a v b x =>
    obtain rfl := Code.frame.inj he
    simp only [writeBitFrame, decodeFrame, decodeBitFrame, smByte0_header, smAddress_smBytes, smBitByte_header, smBitByte_value,
      smBitByte_index]
    simp
  | _ => cases he

/-! ### A code that is given runs next (log entry 8) -/

/-- A block whose timers are quiet, whose delay is over and whose host has a command or a word, with the host next in the order given,
lets the host move. -/
theorem pickAgent_hostNext {u : State} (hq : anyDeliverable u = false) (hw : u.host.wakeAt = 0)
    (hc : u.host.cmd ≠ none ∨ u.inputs.cmds ≠ []) {rest : List Agent} (hs : u.inputs.sched = .host :: rest) :
    pickAgent u = (.host, (pickAgent u).2) :=
  Prod.ext (pickAgent_given hs (hostEnabled_iff.2 ⟨hc, hw ▸ Nat.zero_le _, .inl hq⟩)) rfl

theorem offerWord_quiet (w : CommandWord) (s : State) : anyDeliverable (offerWord w s) = false := rfl

theorem offerFrame_quiet (b : List Byte) (s : State) : anyDeliverable (offerFrame b s) = false := rfl

theorem withFetchWord_word (s : State) (w : CommandWord) : s.withFetchWord 64 w.toNat = offerWord w s := by
  show offerWord (BitVec.ofNat 64 w.toNat) s = _
  rw [BitVec.ofNat_toNat, BitVec.setWidth_eq]

theorem withFetchWord_frame {n w : Nat} {b : List Byte} (h : tableCode n w = some (.frame b)) (s : State) :
    s.withFetchWord n w = offerFrame b s := by
  rw [State.withFetchWord, h]

/-- A further slot that the host holds exists, and it is a fresh one (R126, R152). -/
theorem holdNewSlot_read (G : GenState) : (holdNewSlot G).slots.read G.slots.length = some Packet.zero := by
  simp [holdNewSlot, Memory.read]

/-- Settles O13: the host is the next agent, and what it fetches is the word or frame given, which decodes to its instruction. -/
theorem offeredCodeIsRunNext : Obligations.OfferedCodeIsRunNext := by
  refine ⟨fun s i w hi he => ?_, fun s i b n w he ht => ?_⟩
  · have hp := pickAgent_hostNext (offerWord_quiet w s) rfl (.inr (List.cons_ne_nil _ _)) rfl
    obtain ⟨hready, -, -⟩ := stepRunsHostInstruction _ _ w rfl hp
    rw [withFetchWord_word, hready _ rfl rfl, decodeWord_encode hi he]
    exact ⟨_, rfl, rfl, rfl, rfl, fun g => by cases g <;> exact ⟨rfl, rfl, rfl, rfl⟩⟩
  · have hp := pickAgent_hostNext (offerFrame_quiet b s) rfl (.inl (Option.some_ne_none _)) rfl
    obtain ⟨-, -, hframe⟩ := stepRunsHostInstruction _ _ _ rfl hp
    rw [withFetchWord_frame ht, hframe .bootReset i rfl rfl (by decide) (decodeFrame_encode he)]
    exact ⟨_, _, _, rfl, rfl, rfl, rfl, rfl, holdNewSlot_read s.prog⟩

end Sys2Proof.Proofs
end

section
/-! PROOFS. What a step leaves unchanged (R65, R68, R335): first the one update a step makes to each generator, then the frames of the ISRs
(R183), of the loads (R127) and of the controller's commands (R339). -/

namespace Sys2Proof.Proofs

open Sys2Proof Sys2Proof.Machine

variable {s t : State} {i : Instr} {g : Gen} {G H : GenState}

/-! ### The one update a step makes to each generator -/

/-- The instruction names `g` as the generator it acts on: a command of the controller, or an ISR. -/
inductive ActsOn (i : Instr) (g : Gen) : Prop
  | boot (command : isBoot i g)
  | stop (command : i = .stop g)
  | full (command : i = .irqFull g)
  | pulse (command : i = .irqPulse g)

/-- The step is CONFIGURE's own, before the steps of START (R231). -/
def isConfigureStep (i : Instr) (s : State) (g : Gen) : Prop := (∃ pin pool, i = .configure g pin pool) ∧ s.host.phase = .entry

/-- The update a step of `i` makes to generator `g`, field by field, where `GenChange` says only what became of the mode, the timers and the
idle singleton. -/
inductive GenUpdate (i : Instr) (s : State) (g : Gen) : GenState → Prop
  | same : GenUpdate i s g (s.gen g)
  /-- the head of `free` is held (R126) -/
  | acquire (rest : List Nat) (j : Nat) (target : s.host.load.gen = g) (position : holdsFrame s.host.phase = true) :
      GenUpdate i s g { s.gen g with free := rest, filling := some j }
  /-- the fill step stores to the held slot (R127) -/
  | fill (j : Nat) (q : Packet) (target : s.host.load.gen = g) (position : holdsFrame s.host.phase = true)
      (stores : storedSlot s = some (g, j)) : GenUpdate i s g { s.gen g with slots := (s.gen g).slots.write j q }
  /-- the held slot is published (R128) -/
  | publish (queue : List Nat) (target : s.host.load.gen = g) (position : holdsFrame s.host.phase = true) :
      GenUpdate i s g { s.gen g with pending := queue, filling := none }
  /-- START's arming step (R241) -/
  | arm (boot : isBoot i g) : GenUpdate i s g (armTimers g (s.gen g))
  /-- CONFIGURE's own step (R231) -/
  | configure (H : GenState) (own : isConfigureStep i s g) : GenUpdate i s g H
  /-- STOP's first step (R249) -/
  | stop (command : i = .stop g) : GenUpdate i s g
      { s.gen g with full := timerShutdown (s.gen g).full, pulse := timerShutdown (s.gen g).pulse, mode := .idle }
  /-- STOP's drain (R250) -/
  | drain (m : Memory) (free : List Nat) (command : i = .stop g) :
      GenUpdate i s g { s.gen g with slots := m, free := free, current := .none, pending := [] }
  /-- the full-cycle ISR (R185) -/
  | full (b : Bool) (G : GenState) (command : i = .irqFull g)
      (bit : getNextBit { s.gen g with full := { (s.gen g).full with latched := false, age := 0 } } = some (b, G)) :
      GenUpdate i s g { armCell b G with pinLevel := .high }
  /-- the pulse ISR (R186) -/
  | pulse (command : i = .irqPulse g) :
      GenUpdate i s g { s.gen g with pulse := { (s.gen g).pulse with latched := false, age := 0 }, pinLevel := .low }

/-- Returning slots writes packets and `free` alone (R250). -/
theorem foldl_returnZeroed_eq (l : List Nat) (G : GenState) :
    ∃ m free, l.foldl returnZeroed G = { G with slots := m, free := free } := by
  induction l generalizing G with
  | nil => exact ⟨_, _, rfl⟩
  | cons j l ih =>
    obtain ⟨m, free, h⟩ := ih (returnZeroed G j)
    exact ⟨m, free, h⟩

theorem drainGen_eq (G : GenState) :
    ∃ m free, drainGen G = { G with slots := m, free := free, current := .none, pending := [] } := by
  obtain ⟨m, free, h⟩ := foldl_returnZeroed_eq (G.current.slotIndices ++ G.pending) G
  exact ⟨m, free, by rw [drainGen, h]⟩

/-- An update of one generator leaves the other as it is. -/
theorem GenUpdate.modGen {f : GenState → GenState} {h : Gen} (hf : GenUpdate i s h (f (s.gen h))) (g : Gen) :
    GenUpdate i s g ((s.modGen h f).gen g) := by
  rw [State.gen_modGen]
  split
  case isTrue hg => subst hg; exact hf
  case isFalse => exact .same

/-- Each of the twelve forms of a step updates one generator at most. -/
theorem exec_genUpdate (h : exec i s = .next t) (g : Gen) : GenUpdate i s g (t.gen g) := by
  have hform := (exec_next h).2
  cases hform with
  | fault | host | engine => cases g <;> exact .same
  | acquire site j rest _ position =>
    rw [acquired, State.setPhase_gen]
    exact GenUpdate.modGen (.acquire rest j rfl (by rw [position]; rfl)) g
  | fill site frame j p _ position held =>
    rw [filled, State.setPhase_gen]
    exact GenUpdate.modGen (.fill j _ rfl (by rw [position]; rfl) (by rw [storedSlot, position, held]; rfl)) g
  | publish site j h m _ position =>
    show GenUpdate i s g ((published j s).gen g)
    exact GenUpdate.modGen (.publish _ rfl (by rw [position]; rfl)) g
  | arm g' l d ok h boot =>
    cases ok with
    | false => cases g <;> exact .same
    | true => exact GenUpdate.modGen (.arm boot) g
  | configure g' pin pool l d ok h command position =>
    by_cases hg : g = g'
    · subst hg
      exact .configure _ ⟨⟨pin, pool, command⟩, position⟩
    · obtain rfl := Gen.ne_iff_other.1 hg
      cases ok <;> cases g' <;> exact .same
  | stop g' command =>
    rw [stopped, delay_gen, State.setPhase_gen]
    exact GenUpdate.modGen (.stop command) g
  | drain g' command =>
    rw [respond_gen]
    refine GenUpdate.modGen ?_ g
    obtain ⟨m, free, hd⟩ := drainGen_eq (s.gen g')
    rw [hd]
    exact .drain m free command
  | full g' b G command due bit =>
    rw [pinWrite_gen, State.gen_setGen_same, State.gen_setGen]
    split
    case isTrue hg => subst hg; exact .full b G command bit
    case isFalse => exact .same
  | pulse g' command =>
    rw [pinWrite_gen, State.gen_modGen_same]
    split
    case isTrue hg => subst hg; exact .pulse command
    case isFalse hg => rw [State.gen_modGen_ne _ _ hg]; exact .same

/-! ### What the updates keep -/

/-- A step changes no generator but the one its instruction names or its load is for. -/
theorem GenUpdate.eq_of_ne {h : Gen} (hu : GenUpdate i s h H) (hne : h ≠ g) (hi : ∀ h, ActsOn i h → h = g)
    (hl : holdsFrame s.host.phase = true → s.host.load.gen = g) : H = s.gen h := by
  cases hu with
  | same => rfl
  | acquire _ _ target position | fill _ _ target position | publish _ target position =>
    exact absurd (target.symm.trans (hl position)) hne
  | arm boot => exact absurd (hi h (.boot boot)) hne
  | configure _ own => exact absurd (hi h (.boot (.inr own.1))) hne
  | stop command | drain _ _ command => exact absurd (hi h (.stop command)) hne
  | full _ _ command => exact absurd (hi h (.full command)) hne
  | pulse command => exact absurd (hi h (.pulse command)) hne

/-- The parts that CONFIGURE's own step sets up are as they were; an ISR writes two of them, the pin's level and the idle singleton's cursor. -/
structure SetupKept (G H : GenState) : Prop where
  dirPin : H.dirPin = G.dirPin
  poolSize : H.poolSize = G.poolSize
  pinMode : H.pinMode = G.pinMode
  pinLevel : H.pinLevel = G.pinLevel
  idle : H.idle = G.idle

/-- No step but CONFIGURE's own and an ISR's writes the pin, the pool's size or the idle singleton. -/
theorem GenUpdate.setupKept (hu : GenUpdate i s g H) (hc : ¬ isConfigureStep i s g)
    (hfull : i ≠ .irqFull g) (hpulse : i ≠ .irqPulse g) : SetupKept (s.gen g) H := by
  cases hu with
  | same | acquire | fill | publish | arm | stop | drain => exact ⟨rfl, rfl, rfl, rfl, rfl⟩
  | configure _ own => exact absurd own hc
  | full _ _ command => exact absurd command hfull
  | pulse command => exact absurd command hpulse

/-- No step but CONFIGURE's own, STOP's drain and a full-cycle ISR moves the cursor. -/
theorem GenUpdate.current (hu : GenUpdate i s g H) (hc : ¬ isConfigureStep i s g)
    (hstop : i ≠ .stop g) (hfull : i ≠ .irqFull g) : H.current = (s.gen g).current := by
  cases hu with
  | same | acquire | fill | publish | arm | stop | pulse => rfl
  | configure _ own => exact absurd own hc
  | drain _ _ command => exact absurd command hstop
  | full _ _ command => exact absurd command hfull

/-- A step of an instruction that names no generator leaves the mode and both timers as they are. -/
theorem GenUpdate.mode_timers (hu : GenUpdate i s g H) (hi : ¬ ActsOn i g) :
    H.mode = (s.gen g).mode ∧ H.full = (s.gen g).full ∧ H.pulse = (s.gen g).pulse := by
  cases hu with
  | same | acquire | fill | publish => exact ⟨rfl, rfl, rfl⟩
  | arm boot => exact absurd (.boot boot) hi
  | configure _ own => exact absurd (.boot (.inr own.1)) hi
  | stop command | drain _ _ command => exact absurd (.stop command) hi
  | full _ _ command => exact absurd (.full command) hi
  | pulse command => exact absurd (.pulse command) hi

theorem stored_congr (hs : H.slots = G.slots) (hi : H.idle = G.idle) (r : PacketRef) : H.stored r = G.stored r := by
  cases r with
  | slot j => rw [GenState.stored, GenState.packet, hs]; rfl
  | idlePkt => rw [GenState.stored, GenState.packet, hi]; rfl

/-- Writing a slot leaves what is stored at every other place (R60). -/
theorem stored_write_ne (G : GenState) {j : Nat} (q : Packet) {r : PacketRef} (hr : r ≠ .slot j) :
    ({ G with slots := G.slots.write j q } : GenState).stored r = G.stored r := by
  cases r with
  | slot k =>
    have hk : k ≠ j := fun e => hr (congrArg PacketRef.slot e)
    rw [GenState.stored, GenState.packet, Memory.read_write_ne _ hk]
    rfl
  | idlePkt => rfl

/-- The full-cycle ISR writes no stored bit: the cursor and the timers are no part of a buffer (R23, R185). -/
theorem armCell_stored {b : Bool} {x : Timer} (bit : getNextBit { G with full := x } = some (b, H)) (r : PacketRef) :
    (armCell b H).stored r = G.stored r :=
  calc (armCell b H).stored r = H.stored r := stored_congr rfl rfl r
    _ = ({ G with full := x } : GenState).stored r := getNextBit_stored bit r
    _ = G.stored r := stored_congr rfl rfl r

/-- No step but CONFIGURE's own and STOP's writes a stored bit outside the slot the fill step stores to (R127). -/
theorem GenUpdate.stored (hu : GenUpdate i s g H) (hc : ¬ isConfigureStep i s g)
    (hstop : i ≠ .stop g) {r : PacketRef} (hr : ∀ j, storedSlot s = some (g, j) → r ≠ .slot j) :
    H.stored r = (s.gen g).stored r := by
  cases hu with
  | same => rfl
  | acquire | publish | arm | pulse => exact stored_congr rfl rfl r
  | fill j q _ _ stores => exact stored_write_ne _ q (hr j stores)
  | configure _ own => exact absurd own hc
  | stop command | drain _ _ command => exact absurd command hstop
  | full b G command bit => exact (stored_congr rfl rfl r).trans (armCell_stored bit r)

/-! ### The engine and the inputs -/

/-- Only a service-mode command writes the engine (R34). -/
theorem exec_sm (h : exec i s = .next t) (hi : ¬ isService i) : t.sm = s.sm := by
  have hform := (exec_next h).2
  cases hform with
  | engine _ _ _ _ service => exact absurd service hi
  | publish site _ _ _ loads _ _ engine => exact engine fun hs => hi (by subst hs; exact loads)
  | arm g l d ok => cases ok <;> simp
  | configure g pin pool l d ok => cases ok <;> simp
  | _ => simp [acquired, filled, stopped]

/-- Outside service mode a step draws setup results alone (R233). -/
theorem exec_inputs (h : exec i s = .next t) (hi : ¬ isService i) :
    t.inputs = { s.inputs with gpioOk := t.inputs.gpioOk, timerOk := t.inputs.timerOk, draws := t.inputs.draws } := by
  have hform := (exec_next h).2
  cases hform with
  | engine _ _ _ _ service => exact absurd service hi
  | _ => simp [acquired, filled, published, stopped]

/-- A step that is neither of service mode nor of START or CONFIGURE draws nothing. -/
theorem exec_inputs_eq (h : exec i s = .next t) (hi : ¬ isService i) (hb : ∀ g, ¬ isBoot i g) : t.inputs = s.inputs := by
  have hform := (exec_next h).2
  cases hform with
  | engine _ _ _ _ service => exact absurd service hi
  | arm g _ _ _ _ boot => exact absurd boot (hb g)
  | configure g pin pool _ _ _ _ command => exact absurd (.inr ⟨pin, pool, command⟩) (hb g)
  | _ => simp [acquired, filled, published, stopped]

/-! ### The interrupt service routines -/

theorem setGen_modGen (s : State) (g : Gen) (f : GenState → GenState) (G : GenState) : (s.modGen g f).setGen g G = s.setGen g G := by
  cases g <;> rfl

/-- What an ISR leaves of its generator: the mode, the pin's setup, the pool's size, the held slot and every stored bit. -/
structure IsrKept (G H : GenState) : Prop where
  mode : H.mode = G.mode
  dirPin : H.dirPin = G.dirPin
  poolSize : H.poolSize = G.poolSize
  filling : H.filling = G.filling
  pinMode : H.pinMode = G.pinMode
  stored : ∀ r, H.stored r = G.stored r

/-- An ISR that does not fault writes its own generator, then its pin (R185, R186). -/
theorem isr_next (h : exec (.irqFull g) s = .next t ∨ exec (.irqPulse g) s = .next t) (hf : t.faulted = none) :
    ∃ l H, IsrKept (s.gen g) H ∧ t = pinWrite g l (s.setGen g H) := by
  obtain h | h := h
  · obtain ⟨-, -, _, rfl, ⟨-, rfl⟩ | ⟨b, G, bit, rfl⟩⟩ := execIrqFull_next h
    · cases hf
    · rw [State.gen_modGen_same] at bit
      obtain ⟨mode, dirPin, poolSize, filling, -, -, pinMode, -⟩ := getNextBit_frame bit
      exact ⟨.high, armCell b G, ⟨mode, dirPin, poolSize, filling, pinMode, armCell_stored bit⟩, by rw [setGen_modGen]⟩
  · obtain ⟨-, -, rfl⟩ := execIrqPulse_next h
    exact ⟨.low, { s.gen g with pulse := { (s.gen g).pulse with latched := false, age := 0 } },
      ⟨rfl, rfl, rfl, rfl, rfl, stored_congr rfl rfl⟩, rfl⟩

/-- Settles O34: an ISR writes its own generator and its pin, and the cursor writes no stored bit. -/
theorem isrFrame : Obligations.IsrFrame := by
  intro g s t h hf
  obtain ⟨l, H, ⟨mode, dirPin, poolSize, filling, pinMode, stored⟩, ht⟩ := isr_next h hf
  have hg : t.gen g = { H with pinLevel := l } := by rw [ht, pinWrite_gen_same, State.gen_setGen_same]
  have hother : t.gen g.other = s.gen g.other := by rw [ht, pinWrite_gen_other, State.gen_setGen_other]
  have hbits (j : Gen) (r : PacketRef) : (t.gen j).stored r = (s.gen j).stored r := by
    by_cases hj : j = g
    · rw [hj, hg, ← stored]
      exact stored_congr rfl rfl r
    · rw [Gen.ne_iff_other.1 hj, hother]
  refine ⟨by simp [ht], by simp [ht], by simp [ht], by simp [ht], by simp [ht], hother, ?_⟩
  refine ⟨hg ▸ mode, hg ▸ dirPin, hg ▸ poolSize, hg ▸ filling, hg ▸ pinMode, ?_, fun hp => ?_⟩
  · exact fun j r k => readBit_congr (hbits j r) k
  · obtain ⟨-, -, hp⟩ := execIrqPulse_next hp
    rw [hp, pinWrite_gen_same, State.gen_modGen_same]
    exact ⟨rfl, rfl, rfl, rfl, rfl, rfl⟩

/-! ### The loads -/

/-- LOAD_PACKET or a frame row. -/
def isLoad (i : Instr) : Prop :=
  (∃ g len rep p0 p1 p2 p3 p4, i = .loadPacket g len rep p0 p1 p2 p3 p4) ∨ ∃ bytes, encode i = .frame bytes

theorem isLoad.not_service (h : isLoad i) : ¬ isService i := by
  rintro (⟨cv, rfl⟩ | ⟨cv, v, rfl⟩ | ⟨cv, b, v, rfl⟩) <;> simp [isLoad, encode] at h

theorem isLoad.not_actsOn (h : isLoad i) (g : Gen) : ¬ ActsOn i g := by
  rintro ((rfl | ⟨pin, pool, rfl⟩) | rfl | rfl | rfl) <;> simp [isLoad, encode] at h

/-- Settles O40: a load's stages are updates of `free`, `filling`, `pending` and the held slot of the load's generator. -/
theorem loadFrame : Obligations.LoadFrame := by
  intro i s t hi h
  have hload : isLoad i := hi
  have hacts := hload.not_actsOn
  have hc (g) : ¬ isConfigureStep i s g := fun hg => hacts g (.boot (.inr hg.1))
  have hfull (g) : i ≠ .irqFull g := fun e => hacts g (.full e)
  have hpulse (g) : i ≠ .irqPulse g := fun e => hacts g (.pulse e)
  have hstop (g) : i ≠ .stop g := fun e => hacts g (.stop e)
  obtain ⟨hnow, hparams⟩ := exec_now_params h
  have hother := (exec_genUpdate h _).eq_of_ne (Gen.other_ne s.host.load.gen) (fun g ha => absurd ha (hacts g)) fun _ => rfl
  obtain ⟨htrace, -⟩ := exec_pinsKept h (fun g pin pool e hp => hc g ⟨⟨pin, pool, e⟩, hp⟩) hfull hpulse
  have hinputs := exec_inputs_eq h hload.not_service fun g hb => hacts g (.boot hb)
  refine ⟨hnow, exec_sm h hload.not_service, htrace, hinputs, hparams, hother, fun g => ?_, fun g r k hr => ?_⟩
  · have hu := exec_genUpdate h g
    obtain ⟨dirPin, poolSize, pinMode, pinLevel, idle⟩ := hu.setupKept (hc g) (hfull g) (hpulse g)
    obtain ⟨mode, full, pulse⟩ := hu.mode_timers (hacts g)
    exact ⟨mode, dirPin, poolSize, hu.current (hc g) (hstop g) (hfull g), idle, full, pulse, pinMode, pinLevel⟩
  · exact readBit_congr ((exec_genUpdate h g).stored (hc g) (hstop g) hr) k

/-! ### The controller -/

/-- A command of the controller for generator `g`. -/
def isControl (i : Instr) (g : Gen) : Prop := (∃ pin pool, i = .configure g pin pool) ∨ i = .start g ∨ i = .stop g

theorem isControl.not_service (h : isControl i g) : ¬ isService i := by
  obtain ⟨pin, pool, rfl⟩ | rfl | rfl := h <;> simp [isService]

theorem isControl.not_isr (h : isControl i g) (j : Gen) : i ≠ .irqFull j ∧ i ≠ .irqPulse j := by
  obtain ⟨pin, pool, rfl⟩ | rfl | rfl := h <;> simp

theorem isControl.loadTarget_eq (h : isControl i g) : loadTarget i = g := by
  obtain ⟨pin, pool, rfl⟩ | rfl | rfl := h <;> rfl

/-- A command of the controller acts on one generator alone. -/
theorem isControl.eq_of_actsOn (h : isControl i g) {j : Gen} (ha : ActsOn i j) : j = g := by
  have hj : isControl i j := by
    cases ha with
    | boot command => exact command.elim (fun e => .inr (.inl e)) .inl
    | stop command => exact .inr (.inr command)
    | full command => exact absurd command (h.not_isr j).1
    | pulse command => exact absurd command (h.not_isr j).2
  exact hj.loadTarget_eq.symm.trans h.loadTarget_eq

/-- Settles O51: each step of the three commands updates the generator they name, which is also the one their loads are for. -/
theorem controllerFrame : Obligations.ControllerFrame := by
  intro i g h s t hi he hne hl
  have hcontrol : isControl i g := hi
  obtain ⟨hnow, hparams⟩ := exec_now_params he
  have hgen := (exec_genUpdate he h).eq_of_ne hne (fun _ => hcontrol.eq_of_actsOn) hl
  refine ⟨hnow, exec_sm he hcontrol.not_service, hparams, exec_inputs he hcontrol.not_service, hgen,
    fun r k => readBit_congr (by rw [hgen]) k, fun hc => ?_⟩
  have hown : ¬ isConfigureStep i s g := fun ⟨⟨pin, pool, e⟩, hp⟩ => hc pin pool e hp
  have hfull (j) : i ≠ .irqFull j := (hcontrol.not_isr j).1
  have hpulse (j) : i ≠ .irqPulse j := (hcontrol.not_isr j).2
  have hfirst (j pin pool) (e : i = .configure j pin pool) : s.host.phase ≠ .entry := by
    obtain rfl := hcontrol.eq_of_actsOn (.boot (.inr ⟨pin, pool, e⟩))
    exact hc pin pool e
  obtain ⟨htrace, -⟩ := exec_pinsKept he hfirst hfull hpulse
  have hu := exec_genUpdate he g
  obtain ⟨dirPin, poolSize, pinMode, pinLevel, idle⟩ := hu.setupKept hown (hfull g) (hpulse g)
  refine ⟨htrace, dirPin, poolSize, pinMode, pinLevel, idle, fun hstop => ?_⟩
  exact ⟨hu.current hown hstop (hfull g), fun r k hr => readBit_congr (hu.stored hown hstop hr) k⟩

end Sys2Proof.Proofs
end

section
/-! PROOFS. Codes (R81, R82, R88, R89): decoding undoes encoding, a word that fits a row is that row's encoding and any other is illegal; the
frames of the engine's builders (R262 to R267), the worked encodings (R95), and the fields of a response (R86). -/

namespace Sys2Proof.Proofs

open Sys2Proof Sys2Proof.Machine
open Sys2Proof.Laws.LawfulCode (smByte0_eq smByte1_eq smBitByte_eq)

variable {w : CommandWord}

/-! ### Decoding undoes encoding -/

theorem decodeInterrupt_encode {i : Instr} {k : TimerKind} {g : Gen} (he : encode i = .interrupt k g) : decodeInterrupt k g = i := by
  cases i <;> cases he <;> rfl

/-- Settles O1, by the three kinds of code: a command word, a frame, an interrupt. -/
theorem decodeEncodeAgree : Obligations.DecodeEncodeAgree := by
  intro i hi
  cases he : encode i with
  | word w => exact congrArg Except.ok (decodeWord_encode hi he)
  | frame b => exact decodeFrame_encode he
  | interrupt k g => exact congrArg Except.ok (decodeInterrupt_encode he)

/-! ### A word is made of its fields (R80, R81) -/

/-- A field the row's mask keeps has the value the row's pattern gives it. -/
theorem fits_field {r : CommandRow} (h : r.fits w = true) {k n : Nat} (hm : r.mask.extractLsb' k n = BitVec.allOnes n) :
    w.extractLsb' k n = r.pattern.extractLsb' k n := by
  rw [CommandRow.fits, beq_iff_eq] at h
  rw [← h, BitVec.extractLsb'_and, hm, BitVec.and_allOnes]

theorem ofBool_getLsbD (w : CommandWord) (k : Nat) : BitVec.ofBool (w.getLsbD k) = w.extractLsb' k 1 := by
  refine BitVec.eq_of_getLsbD_eq fun i hi => ?_
  interval_cases i
  simp

/-- `G` is the one bit `W[59]` (R80). -/
theorem genField_code (w : CommandWord) : (genField w).code = w.extractLsb' 59 1 := by
  rw [← ofBool_getLsbD, genField]
  cases w.getLsbD 59 <;> rfl

/-- A command with a generator alone: every bit below `G` is 0. -/
theorem genWord_eq {op : BitVec 4} (hop : w.extractLsb' 60 4 = op) (h0 : w.extractLsb' 0 59 = 0#59) :
    op ++ (genField w).code ++ 0#59 = w := by
  rw [genField_code, ← hop, ← h0]
  simp (disch := rfl) only [BitVec.extractLsb'_append_extractLsb'_eq_extractLsb', BitVec.extractLsb'_eq_self]

theorem encode_configure_of_fits (h : rowConfigure.fits w = true) :
    encode (.configure (genField w) (w.extractLsb' 40 8) (w.extractLsb' 16 16)) = .word w := by
  have hop : w.extractLsb' 60 4 = 0x1#4 := fits_field h (by decide)
  have h48 : w.extractLsb' 48 11 = 0#11 := fits_field h (by decide)
  have h32 : w.extractLsb' 32 8 = 0#8 := fits_field h (by decide)
  have h0 : w.extractLsb' 0 16 = 0#16 := fits_field h (by decide)
  rw [encode, genField_code, ← hop, ← h48, ← h32, ← h0]
  simp (disch := rfl) only [BitVec.extractLsb'_append_extractLsb'_eq_extractLsb', BitVec.extractLsb'_eq_self]

theorem encode_loadPacket_of_fits (h : rowLoadPacket.fits w = true) :
    encode (.loadPacket (genField w) (w.extractLsb' 56 3) (w.extractLsb' 48 8) (w.extractLsb' 40 8) (w.extractLsb' 32 8)
      (w.extractLsb' 24 8) (w.extractLsb' 16 8) (w.extractLsb' 8 8)) = .word w := by
  have hop : w.extractLsb' 60 4 = 0x4#4 := fits_field h (by decide)
  have h0 : w.extractLsb' 0 8 = 0#8 := fits_field h (by decide)
  rw [encode, genField_code, ← hop, ← h0]
  simp (disch := rfl) only [BitVec.extractLsb'_append_extractLsb'_eq_extractLsb', BitVec.extractLsb'_eq_self]

theorem encode_readCv_of_fits (h : rowReadCv.fits w = true) : encode (.readCv (cvField w)) = .word w := by
  have hop : w.extractLsb' 60 4 = 0x7#4 := fits_field h (by decide)
  have h43 : w.extractLsb' 43 17 = 0#17 := fits_field h (by decide)
  have h0 : w.extractLsb' 0 32 = 0#32 := fits_field h (by decide)
  rw [encode, cvField, ← hop, ← h43, ← h0]
  simp (disch := rfl) only [BitVec.extractLsb'_append_extractLsb'_eq_extractLsb', BitVec.extractLsb'_eq_self]

theorem encode_writeProgCvByte_of_fits (h : rowWriteProgCvByte.fits w = true) :
    encode (.writeProgCvByte (cvField w) (w.extractLsb' 0 8)) = .word w := by
  have hop : w.extractLsb' 60 4 = 0x8#4 := fits_field h (by decide)
  have h43 : w.extractLsb' 43 17 = 0#17 := fits_field h (by decide)
  have h8 : w.extractLsb' 8 24 = 0#24 := fits_field h (by decide)
  rw [encode, cvField, ← hop, ← h43, ← h8]
  simp (disch := rfl) only [BitVec.extractLsb'_append_extractLsb'_eq_extractLsb', BitVec.extractLsb'_eq_self]

theorem encode_writeProgCvBit_of_fits (h : rowWriteProgCvBit.fits w = true) :
    encode (.writeProgCvBit (cvField w) (w.extractLsb' 8 3) (w.getLsbD 0)) = .word w := by
  have hop : w.extractLsb' 60 4 = 0x9#4 := fits_field h (by decide)
  have h43 : w.extractLsb' 43 17 = 0#17 := fits_field h (by decide)
  have h11 : w.extractLsb' 11 21 = 0#21 := fits_field h (by decide)
  have h1 : w.extractLsb' 1 7 = 0#7 := fits_field h (by decide)
  rw [encode, cvField, ofBool_getLsbD, ← hop, ← h43, ← h11, ← h1]
  simp (disch := rfl) only [BitVec.extractLsb'_append_extractLsb'_eq_extractLsb', BitVec.extractLsb'_eq_self]

/-- What a row reads from a word that fits it has that word as its code (R81). -/
theorem encode_of_fits {r : CommandRow} {i : Instr} (hm : (r, i) ∈ rowCommands w) (h : r.fits w = true) : encode i = .word w := by
  simp only [rowCommands, List.mem_cons, Prod.mk.injEq, List.not_mem_nil, or_false] at hm
  obtain ⟨rfl, rfl⟩ | ⟨rfl, rfl⟩ | ⟨rfl, rfl⟩ | ⟨rfl, rfl⟩ | ⟨rfl, rfl⟩ |
    ⟨rfl, rfl⟩ | ⟨rfl, rfl⟩ | ⟨rfl, rfl⟩ | ⟨rfl, rfl⟩ := hm
  · exact encode_configure_of_fits h
  · exact congrArg Code.word (genWord_eq (fits_field h (by decide)) (fits_field h (by decide)))
  · exact congrArg Code.word (genWord_eq (fits_field h (by decide)) (fits_field h (by decide)))
  · exact encode_loadPacket_of_fits h
  · exact congrArg Code.word (genWord_eq (fits_field h (by decide)) (fits_field h (by decide)))
  · exact congrArg Code.word (genWord_eq (fits_field h (by decide)) (fits_field h (by decide)))
  · exact encode_readCv_of_fits h
  · exact encode_writeProgCvByte_of_fits h
  · exact encode_writeProgCvBit_of_fits h

/-! ### Commands and illegal words (R82) -/

theorem spellsCommand_iff : spellsCommand w = true ↔ ∃ r ∈ tableRows, r.fits w = true := List.any_eq_true

/-- The decoder's rows are the table's. -/
theorem rowCommands_fst (w : CommandWord) : (rowCommands w).map Prod.fst = tableRows := rfl

theorem rowCommands_ne_illegal {r : CommandRow} {i : Instr} (hm : (r, i) ∈ rowCommands w) (v : CommandWord) : i ≠ .illegal v := by
  rintro rfl
  simp [rowCommands] at hm

/-- A word that spells a command is read by the row it fits. -/
theorem decodeWord_of_spells (h : spellsCommand w = true) : ∃ r, (r, decodeWord w) ∈ rowCommands w ∧ r.fits w = true := by
  obtain ⟨r, hr, hfits⟩ := spellsCommand_iff.1 h
  rw [← rowCommands_fst w] at hr
  obtain ⟨⟨r, i⟩, hm, rfl⟩ := List.mem_map.1 hr
  exact ⟨r, decodeWord_of_fits hm hfits ▸ hm, hfits⟩

/-- The table assigns the opcodes 1 to 9 (R82). -/
theorem spellsCommand_opField (h : spellsCommand w = true) : opField w ≠ 0 ∧ ¬ 0xA#4 ≤ opField w := by
  have hrows : ∀ r ∈ tableRows, opField r.pattern ≠ 0 ∧ ¬ 0xA#4 ≤ opField r.pattern := by decide
  obtain ⟨r, hr, hfits⟩ := spellsCommand_iff.1 h
  rw [fits_opField hr hfits]
  exact hrows r hr

/-- The rows of the service-mode commands keep `W[59]` and hold it at 0 (R82). -/
theorem spellsCommand_service (h : spellsCommand w = true) (hop : 7#4 ≤ opField w) : w.getLsbD 59 = false := by
  have hrows : ∀ r ∈ tableRows, 7#4 ≤ opField r.pattern → r.mask.extractLsb' 59 1 = BitVec.allOnes 1 ∧
      r.pattern.extractLsb' 59 1 = 0#1 := by decide
  obtain ⟨r, hr, hfits⟩ := spellsCommand_iff.1 h
  obtain ⟨hmask, hpattern⟩ := hrows r hr (fits_opField hr hfits ▸ hop)
  have hbit := (ofBool_getLsbD w 59).trans ((fits_field hfits hmask).trans hpattern)
  cases hw : w.getLsbD 59
  · rfl
  · rw [hw] at hbit
    cases hbit

/-- Settles O2: a word that fits a row is that row's encoding, and the masks and patterns of the rows say which words fit none. -/
theorem illegalWordsRaiseIllegalCommand : Obligations.IllegalWordsRaiseIllegalCommand := by
  refine ⟨fun w h => ?_, fun w => decodeWord_illegal, fun w hop => ?_, fun w hop hg => ?_, fun w s h hf => ?_⟩
  · obtain ⟨r, hm, hfits⟩ := decodeWord_of_spells h
    exact ⟨encode_of_fits hm hfits, rfl, rowCommands_ne_illegal hm⟩
  · rw [← Bool.not_eq_true]
    intro h
    obtain ⟨hzero, hhigh⟩ := spellsCommand_opField h
    exact hop.elim hzero hhigh
  · rw [← Bool.not_eq_true]
    intro h
    rw [spellsCommand_service h hop] at hg
    cases hg
  · rw [decodeWord_illegal h, exec, execIllegal, unlessFaulted_none hf, raiseFault_eq hf]

/-! ### The engine's builders give rows of the table (R262 to R267) -/

/-- A frame of three payload bytes ends with their XOR (R120). -/
theorem frameOf_three (b0 b1 b2 : Byte) : frameOf [b0, b1, b2] = [b0, b1, b2, b0 ^^^ b1 ^^^ b2] := by
  simp [frameOf, checksum]

theorem addrHigh_eq (c : BitVec 16) : addrHigh c = ((cvAddress c).setWidth 10 >>> 8).setWidth 8 := by
  refine BitVec.eq_of_getLsbD_eq fun i hi => ?_
  interval_cases i <;> simp [addrHigh]

theorem addrLow_eq (c : BitVec 16) : addrLow c = ((cvAddress c).setWidth 10).setWidth 8 := by
  refine BitVec.eq_of_getLsbD_eq fun i hi => ?_
  interval_cases i <;> simp [addrLow]

theorem bitOperand_eq (base : Byte) (v : Bool) (b : BitVec 3) : bitOperand base v b = bitThird base v b := by
  cases v <;> rfl

/-- For a legal CV the address operand is `cv − 1`, with nothing cut off (R261, R262). -/
theorem cvAddress_toNat {cv : BitVec 11} (h1 : 1 ≤ cv.toNat) (h2 : cv.toNat ≤ 1024) :
    ((cvAddress (cv.setWidth 16)).setWidth 10).toNat = cv.toNat - 1 := by
  simp only [cvAddress]
  bv_omega

/-- The frame of each builder is the row's, with the address part of the CV and the checksum that makes it well formed. -/
theorem frameOf_builders (c : BitVec 16) (d : Byte) (v : Bool) (b : BitVec 3) :
    let a := (cvAddress c).setWidth 10
    frameOf (verifyByte c d) = verifyByteFrame a d (frameChecksum 0x74 a d) ∧
    frameOf (writeByte c d) = writeByteFrame a d (frameChecksum 0x7C a d) ∧
    frameOf (verifyBit c v b) = verifyBitFrame a v b (frameChecksum 0x78 a (bitThird 0xE0 v b)) ∧
    frameOf (writeBit c v b) = writeBitFrame a v b (frameChecksum 0x78 a (bitThird 0xF0 v b)) := by
  simp only [verifyByte, writeByte, verifyBit, writeBit, frameOf_three, addrHigh_eq, addrLow_eq, bitOperand_eq, verifyByteFrame,
    writeByteFrame, verifyBitFrame, writeBitFrame, smByte0_eq, smByte1_eq, smBitByte_eq]
  exact ⟨rfl, rfl, rfl, rfl⟩

/-- Settles O4: the frames are the rows' own, so they decode to them, and their checksums are the rows'. -/
theorem engineBuildersGiveTableFrames : Obligations.EngineBuildersGiveTableFrames := by
  intro cv d v b h1 h2
  obtain ⟨hvb, hwb, hvt, hwt⟩ := frameOf_builders (cv.setWidth 16) d v b
  refine ⟨(cvAddress (cv.setWidth 16)).setWidth 10, cvAddress_toNat h1 h2, ⟨_, ?_, beq_self_eq_true _⟩, ⟨_, ?_, beq_self_eq_true _⟩,
    ⟨_, ?_, beq_self_eq_true _⟩, _, ?_, beq_self_eq_true _⟩
  · rw [hvb]
    exact decodeFrame_encode rfl
  · rw [hwb]
    exact decodeFrame_encode rfl
  · rw [hvt]
    exact decodeFrame_encode rfl
  · rw [hwt]
    exact decodeFrame_encode rfl

/-! ### Worked encodings and responses -/

/-- Settles O3, by evaluating the decoder on each of the spec's words and frames. -/
theorem workedEncodingsDecode : Obligations.WorkedEncodingsDecode := by
  unfold Obligations.WorkedEncodingsDecode
  decide

/-- Settles O5: the two fields stand at the ends of the word and 40 zero bits between them. -/
theorem responseWordFields : Obligations.ResponseWordFields := by
  refine ⟨fun st v => ⟨?_, ?_, ?_⟩, rfl, rfl, rfl, rfl, rfl⟩
  all_goals simp (disch := decide) only [responseWord, BitVec.extractLsb'_append_eq_of_add_le, BitVec.extractLsb'_append_eq_of_le,
    Nat.reduceSub, BitVec.extractLsb'_eq_self]
  rfl

end Sys2Proof.Proofs
end

section
/-! PROOFS. A frame's stream at every index (R91), and what it makes of a pending packet: the preamble, the bytes read back from the stream, and
their XOR (R120, R132). -/

namespace Sys2Proof.Proofs

open Sys2Proof Sys2Proof.Machine

/-! ### The stream at an index -/

theorem layout_getElem? {frame : List Byte} {k : Nat} (hk : k < 22 + 9 * frame.length) :
    (layout frame)[k]? = some (decide (k < 22) || frameBit frame (k - 22)) := by
  rw [← layout_getD, List.getD_eq_getElem _ _ (by rw [layout_length]; exact hk), List.getElem?_eq_getElem]

/-- The bit before each frame byte is 0 (R91). -/
theorem frameBit_start (frame : List Byte) (j : Nat) : frameBit frame (9 * j) = false := by
  simp [frameBit]

/-- The bits of each frame byte follow it, the most significant first (R91). -/
theorem frameBit_byte (frame : List Byte) (j : Nat) {m : Nat} (hm : m ≤ 7) :
    frameBit frame (9 * j + 1 + m) = (frame.getD j 0).getLsbD (7 - m) := by
  have hdiv : (9 * j + 1 + m) / 9 = j := by omega
  have hmod : (9 * j + 1 + m) % 9 = m + 1 := by omega
  rw [frameBit, hdiv, hmod, decide_eq_true (Nat.succ_ne_zero m), Bool.true_and, show 8 - (m + 1) = 7 - m by omega]

/-- Settles O6, by the stream's bit at each index. -/
theorem layoutPlacesEveryBit : Obligations.LayoutPlacesEveryBit := by
  intro frame
  refine ⟨layout_length frame, fun i hi => ?_, fun j hj => ?_, fun j y hy m hm => ?_⟩
  · rw [layout_getElem? (by omega), decide_eq_true (by omega), Bool.true_or]
  · rw [layout_getElem? (by omega), decide_eq_false (by omega), Bool.false_or, Nat.add_sub_cancel_left, frameBit_start]
  · obtain ⟨hj, -⟩ := List.getElem?_eq_some_iff.1 hy
    have hbyte : frame.getD j 0 = y := by rw [List.getD_eq_getElem?_getD, hy, Option.getD_some]
    rw [layout_getElem? (by omega), decide_eq_false (by omega), Bool.false_or, show 23 + 9 * j + m - 22 = 9 * j + 1 + m by omega,
      frameBit_byte frame j hm, hbyte]

/-! ### The checksum of a frame (R120) -/

theorem checksum_append (l m : List Byte) : checksum (l ++ m) = m.foldl (· ^^^ ·) (checksum l) := List.foldl_append

theorem checksum_frameOf (payload : List Byte) : checksum (frameOf payload) = 0 := by
  rw [frameOf, checksum_append]
  exact BitVec.xor_self

theorem checksum_eq_foldr (l : List Byte) : checksum l = l.foldr (· ^^^ ·) 0 := List.foldl_eq_foldr

/-! ### A laid-out packet read back (R132) -/

variable {b : Buffer} {frame : List Byte}

/-- The buffer holds a frame's stream from bit 0 on. -/
def HoldsFrame (b : Buffer) (frame : List Byte) : Prop :=
  ∀ k, k < 22 + 9 * frame.length → bufBit b k = (decide (k < 22) || frameBit frame (k - 22))

/-- A laid-out packet holds the frame of a legal payload, and its length is the frame's. -/
theorem packetLaid_holdsFrame {p : Packet} (h : PacketLaid p) :
    ∃ payload : List Byte, lenLegal payload.length = true ∧ p.numBits.toNat = 22 + 9 * (frameOf payload).length ∧
      HoldsFrame p.buffer (frameOf payload) := by
  obtain ⟨payload, hlen, hbits, hlaid⟩ := h
  exact ⟨payload, hlen, by rw [hbits, numBits_toNat hlen]; rfl, fun k hk => (hlaid k hk).trans (layout_getD _ k)⟩

theorem HoldsFrame.preamble (h : HoldsFrame b frame) {k : Nat} (hk : k < 22) : bufBit b k = true := by
  rw [h k (by omega), decide_eq_true hk, Bool.true_or]

theorem HoldsFrame.start (h : HoldsFrame b frame) {j : Nat} (hj : j < frame.length) : bufBit b (22 + 9 * j) = false := by
  rw [h _ (by omega), decide_eq_false (by omega), Bool.false_or, Nat.add_sub_cancel_left, frameBit_start]

theorem HoldsFrame.byte (h : HoldsFrame b frame) {j m : Nat} (hj : j < frame.length) (hm : m ≤ 7) :
    bufBit b (23 + 9 * j + m) = (frame.getD j 0).getLsbD (7 - m) := by
  rw [h _ (by omega), decide_eq_false (by omega), Bool.false_or, show 23 + 9 * j + m - 22 = 9 * j + 1 + m by omega,
    frameBit_byte frame j hm]

/-- The first two bytes are preamble alone. -/
theorem HoldsFrame.buffer_preamble (h : HoldsFrame b frame) {i : Nat} (hi : i < 2) : b[i] = 0xFF := by
  refine BitVec.eq_of_getLsbD_eq fun j hj => ?_
  rw [getLsbD_buffer b (by omega) hj, h.preamble (by omega)]
  interval_cases j <;> rfl

/-- The third byte begins with the last six bits of it. -/
theorem HoldsFrame.buffer_junction (h : HoldsFrame b frame) : b[2] >>> 2 = 0x3F := by
  refine BitVec.eq_of_getLsbD_eq fun j hj => ?_
  rw [BitVec.getLsbD_ushiftRight]
  by_cases h6 : j < 6
  · rw [getLsbD_buffer b (by omega) (by omega), h.preamble (by omega)]
    interval_cases j <;> rfl
  · rw [BitVec.getLsbD_of_ge _ _ (by omega)]
    interval_cases j <;> rfl

theorem recoveredByte_getLsbD (b : Buffer) (j : Nat) {k : Nat} (hk : k < 8) :
    (recoveredByte b j).getLsbD k = bufBit b (23 + 9 * j + (7 - k)) := by
  simp only [recoveredByte, List.range, List.range.loop, List.foldl]
  interval_cases k <;> simp (disch := decide) only [setByteBit_getLsbD, reduceIte, Nat.reduceEqDiff, OfNat.ofNat_ne_zero,
    OfNat.zero_ne_ofNat, Nat.reduceSub]

theorem HoldsFrame.recoveredByte (h : HoldsFrame b frame) {j : Nat} (hj : j < frame.length) : recoveredByte b j = frame.getD j 0 := by
  refine BitVec.eq_of_getLsbD_eq fun k hk => ?_
  rw [recoveredByte_getLsbD b j hk, h.byte hj (by omega), show 7 - (7 - k) = k by omega]

/-- The frame's bytes are the ones read back, so they XOR to its checksum. -/
theorem HoldsFrame.xor_recovered (h : HoldsFrame b frame) :
    (List.range frame.length).foldr (fun j x => Machine.recoveredByte b j ^^^ x) 0 = checksum frame := by
  have hmap : (List.range frame.length).map (Machine.recoveredByte b) = frame := by
    refine List.ext_getElem (by simp) fun j _ hj => ?_
    rw [List.getElem_map, List.getElem_range, h.recoveredByte hj, List.getD_eq_getElem _ _ hj]
  rw [checksum_eq_foldr]
  conv_rhs => rw [← hmap, List.foldr_map]

/-- Settles O9: the invariant lays every pending packet out, and a laid-out packet reads back its frame. -/
theorem pendingPacketsAreWellFormed : Obligations.PendingPacketsAreWellFormed := by
  intro s g i hinv hi
  obtain ⟨p, hread, hlaid, hcursor⟩ := (hinv.packets g).pending i hi
  obtain ⟨payload, hlegal, hbits, h⟩ := packetLaid_holdsFrame hlaid
  obtain ⟨hmin, hmax⟩ := lenLegal_iff.1 hlegal
  have hlen : (frameOf payload).length = payload.length + 1 := frameOf_length payload
  have hbytes : (p.numBits.toNat - 22) / 9 = (frameOf payload).length := by omega
  refine ⟨p, hread, hcursor, ?_, fun k hk => h.preamble (by omega), h.start (j := 0) (by omega), h.buffer_preamble (by omega),
    h.buffer_preamble (by omega), h.buffer_junction, fun j hj => h.start (by omega), ?_⟩
  · rw [hbits, hlen]
    interval_cases payload.length <;> decide
  · rw [hbytes, h.xor_recovered, checksum_frameOf]

end Sys2Proof.Proofs
end

section
/-! PROOFS. The fill step as a frame row and as each command's load (R88, R89, R127), and what the queue commands and ILLEGAL leave unchanged
(R82, R159, R160). -/

namespace Sys2Proof.Proofs

open Sys2Proof Sys2Proof.Machine

variable {s t : State} {i : Instr}

/-! ### The fill step -/

/-- A frame of the table has three or four bytes (R88, R89). -/
theorem encode_frame_length {b : List Byte} (h : encode i = .frame b) : b.length = 3 ∨ b.length = 4 := by
  cases i <;> cases h <;> simp [resetFrame, idleFrame, verifyByteFrame, writeByteFrame, verifyBitFrame, writeBitFrame]

theorem filled_gen (frame : List Byte) (site : LoadSite) (j : Nat) (p : Packet) (s : State) :
    (filled frame site j p s).gen s.host.load.gen =
      { s.gen s.host.load.gen with
        slots := (s.gen s.host.load.gen).slots.write j (fillPacket p frame s.host.load.repeats) } := by
  simp [filled]

/-- A frame at the fill step of a load that holds slot `j` is laid out there. -/
theorem execFrame_held {frame : List Byte} {site : LoadSite} {j : Nat} {p : Packet} (hf : s.faulted = none)
    (hp : s.host.phase = .load site .fill) (hj : (s.gen s.host.load.gen).filling = some j)
    (hr : (s.gen s.host.load.gen).slots.read j = some p) : execFrame frame s = .next (filled frame site j p s) := by
  rw [execFrame, unlessFaulted_none hf, hp]
  exact fillHeld_next.2 ⟨j, p, hj, hr, rfl⟩

/-- A command with a load of this site does at its fill step what the frame in the load register does. -/
theorem exec_fill_of_loadsAt {site : LoadSite} (hl : loadsAt i site) (hp : s.host.phase = .load site .fill) :
    exec i s = execFrame s.host.load.frame s := by
  have hframe : execFrame s.host.load.frame s = unlessFaulted s (fillHeld s.host.load.frame site s) := by rw [execFrame, hp]
  rw [hframe]
  cases site with
  | caller =>
    obtain ⟨g, len, rep, p0, p1, p2, p3, p4, rfl⟩ := hl
    rw [exec, execLoadPacket, hp]
    rfl
  | bootReset =>
    obtain ⟨g, rfl | ⟨pin, pool, rfl⟩⟩ := hl
    · rw [exec, execStart, startSteps, hp]
      rfl
    · rw [exec, execConfigure, startSteps, hp]
      rfl
  | bootIdle =>
    obtain ⟨g, rfl | ⟨pin, pool, rfl⟩⟩ := hl
    · rw [exec, execStart, startSteps, hp]
      rfl
    · rw [exec, execConfigure, startSteps, hp]
      rfl
  | engine =>
    obtain ⟨cv, rfl⟩ | ⟨cv, v, rfl⟩ | ⟨cv, b, v, rfl⟩ := hl
    · rw [exec, execReadCv, smSteps, hp]
      rfl
    · rw [exec, execWriteProgCvByte, writeSteps, smSteps, hp]
      rfl
    · rw [exec, execWriteProgCvBit, writeSteps, smSteps, hp]
      rfl

/-- Settles O41: a frame row is the fill of its own bytes, and every command with such a load is the fill of the load register's. -/
theorem frameRowsFillHeldSlot : Obligations.FrameRowsFillHeldSlot := by
  intro i bytes s site j p he hf hp hj hr
  have hlen := encode_frame_length he
  have hbits : numBitsOf bytes.length = 22 + 9 * bytes.length := rfl
  refine ⟨⟨_, fillPacket p bytes s.host.load.repeats, (exec_frame he s).trans (execFrame_held hf hp hj hr), rfl,
    by rw [filled_gen], ?_, rfl, rfl, fun k hk => ?_, fun k hk => ?_⟩, fun hframe => ?_⟩
  · rw [fillPacket_numBits, BitVec.toNat_ofNat, hbits]
    omega
  · rw [bufBit_fillPacket _ _ _ (by omega), if_pos (by omega)]
  · rw [bufBit_fillPacket _ _ _ (by omega), if_neg (by omega)]
  · have hload {c : Instr} (hl : loadsAt c site) : exec c s = exec i s := by
      rw [exec_fill_of_loadsAt hl hp, hframe, exec_frame he]
    refine ⟨?_, ?_, ?_⟩
    · rintro rfl g len rep p0 p1 p2 p3 p4
      exact hload ⟨g, len, rep, p0, p1, p2, p3, p4, rfl⟩
    · have hboot {c : Instr} (hs : site = .bootReset ∨ site = .bootIdle) (hc : ∃ g, isBoot c g) : loadsAt c site := by
        obtain rfl | rfl := hs <;> exact hc
      exact fun hs g => ⟨hload (hboot hs ⟨g, .inl rfl⟩), fun pin pool => hload (hboot hs ⟨g, .inr ⟨pin, pool, rfl⟩⟩)⟩
    · rintro rfl cv
      exact ⟨hload (.inl ⟨cv, rfl⟩), fun v => hload (.inr (.inl ⟨cv, v, rfl⟩)), fun b v => hload (.inr (.inr ⟨cv, b, v, rfl⟩))⟩

/-! ### The queue commands -/

/-- The step changes the host interface, but not its load register, and the fault mark alone. -/
def HostOnly (s t : State) : Prop :=
  ∃ h r, t = { s with host := h, faulted := r } ∧ h.load = s.host.load

theorem execIsEmpty_hostOnly {g : Gen} (h : execIsEmpty g s = .next t) : HostOnly s t := by
  obtain ⟨-, -, ⟨-, rfl⟩ | ⟨-, rfl⟩⟩ := execIsEmpty_next h
  · exact ⟨s.host, _, rfl, rfl⟩
  · exact ⟨_, s.faulted, rfl, rfl⟩

theorem execWaitEmpty_hostOnly {g : Gen} (h : execWaitEmpty g s = .next t) : HostOnly s t := by
  obtain ⟨-, ⟨-, -, rfl⟩ | ⟨-, ⟨-, rfl⟩ | ⟨-, rfl⟩⟩⟩ := execWaitEmpty_next h
  · exact ⟨s.host, _, rfl, rfl⟩
  · exact ⟨_, s.faulted, rfl, rfl⟩
  · exact ⟨_, s.faulted, rfl, rfl⟩

theorem execIllegal_hostOnly {w : CommandWord} (h : execIllegal w s = .next t) : HostOnly s t := by
  obtain ⟨-, rfl⟩ := execIllegal_next h
  exact ⟨s.host, _, rfl, rfl⟩

/-- Settles O44: each of them changes the host interface and the fault mark alone. -/
theorem queueCommandsFrame : Obligations.QueueCommandsFrame := by
  intro i s t hi he
  have hstep : HostOnly s t := by
    obtain ⟨g, rfl⟩ | ⟨g, rfl⟩ | ⟨w, rfl⟩ := hi
    · exact execIsEmpty_hostOnly he
    · exact execWaitEmpty_hostOnly he
    · exact execIllegal_hostOnly (w := w) he
  obtain ⟨h, r, rfl, hload⟩ := hstep
  have hgen (g : Gen) : ({ s with host := h, faulted := r } : State).gen g = s.gen g := by cases g <;> rfl
  exact ⟨hgen, rfl, rfl, rfl, rfl, rfl, hload, fun g r k => readBit_congr (by rw [hgen]) k⟩

end Sys2Proof.Proofs
end

section
/-! PROOFS. Which step raises which fault (R82, R213, R261, R321): ContractViolation at a command's entry on the causes of the table and never
later in it, CursorOverrun where the cursor has no bit to give. -/

namespace Sys2Proof.Proofs

open Sys2Proof Sys2Proof.Machine

variable {s t : State} {i : Instr} {g : Gen}

/-! ### Which instruction raises a fault -/

/-- A step that sets the fault mark is one of an instruction that can raise that fault. -/
theorem exec_raises {r : FaultReason} (h : exec i s = .next t) (hr : t.faulted = some r) : raises i r := by
  obtain ⟨hf, hform⟩ := exec_next h
  have hkeep (hk : t.faulted = s.faulted) : raises i r := by
    rw [hk, hf] at hr
    cases hr
  cases hform with
  | fault q cause =>
    obtain rfl := Option.some.inj hr
    exact cause
  | arm g l d ok => exact hkeep (by cases ok <;> simp)
  | configure g pin pool l d ok => exact hkeep (by cases ok <;> simp)
  | _ => exact hkeep (by simp [acquired, filled, published, stopped])

theorem isCommand_encode (h : isCommand i) : ∃ w, encode i = .word w := by
  cases i with
  | irqFull | irqPulse | dccReset | dccIdle | smVerifyByte | smWriteByte | smVerifyBit | smWriteBit => exact h.elim
  | _ => exact ⟨_, rfl⟩

theorem not_isCommand_of_frame {b : List Byte} (h : encode i = .frame b) : ¬ isCommand i := by
  intro hc
  obtain ⟨w, hw⟩ := isCommand_encode hc
  rw [hw] at h
  cases h

/-! ### Guards: a check that raises ContractViolation -/

/-- If the result is a next state, the block is not faulted there. -/
def Unfaulted (r : Result) : Prop := ∀ t, r = .next t → t.faulted = none

theorem unfaulted_next (h : t.faulted = none) : Unfaulted (.next t) := fun _ e => next_inj.1 e ▸ h

/-- The result is ContractViolation where `P` holds, and raises no fault elsewhere. -/
def GuardedBy (P : Prop) (s : State) (r : Result) : Prop :=
  (P → r = raiseFault .contractViolation s) ∧ (¬ P → Unfaulted r)

theorem guardedBy_unfaulted {r : Result} (h : Unfaulted r) : GuardedBy False s r := ⟨False.elim, fun _ => h⟩

theorem guardedBy_ite {P Q : Prop} [Decidable P] {r : Result} (h : GuardedBy Q s r) :
    GuardedBy (P ∨ Q) s (if P then raiseFault .contractViolation s else r) := by
  obtain ⟨hraise, hno⟩ := h
  by_cases hP : P
  · rw [if_pos hP]
    exact ⟨fun _ => rfl, fun hn => absurd (.inl hP) hn⟩
  · rw [if_neg hP]
    exact ⟨fun hPQ => hraise (hPQ.resolve_left hP), fun hn => hno fun hQ => hn (.inr hQ)⟩

theorem GuardedBy.congr {P Q : Prop} {r : Result} (h : GuardedBy P s r) (hPQ : Q ↔ P) : GuardedBy Q s r := by
  rwa [hPQ]

/-- A check that does not fail raises nothing. -/
theorem GuardedBy.unfaulted {P : Prop} {r : Result} (h : GuardedBy P s r) (hP : ¬ P) : Unfaulted r := h.2 hP

theorem configureEntry_guarded (hf : s.faulted = none) (pin : BitVec 8) (pool : BitVec 16) :
    GuardedBy ((s.gen g).mode ≠ .unconfigured ∨ pool.toNat < 2 ∨ False) s (configureEntry g pin pool s) := by
  refine guardedBy_ite (guardedBy_ite (guardedBy_unfaulted (unfaulted_next ?_)))
  split <;> simpa [configured] using hf

theorem startEntry_guarded (hf : s.faulted = none) :
    GuardedBy ((s.gen g).mode = .unconfigured ∨ (s.gen g).mode = .running ∨ False) s (startEntry g s) :=
  guardedBy_ite (guardedBy_ite (guardedBy_unfaulted (unfaulted_next hf)))

theorem stopEntry_guarded (hf : s.faulted = none) : GuardedBy ((s.gen g).mode = .unconfigured ∨ False) s (stopEntry g s) :=
  guardedBy_ite (guardedBy_unfaulted (unfaulted_next (by simpa using hf)))

theorem loadEntry_guarded (hf : s.faulted = none) (n : Nat) (p : List Byte) (r : BitVec 8) (site : LoadSite) :
    GuardedBy ((s.gen g).mode = .unconfigured ∨ False) s (loadEntry g n p r site s) := by
  refine guardedBy_ite (guardedBy_unfaulted ?_)
  split <;> exact unfaulted_next hf

theorem smEntry_guarded (hf : s.faulted = none) (op : SmOp) (cv : BitVec 11) (bit : BitVec 3) (value : BitVec 8) :
    GuardedBy ((s.gen .prog).mode = .unconfigured ∨ cvLegal cv = false ∨ s.params.maxMaProg = 0 ∨ False) s
      (smEntry op cv bit value s) :=
  guardedBy_ite (guardedBy_ite (guardedBy_ite (guardedBy_unfaulted (unfaulted_next hf))))

theorem smLoadEntry_guarded (hf : s.faulted = none) : GuardedBy ((s.gen .prog).mode = .unconfigured ∨ False) s (smLoadEntry s) :=
  guardedBy_ite (guardedBy_unfaulted (unfaulted_next hf))

/-! ### The operations that raise no fault -/

theorem loadStage_unfaulted (hf : s.faulted = none) {site : LoadSite} {after : State → Result} {stage : LoadStage}
    (h : loadStage site after stage s = .next t) (ha : ∀ u, u.faulted = none → Unfaulted (after u)) : t.faulted = none := by
  obtain ⟨-, h⟩ | ⟨-, h⟩ | ⟨-, h⟩ := loadStage_next h
  · obtain ⟨j, rest, -, rfl⟩ | ⟨-, rfl⟩ := loadAcquire_next h
    · simpa [acquired] using hf
    · exact hf
  · obtain ⟨j, p, -, -, rfl⟩ := fillHeld_next.1 h
    simpa [filled] using hf
  · obtain ⟨j, -, h⟩ := loadPublish_next.1 h
    exact ha (published j s) (by simpa [published] using hf) t h

theorem pollEmpty_unfaulted (hf : s.faulted = none) {done : State → Result} (hd : Unfaulted (done s)) :
    Unfaulted (pollEmpty g done s) := by
  intro t h
  obtain ⟨-, h⟩ | ⟨-, rfl⟩ := pollEmpty_next h
  · exact hd t h
  · exact hf

theorem startArm_unfaulted (hf : s.faulted = none) : Unfaulted (startArm g s) := by
  intro t h
  obtain ⟨-, rfl⟩ | ⟨-, rfl⟩ := startArm_next h
  · simpa using hf
  · exact hf

theorem smRespond_unfaulted (hf : s.faulted = none) (v : BitVec 16) : Unfaulted (smRespond v s) := unfaulted_next hf

theorem smAfterLoad_unfaulted (hf : s.faulted = none) : Unfaulted (smAfterLoad s) := by
  intro t h
  obtain ⟨-, rfl⟩ | ⟨-, rfl⟩ | ⟨-, -, rfl⟩ | ⟨-, -, rfl⟩ := smAfterLoad_next h <;> exact hf

theorem smPoll_unfaulted (hf : s.faulted = none) : Unfaulted (smPoll s) := pollEmpty_unfaulted hf (unfaulted_next hf)

theorem readDecide_unfaulted (hf : s.faulted = none) (ack : Bool) : Unfaulted (readDecide ack s) := by
  intro t h
  obtain ⟨-, rfl⟩ | ⟨-, h⟩ := readDecide_next h
  · exact hf
  · exact smRespond_unfaulted hf _ t h

theorem writeDecide_unfaulted (hf : s.faulted = none) (ack : Bool) : Unfaulted (writeDecide ack s) := by
  intro t h
  obtain ⟨-, -, h⟩ | ⟨-, -, rfl⟩ | ⟨-, rfl⟩ := writeDecide_next h
  · exact smRespond_unfaulted hf _ t h
  · exact hf
  · exact hf

/-- START's steps on an idle generator, where its checks pass (R240). -/
theorem startSteps_unfaulted (hf : s.faulted = none) (hm : (s.gen g).mode = .idle) : Unfaulted (startSteps g s) := by
  intro t h
  have hload (n p r site) : Unfaulted (loadEntry g n p r site s) := (loadEntry_guarded hf n p r site).unfaulted (by simp [hm])
  obtain ⟨-, h⟩ | ⟨-, h⟩ | ⟨stage, -, -, h⟩ | ⟨-, h⟩ | ⟨stage, -, -, h⟩ | ⟨-, h⟩ := startSteps_next h
  · exact (startEntry_guarded hf).unfaulted (by simp [hm]) t h
  · exact hload _ _ _ _ t h
  · exact loadStage_unfaulted hf h fun _ hu => unfaulted_next hu
  · exact hload _ _ _ _ t h
  · exact loadStage_unfaulted hf h fun _ hu => unfaulted_next hu
  · exact startArm_unfaulted hf t h

/-- The engine's steps while PROG is configured (R281). -/
theorem smSteps_unfaulted (hf : s.faulted = none) (hm : (s.gen .prog).mode ≠ .unconfigured) {decide : Bool → State → Result}
    (hd : ∀ ack, Unfaulted (decide ack s)) : Unfaulted (smSteps decide s) := by
  intro t h
  obtain ⟨-, h⟩ | ⟨stage, -, -, h⟩ | ⟨-, h⟩ | ⟨-, h⟩ := smSteps_next h
  · exact (smLoadEntry_guarded hf).unfaulted (by simp [hm]) t h
  · exact loadStage_unfaulted hf h fun _ => smAfterLoad_unfaulted
  · exact smPoll_unfaulted hf t h
  · obtain ⟨-, rfl⟩ | ⟨-, h⟩ := smSample_next h
    · exact hf
    · exact hd _ t h

theorem writeSteps_unfaulted (hf : s.faulted = none) (hm : (s.gen .prog).mode ≠ .unconfigured) : Unfaulted (writeSteps s) := by
  intro t h
  obtain ⟨-, h⟩ | ⟨-, h⟩ := writeSteps_next h
  · exact smRespond_unfaulted hf _ t h
  · exact smSteps_unfaulted hf hm (writeDecide_unfaulted hf) t h

/-! ### A command at its entry, and inside -/

theorem execIsEmpty_guarded (hf : s.faulted = none) (hp : s.host.phase = .entry) :
    GuardedBy ((s.gen g).mode = .unconfigured ∨ False) s (execIsEmpty g s) := by
  rw [execIsEmpty, unlessFaulted_none hf, hp]
  exact guardedBy_ite (guardedBy_unfaulted (unfaulted_next hf))

theorem execWaitEmpty_guarded (hf : s.faulted = none) (hp : s.host.phase = .entry) :
    GuardedBy ((s.gen g).mode = .unconfigured ∨ False) s (execWaitEmpty g s) := by
  rw [execWaitEmpty, unlessFaulted_none hf, hp]
  exact guardedBy_ite (guardedBy_unfaulted (pollEmpty_unfaulted hf (unfaulted_next hf)))

/-- The entry checks of the three service-mode commands are the causes of the table (R261). -/
theorem smCause_iff {cv : BitVec 11} : contractCause s (.readCv cv) = true ↔
    (s.gen .prog).mode = .unconfigured ∨ cvLegal cv = false ∨ s.params.maxMaProg = 0 ∨ False := by
  rw [← Bool.not_eq_true (cvLegal cv), cvLegal_iff]
  simp only [contractCause, Bool.or_eq_true, beq_iff_eq, decide_eq_true_iff, not_and_or, not_le, or_false, or_assoc]

/-- A command's entry step is ContractViolation exactly on the causes of the table (R321). -/
theorem entry_guarded (hf : s.faulted = none) (hp : s.host.phase = .entry) (hi : isCommand i) (hn : ∀ w, i ≠ .illegal w) :
    GuardedBy (contractCause s i = true) s (exec i s) := by
  cases i with
  | configure g pin pool =>
    rw [exec, execConfigure, unlessFaulted_none hf, hp]
    exact (configureEntry_guarded hf pin pool).congr (by simp [contractCause])
  | start g =>
    rw [exec, execStart, unlessFaulted_none hf, hp]
    exact (startEntry_guarded hf).congr (by simp [contractCause])
  | stop g =>
    rw [exec, execStop, unlessFaulted_none hf, hp]
    exact (stopEntry_guarded hf).congr (by simp [contractCause])
  | loadPacket g len rep p0 p1 p2 p3 p4 =>
    rw [exec, execLoadPacket, unlessFaulted_none hf, hp]
    exact (loadEntry_guarded hf _ _ _ _).congr (by simp [contractCause])
  | isEmpty g => exact (execIsEmpty_guarded hf hp).congr (by simp [contractCause])
  | waitEmpty g => exact (execWaitEmpty_guarded hf hp).congr (by simp [contractCause])
  | readCv cv =>
    rw [exec, execReadCv, unlessFaulted_none hf, hp]
    exact (smEntry_guarded hf _ _ _ _).congr smCause_iff
  | writeProgCvByte cv v =>
    rw [exec, execWriteProgCvByte, unlessFaulted_none hf, hp]
    exact (smEntry_guarded hf _ _ _ _).congr smCause_iff
  | writeProgCvBit cv b v =>
    rw [exec, execWriteProgCvBit, unlessFaulted_none hf, hp]
    exact (smEntry_guarded hf _ _ _ _).congr smCause_iff
  | illegal w => exact absurd rfl (hn w)
  | _ => exact hi.elim

theorem commandPosition_ne_entry (hpos : commandPosition s i = true) : s.host.phase ≠ .entry := by
  intro hp
  cases i <;> simp [commandPosition, hp, startPhase, smPositions] at hpos

/-- Inside a command no check fails: its generator's mode there is the one its entry found (R33, R240, R261). -/
theorem inside_unfaulted (hpos : commandPosition s i = true) (hf : s.faulted = none) : Unfaulted (exec i s) := by
  intro t h
  have hne := commandPosition_ne_entry hpos
  cases i with
  | configure g pin pool =>
    simp only [commandPosition, Bool.and_eq_true, beq_iff_eq] at hpos
    obtain ⟨-, hm⟩ := hpos
    obtain ⟨-, ⟨hp, -⟩ | ⟨-, h⟩⟩ := execConfigure_next h
    · exact absurd hp hne
    · exact startSteps_unfaulted hf hm t h
  | start g =>
    simp only [commandPosition, Bool.and_eq_true, beq_iff_eq] at hpos
    obtain ⟨-, hm⟩ := hpos
    obtain ⟨-, ⟨hp, -⟩ | ⟨-, -, h⟩⟩ := execStart_next h
    · exact absurd hp hne
    · exact startSteps_unfaulted hf hm t h
  | stop g =>
    obtain ⟨-, ⟨hp, -⟩ | ⟨hp, -⟩ | ⟨-, rfl⟩⟩ := execStop_next h
    · exact absurd hp hne
    · exact absurd hp hne
    · simpa using hf
  | loadPacket g len rep p0 p1 p2 p3 p4 =>
    obtain ⟨-, ⟨hp, -⟩ | ⟨stage, -, h⟩⟩ := execLoadPacket_next h
    · exact absurd hp hne
    · exact loadStage_unfaulted hf h fun _ hu => unfaulted_next hu
  | waitEmpty g =>
    obtain ⟨-, ⟨hp, -⟩ | ⟨-, ⟨-, rfl⟩ | ⟨-, rfl⟩⟩⟩ := execWaitEmpty_next h
    · exact absurd hp hne
    · exact hf
    · exact hf
  | readCv cv =>
    simp only [commandPosition, Bool.and_eq_true, bne_iff_ne] at hpos
    obtain ⟨-, hm⟩ := hpos
    obtain ⟨-, ⟨hp, -⟩ | ⟨-, h⟩⟩ := execReadCv_next h
    · exact absurd hp hne
    · exact smSteps_unfaulted hf hm (readDecide_unfaulted hf) t h
  | writeProgCvByte cv v =>
    simp only [commandPosition, Bool.and_eq_true, bne_iff_ne] at hpos
    obtain ⟨-, hm⟩ := hpos
    obtain ⟨-, ⟨hp, -⟩ | ⟨-, h⟩⟩ := execWriteProgCvByte_next h
    · exact absurd hp hne
    · exact writeSteps_unfaulted hf hm t h
  | writeProgCvBit cv b v =>
    simp only [commandPosition, Bool.and_eq_true, bne_iff_ne] at hpos
    obtain ⟨-, hm⟩ := hpos
    obtain ⟨-, ⟨hp, -⟩ | ⟨-, h⟩⟩ := execWriteProgCvBit_next h
    · exact absurd hp hne
    · exact writeSteps_unfaulted hf hm t h
  | _ => cases hpos

/-! ### ContractViolation in an instruction and in a step -/

/-- Only a command has a cause of ContractViolation (R321). -/
theorem contractCause_command (h : contractCause s i = true) : isCommand i ∧ ∀ w, i ≠ .illegal w := by
  cases i with
  | configure | start | stop | loadPacket | isEmpty | waitEmpty | readCv | writeProgCvByte | writeProgCvBit =>
    exact ⟨trivial, nofun⟩
  | _ => cases h

/-- At the entry position an instruction that has a cause raises ContractViolation. -/
theorem exec_entry_raises (hf : s.faulted = none) (hp : s.host.phase = .entry) (hc : contractCause s i = true) :
    exec i s = .next { s with faulted := some .contractViolation } := by
  obtain ⟨hi, hn⟩ := contractCause_command hc
  obtain ⟨hraise, -⟩ := entry_guarded hf hp hi hn
  rw [hraise hc, raiseFault_eq hf]

/-- At the entry position ContractViolation is raised exactly on a cause, whatever the instruction. -/
theorem exec_entry_violation_iff (he : exec i s = .next t) (hf : s.faulted = none) (hp : s.host.phase = .entry) :
    t.faulted = some .contractViolation ↔ contractCause s i = true := by
  constructor
  · intro hr
    obtain ⟨hi, hn⟩ : isCommand i ∧ ∀ w, i ≠ .illegal w := exec_raises he hr
    by_contra hc
    rw [(entry_guarded hf hp hi hn).unfaulted hc t he] at hr
    cases hr
  · intro hc
    rw [exec_entry_raises hf hp hc] at he
    exact next_inj.1 he ▸ rfl

/-- The causes read the generators and the parameters alone. -/
theorem contractCause_host_inputs (s : State) (h : HostState) (inp : Inputs) (i : Instr) :
    contractCause { s with host := h, inputs := inp } i = contractCause s i := by
  have hgen (g : Gen) : ({ s with host := h, inputs := inp } : State).gen g = s.gen g := by cases g <;> rfl
  cases i <;> simp only [contractCause, hgen]

/-- What the host is at is its command, or a frame the block makes itself (R33, R127). -/
theorem hostInstr_word_or_frame (h : HostState) (w : CommandWord) :
    hostInstr h w = decodeWord w ∨ ∃ b, encode (hostInstr h w) = .frame b := by
  have hcode : hostCode h w = .word w ∨ hostCode h w = .frame h.load.frame := by
    unfold hostCode
    split
    · exact .inl rfl
    · exact .inr rfl
    · exact .inl rfl
  obtain hcode | hcode := hcode
  · left
    rw [hostInstr, hcode]
    rfl
  · rw [hostInstr, hcode]
    cases hd : decodeFrame h.load.frame with
    | ok i => exact .inr ⟨_, by rw [decode, hd]; exact decodeFrame_sound hd⟩
    | error r => exact .inl (by rw [decode, hd])

/-- A step raises ContractViolation exactly where a ready host takes a word that has a cause (R321). -/
theorem step_violation_iff (h : Inv s) (hs : step s = .next t) : t.faulted = some .contractViolation ↔
    (pickAgent s).1 = .host ∧ s.host.cmd = none ∧ ∃ w ws, s.inputs.cmds = w :: ws ∧ contractCause s (decodeWord w) = true := by
  obtain ⟨hf, inp, -, ⟨ha, -, rfl⟩ | ⟨k, g, ha, -, he⟩ | ⟨w, ws, ha, hc, hw, he⟩ | ⟨w, ha, hc, he⟩⟩ := step_cases hs
  · refine iff_of_false (fun hr => ?_) (fun ⟨ha', _⟩ => ?_)
    · rw [clockStep_faulted, hf] at hr
      cases hr
    · rw [ha] at ha'
      cases ha'
  · refine iff_of_false (fun hr => ?_) (fun ⟨ha', _⟩ => ?_)
    · obtain ⟨hi, -⟩ : isCommand (decodeInterrupt k g) ∧ _ := exec_raises he hr
      cases k <;> exact hi
    · rw [ha] at ha'
      cases ha'
  · rw [exec_entry_violation_iff he hf rfl, contractCause_host_inputs]
    refine ⟨fun hcause => ⟨ha, hc, w, ws, hw, hcause⟩, ?_⟩
    rintro ⟨-, -, v, vs, hv, hcause⟩
    obtain ⟨rfl, -⟩ := List.cons.inj (hw.symm.trans hv)
    exact hcause
  · refine iff_of_false (fun hr => ?_) (fun ⟨_, hc', _⟩ => ?_)
    · obtain ⟨hi, -⟩ : isCommand (hostInstr s.host w) ∧ _ := exec_raises he hr
      obtain hword | ⟨b, hb⟩ := hostInstr_word_or_frame s.host w
      · have hpos : commandPosition { s with host := { s.host with wakeAt := 0 }, inputs := inp } (decodeWord w) = true :=
          (h.inputs inp).host.position hf w hc
        rw [hword] at he
        rw [inside_unfaulted hpos hf t he] at hr
        cases hr
      · exact not_isCommand_of_frame hb hi
    · rw [hc] at hc'
      cases hc'

/-! ### CursorOverrun -/

/-- The cursor has no bit to give exactly where the guard of R213 fires, or where it is at no stored place (log entry 13). -/
theorem extractBit_eq_none_iff {G : GenState} :
    extractBit G = none ↔ ¬ ∃ p, G.currentPacket = some p ∧ p.currentBit < p.numBits ∧ p.currentBit.toNat < 80 := by
  unfold extractBit
  cases G.currentPacket with
  | none => simp
  | some p => simp

/-- The full-cycle ISR overruns exactly where `GetNextBit` has no bit; it does not read the timer whose interrupt is taken. -/
theorem irqFull_overrun_iff (hf : s.faulted = none) (hd : (s.gen g).full.deliverable = true) :
    exec (.irqFull g) s = .next { s with faulted := some .cursorOverrun } ↔ getNextBit (s.gen g) = none := by
  have htake := takeInterrupt_some (k := .full).2 ⟨hd, rfl⟩
  have hbit : getNextBit ((s.gen g).setTimer .full { (s.gen g).timer .full with latched := false, age := 0 }) = none ↔
      getNextBit (s.gen g) = none := by
    change getNextBit ((s.gen g).withFull _) = none ↔ _
    rw [getNextBit_withFull, Option.map_eq_none_iff]
  rw [exec, execIrqFull, unlessFaulted_none hf, htake, ← hbit]
  dsimp only
  rw [State.gen_modGen_same]
  split
  · rename_i hnone
    exact iff_of_true (raiseFault_eq hf _) hnone
  · rename_i b G hsome
    refine iff_of_false (fun he => ?_) (by rw [hsome]; exact Option.some_ne_none _)
    have hfault := congrArg State.faulted (next_inj.1 he)
    simp [hf] at hfault

/-- A cursor past its packet's length does not come to another packet, and has no bit there. -/
theorem getNextBit_past {G : GenState} {p : Packet} (hp : G.currentPacket = some p) (hlt : p.numBits < p.currentBit) :
    getNextBit G = none := by
  have hclose : closePass G = G := closePass_continue fun q hq => by
    obtain rfl := Option.some.inj (hp.symm.trans hq)
    exact (BitVec.ne_of_lt hlt).symm
  have hplay : G.current ≠ .none := fun hn => by
    rw [currentPacket_none hn] at hp
    cases hp
  rw [getNextBit, hclose, selectPacket_playing hplay, extractBit_eq_none_iff, hp]
  rintro ⟨q, hq, hlt', -⟩
  obtain rfl := Option.some.inj hq
  exact BitVec.lt_asymm hlt hlt'

/-- Settles O15: only the named instruction raises a fault, a command's entry checks are the table's causes, and none fails later. -/
theorem faultReasonsHaveTheirCauses : Obligations.FaultReasonsHaveTheirCauses := by
  refine ⟨rfl, rfl, rfl, fun i s hf hp => ⟨exec_entry_raises hf hp, fun hc t he hr => ?_⟩,
    fun i s t hf he => ⟨⟨exec_raises he, ?_⟩, fun hr => ?_, exec_raises he⟩, fun s t h _ => step_violation_iff h,
    fun g s hf hl ha => ?_⟩
  · rw [(exec_entry_violation_iff he hf hp).1 hr] at hc
    cases hc
  · rintro ⟨w, rfl⟩
    obtain ⟨-, rfl⟩ := execIllegal_next (w := w) he
    rfl
  · obtain ⟨hi, hn⟩ : isCommand i ∧ ∀ w, i ≠ .illegal w := exec_raises he hr
    exact ⟨isCommand_encode hi, hn⟩
  · have hiff := irqFull_overrun_iff hf (deliverable_iff.2 ⟨hl, ha⟩)
    exact ⟨hiff.trans extractBit_eq_none_iff, fun p hp hlt => hiff.2 (getNextBit_past hp hlt)⟩

end Sys2Proof.Proofs
end

section
/-! PROOFS. The serializer: the checksum (R120), and a load through its stages (R125 to R128). A command inside its load runs the load's stage,
whichever of the four kinds of load it is: the acquisition (R126), the three stages in a row, and LOAD_PACKET from its entry. -/

namespace Sys2Proof.Proofs

open Sys2Proof Sys2Proof.Machine

variable {s t : State} {i : Instr} {site : LoadSite}

/-- Settles O7: `XOR` folds from either end alike, and the checksum XORed with itself is 0. -/
theorem checksumIsXorOfPayload : Obligations.ChecksumIsXorOfPayload :=
  ⟨checksum_eq_foldr, fun payload => ⟨rfl, checksum_frameOf payload⟩⟩

/-! ### A command at a stage of its load -/

/-- What the command continues with once its load is published: LOAD_PACKET responds, START goes on to its next load or to the timers, the
engine to its next phase (R128, R240, R269). -/
def afterPublish : LoadSite → State → Result
  | .caller => fun t => .next (respond .ok 0 t)
  | .bootReset => fun t => .next (t.setPhase (.load .bootIdle .entry))
  | .bootIdle => fun t => .next (t.setPhase .arm)
  | .engine => smAfterLoad

section
variable {stage : LoadStage} (hs : stage ≠ .entry) (hp : s.host.phase = .load site stage)
include hs hp

theorem startSteps_loadStage (hb : site = .bootReset ∨ site = .bootIdle) (g : Gen) :
    startSteps g s = loadStage site (afterPublish site) stage s := by
  rw [startSteps, hp]
  cases stage with
  | entry => exact absurd rfl hs
  | acquire | fill | publish => obtain rfl | rfl := hb <;> rfl

theorem smSteps_loadStage (he : site = .engine) (dec : Bool → State → Result) :
    smSteps dec s = loadStage site (afterPublish site) stage s := by
  rw [smSteps, hp]
  cases stage with
  | entry => exact absurd rfl hs
  | acquire | fill | publish => subst he; rfl

end

/-- START and CONFIGURE inside a load run START's steps (R231, R240). -/
theorem exec_boot_load {g : Gen} (hb : isBoot i g) (hf : s.faulted = none) {stage : LoadStage} (hp : s.host.phase = .load site stage) :
    exec i s = startSteps g s := by
  obtain rfl | ⟨pin, pool, rfl⟩ := hb
  · rw [exec, execStart, unlessFaulted_none hf, hp]
  · rw [exec, execConfigure, unlessFaulted_none hf, hp]

/-- A service-mode command inside a load runs the engine's steps (R281). -/
theorem exec_service_load (hi : isService i) (hf : s.faulted = none) {stage : LoadStage} (hp : s.host.phase = .load site stage) :
    ∃ dec, exec i s = smSteps dec s := by
  obtain ⟨cv, rfl⟩ | ⟨cv, v, rfl⟩ | ⟨cv, b, v, rfl⟩ := hi
  · exact ⟨readDecide, by rw [exec, execReadCv, unlessFaulted_none hf, hp]⟩
  · exact ⟨writeDecide, by rw [exec, execWriteProgCvByte, unlessFaulted_none hf, writeSteps, hp]⟩
  · exact ⟨writeDecide, by rw [exec, execWriteProgCvBit, unlessFaulted_none hf, writeSteps, hp]⟩

/-- Every command with a load of this site runs its stages after the entry alike. -/
theorem exec_loadStage (hl : loadsAt i site) (hf : s.faulted = none) {stage : LoadStage} (hp : s.host.phase = .load site stage)
    (hs : stage ≠ .entry) : exec i s = loadStage site (afterPublish site) stage s := by
  cases site with
  | caller =>
    obtain ⟨g, len, rep, p0, p1, p2, p3, p4, rfl⟩ := hl
    rw [exec, execLoadPacket, unlessFaulted_none hf, hp]
    rfl
  | bootReset =>
    obtain ⟨g, hb⟩ := hl
    rw [exec_boot_load hb hf hp, startSteps_loadStage hs hp (.inl rfl)]
  | bootIdle =>
    obtain ⟨g, hb⟩ := hl
    rw [exec_boot_load hb hf hp, startSteps_loadStage hs hp (.inr rfl)]
  | engine =>
    obtain ⟨dec, he⟩ := exec_service_load hl hf hp
    rw [he, smSteps_loadStage hs hp rfl]

/-! ### Slot acquisition (R126) -/

theorem exec_acquire_free (hl : loadsAt i site) (hf : s.faulted = none) (hp : s.host.phase = .load site .acquire) {j : Nat}
    {rest : List Nat} (hfree : (s.gen s.host.load.gen).free = j :: rest) : exec i s = .next (acquired site j rest s) := by
  rw [exec_loadStage hl hf hp nofun, loadStage, loadAcquire, hfree]
  rfl

theorem exec_acquire_wait (hl : loadsAt i site) (hf : s.faulted = none) (hp : s.host.phase = .load site .acquire)
    (hfree : (s.gen s.host.load.gen).free = []) : exec i s = .next (delay Config.poolPollUs s) := by
  rw [exec_loadStage hl hf hp nofun, loadStage, loadAcquire, hfree]
  rfl

/-- Settles O39, by the acquisition stage common to the four kinds of load. -/
theorem loadPacketWaitsForFreeSlot : Obligations.LoadPacketWaitsForFreeSlot := by
  intro i site s hf hp hi
  have hl : loadsAt i site := by
    obtain ⟨rfl, h⟩ | ⟨rfl | rfl, h⟩ | ⟨rfl, h⟩ := hi <;> exact h
  refine ⟨fun j rest hfree => ?_, fun hfree => exec_acquire_wait hl hf hp hfree⟩
  rw [exec_acquire_free hl hf hp hfree]
  simp only [acquired, State.setPhase, State.modGen, State.setGen_host]

/-! ### The stages in a row (R126 to R128) -/

theorem hostSteps_succ {n : Nat} (h : exec i s = .next t) : hostSteps i (n + 1) s = hostSteps i n t := by
  rw [hostSteps, h]

/-- The three stages of a load after its entry: slot `j`, which held `p`, taken from the head of `free`, filled and published. -/
def loaded (site : LoadSite) (j : Nat) (rest : List Nat) (p : Packet) (s : State) : State :=
  published j (filled s.host.load.frame site j p (acquired site j rest s))

/-- The generator of the load has the slot filled and at the tail of `pending`, and nothing in filling. -/
theorem loaded_gen (site : LoadSite) (j : Nat) (rest : List Nat) (p : Packet) (s : State) :
    (loaded site j rest p s).gen s.host.load.gen =
      { s.gen s.host.load.gen with
        free := rest
        pending := (s.gen s.host.load.gen).pending ++ [j]
        filling := none
        slots := (s.gen s.host.load.gen).slots.write j (fillPacket p s.host.load.frame s.host.load.repeats) } := by
  simp [loaded, published, filled, acquired, fifoPush]

/-- A load that finds a slot is done in three steps, and its command goes on with `afterPublish`. -/
theorem hostSteps_load (hl : loadsAt i site) (hf : s.faulted = none) (hp : s.host.phase = .load site .acquire) {j : Nat}
    {rest : List Nat} (hfree : (s.gen s.host.load.gen).free = j :: rest) {p : Packet}
    (hr : (s.gen s.host.load.gen).slots.read j = some p) (ha : afterPublish site (loaded site j rest p s) = .next t) :
    hostSteps i 3 s = .next t := by
  have hfill : exec i (acquired site j rest s) =
      .next (filled s.host.load.frame site j p (acquired site j rest s)) := by
    rw [exec_loadStage hl (by simpa [acquired] using hf) (stage := .fill) rfl nofun]
    exact fillHeld_next.2 ⟨j, p, by simp [acquired], by simpa [acquired] using hr, by simp [acquired]⟩
  have hpublish : exec i (filled s.host.load.frame site j p (acquired site j rest s)) = .next t := by
    rw [exec_loadStage hl (by simpa [filled, acquired] using hf) (stage := .publish) rfl nofun]
    exact loadPublish_next.2 ⟨j, by simp [filled, acquired], ha⟩
  rw [hostSteps_succ (exec_acquire_free hl hf hp hfree), hostSteps_succ hfill, hostSteps_succ hpublish, hostSteps]

/-! ### LOAD_PACKET -/

/-- LOAD_PACKET at its entry on a configured generator: the length alone decides (R125). -/
theorem exec_loadPacket_entry {g : Gen} (hf : s.faulted = none) (hp : s.host.phase = .entry) (hm : (s.gen g).mode ≠ .unconfigured)
    (len : BitVec 3) (rep : BitVec 8) (p0 p1 p2 p3 p4 : Byte) :
    exec (.loadPacket g len rep p0 p1 p2 p3 p4) s =
      .next (if lenLegal len.toNat then beginLoad g (payloadOf len p0 p1 p2 p3 p4) rep .caller s
        else respond .invalidPayloadLen 0 s) := by
  rw [exec, execLoadPacket, unlessFaulted_none hf, hp]
  dsimp only
  rw [loadEntry, if_neg hm]
  split <;> rfl

/-- The length of a packet with a frame of at most 6 bytes laid out in it fits its 8 bits (R121). -/
theorem fillPacket_numBits_toNat {frame : List Byte} (h : frame.length ≤ 6) (p : Packet) (r : BitVec 8) :
    (fillPacket p frame r).numBits.toNat = 22 + 9 * frame.length := by
  rw [fillPacket_numBits, BitVec.toNat_ofNat, numBitsOf, Config.preambleBits]
  omega

/-- Settles O38: an illegal length is answered at the entry step. -/
theorem loadPacketRejectsLength : Obligations.LoadPacketRejectsLength := by
  intro g len rep p0 p1 p2 p3 p4 s hf hp hm hlen
  rw [exec_loadPacket_entry hf hp hm, if_neg (mt lenLegal_iff.1 hlen)]
  rfl

/-- Settles O37: the entry step, then the three stages of the load; the slot then holds the payload's frame. -/
theorem loadPacketPublishesFrame : Obligations.LoadPacketPublishesFrame := by
  intro g len rep p0 p1 p2 p3 p4 s i rest p hf hp hm hmin hmax hfree hr
  have hlegal : lenLegal len.toNat = true := lenLegal_iff.2 ⟨hmin, hmax⟩
  have hentry := exec_loadPacket_entry hf hp hm len rep p0 p1 p2 p3 p4
  have hlen : (frameOf (payloadOf len p0 p1 p2 p3 p4)).length = len.toNat + 1 := by rw [frameOf_length, payloadOf_length hlegal]
  have h6 : (frameOf (payloadOf len p0 p1 p2 p3 p4)).length ≤ 6 := by omega
  rw [if_pos hlegal] at hentry
  generalize payloadOf len p0 p1 p2 p3 p4 = payload at hentry hlen h6 ⊢
  have hsteps := hostSteps_load (s := beginLoad g payload rep .caller s) (site := .caller) ⟨g, len, rep, p0, p1, p2, p3, p4, rfl⟩ hf rfl
    (by simpa using hfree) (by simpa using hr) rfl
  have hgen := (respond_gen .ok 0 _ g).trans (loaded_gen .caller i rest p (beginLoad g payload rep .caller s))
  simp only [beginLoad_load, beginLoad_gen] at hgen
  rw [← hlen]
  exact ⟨_, _, fillPacket p (frameOf payload) rep, hentry, hsteps, rfl, rfl, rfl, congrArg GenState.free hgen,
    congrArg GenState.pending hgen, congrArg GenState.filling hgen, congrArg GenState.slots hgen, fillPacket_numBits_toNat h6 p rep,
    rfl, rfl, fun k hk => (bufBit_fillPacket p _ rep h6 k).trans (if_pos hk),
    fun k hk => (bufBit_fillPacket p _ rep h6 k).trans (if_neg (not_lt.2 hk))⟩

end Sys2Proof.Proofs
end

section
/-! PROOFS. The bit cursor row by row (R161, R211 to R213, R217), and the waits on `pending`: IS_EMPTY (R159), WAIT_EMPTY (R160), and the engine's
wait with the ACK check after it (R269, R272). -/

namespace Sys2Proof.Proofs

open Sys2Proof Sys2Proof.Machine

/-! ### The bit extracted (R213) -/

theorem memory_write_write (m : Memory) (i : Nat) (p q : Packet) : (m.write i p).write i q = m.write i q := List.set_set p

section
variable {G : GenState} {i : Nat} {p : Packet}

theorem extractBit_slot (hc : G.current = .slot i) (hr : G.slots.read i = some p) (hlt : p.currentBit < p.numBits)
    (hn : p.numBits.toNat ≤ 80) :
    extractBit G = some (bufBit p.buffer p.currentBit.toNat,
      { G with slots := G.slots.write i { p with currentBit := p.currentBit + 1 } }) := by
  rw [extractBit_some ((currentPacket_slot hc).trans hr) hlt hn, setCurrentPacket_slot hc]

theorem extractBit_idle (hc : G.current = .idlePkt) (hlt : G.idle.currentBit < G.idle.numBits) (hn : G.idle.numBits.toNat ≤ 80) :
    extractBit G = some (bufBit G.idle.buffer G.idle.currentBit.toNat,
      { G with idle := { G.idle with currentBit := G.idle.currentBit + 1 } }) := by
  rw [extractBit_some (currentPacket_idle hc) hlt hn, setCurrentPacket_idle hc]

/-! ### The first bit after a release (R157, R212) -/

theorem extractBit_selectPacket_pending {j : Nat} {rest : List Nat} {q : Packet} (hc : G.current = .none) (hp : G.pending = j :: rest)
    (hr : G.slots.read j = some q) (hlt : q.currentBit < q.numBits) (hn : q.numBits.toNat ≤ 80) :
    extractBit (selectPacket G) = some (bufBit q.buffer q.currentBit.toNat,
      { G with pending := rest, current := .slot j, slots := G.slots.write j { q with currentBit := q.currentBit + 1 } }) := by
  rw [selectPacket_dequeue hc hp]
  exact extractBit_slot rfl hr hlt hn

theorem extractBit_selectPacket_idle (hc : G.current = .none) (hp : G.pending = []) (hlt : 0 < G.idle.numBits)
    (hn : G.idle.numBits.toNat ≤ 80) :
    extractBit (selectPacket G) = some (bufBit G.idle.buffer 0,
      { G with current := .idlePkt, idle := { G.idle with currentBit := 1 } }) := by
  rw [selectPacket_idle hc hp]
  exact extractBit_idle rfl hlt hn

/-! ### What step 1 leaves (R211) -/

/-- Where step 1 leaves a packet playing, step 2 does nothing. -/
theorem getNextBit_playing {H : GenState} (h : closePass G = H) (hc : H.current ≠ .none) : getNextBit G = extractBit H := by
  rw [getNextBit, h, selectPacket_playing hc]

theorem closePass_midPass (hp : G.currentPacket = some p) (hlt : p.currentBit < p.numBits) : closePass G = G :=
  closePass_continue fun q hq => by
    obtain rfl := Option.some.inj (hp.symm.trans hq)
    exact BitVec.ne_of_lt hlt

theorem closePass_repeat_slot (hc : G.current = .slot i) (hr : G.slots.read i = some p) (he : p.currentBit = p.numBits)
    (hrep : 0 < p.repeats) :
    closePass G = { G with slots := G.slots.write i { p with repeats := p.repeats - 1, currentBit := 0 } } := by
  rw [closePass_repeat ((currentPacket_slot hc).trans hr) he hrep, setCurrentPacket_slot hc]

theorem closePass_release_slot (hc : G.current = .slot i) (hr : G.slots.read i = some p) (he : p.currentBit = p.numBits)
    (h0 : p.repeats = 0) : closePass G = { G with free := G.free ++ [i], current := .none } := by
  rw [closePass_release ((currentPacket_slot hc).trans hr) he h0, release_slot hc, fifoPush]

/-- With nothing playing, or the idle singleton at its end, step 1 leaves nothing playing and gives no slot back. -/
theorem closePass_no_slot (h : G.current = .none ∨ G.current = .idlePkt ∧ G.idle.currentBit = G.idle.numBits ∧ G.idle.repeats = 0) :
    closePass G = { G with current := .none } := by
  obtain hc | ⟨hc, he, h0⟩ := h
  · rw [closePass, currentPacket_none hc, ← hc]
  · rw [closePass_release (currentPacket_idle hc) he h0, release_idle hc]

end

/-- Settles O35: step 1 decides between continuing, repeating and releasing, and after a release `pending` decides what plays. -/
theorem arbiterPlaysRepeatThenPendingThenIdle : Obligations.ArbiterPlaysRepeatThenPendingThenIdle := by
  intro G
  refine ⟨fun i p hc hr hlt hn => ?midPass, fun i p hc hr he hlt hn hrep => ?nextPass,
    fun i p j rest q hc hr he h0 hp hq hlt hn => ?slotThenPending, fun i p hc hr he h0 hp hlt hn => ?slotThenIdle,
    fun j rest q hc hp hq hlt hn => ?noSlotThenPending, fun hc hp hlt hn => ?noSlotThenIdle, fun hc hlt hn => ?idleMidPass⟩
  case midPass =>
    have hclose : closePass G = G := closePass_midPass ((currentPacket_slot hc).trans hr) hlt
    rw [getNextBit_playing hclose (by rw [hc]; nofun), extractBit_slot hc hr hlt hn]
  case nextPass =>
    have hplay : G.current ≠ .none := by rw [hc]; nofun
    rw [getNextBit_playing (closePass_repeat_slot hc hr he hrep) hplay]
    refine Eq.trans (extractBit_slot hc (Memory.read_write_same hr) hlt hn) ?_
    rw [memory_write_write]
    rfl
  case slotThenPending =>
    rw [getNextBit, closePass_release_slot hc hr he h0]
    exact extractBit_selectPacket_pending rfl hp hq hlt hn
  case slotThenIdle =>
    rw [getNextBit, closePass_release_slot hc hr he h0]
    exact extractBit_selectPacket_idle rfl hp hlt hn
  case noSlotThenPending =>
    rw [getNextBit, closePass_no_slot hc]
    exact extractBit_selectPacket_pending rfl hp hq hlt hn
  case noSlotThenIdle =>
    rw [getNextBit, closePass_no_slot hc]
    exact extractBit_selectPacket_idle rfl hp hlt hn
  case idleMidPass =>
    have hclose : closePass G = G := closePass_midPass (currentPacket_idle hc) hlt
    rw [getNextBit_playing hclose (by rw [hc]; nofun), extractBit_idle hc hlt hn]

/-! ### IS_EMPTY and WAIT_EMPTY (R159, R160) -/

variable {s : State} {i : Instr} {g : Gen}

theorem boolValue_fifoEmpty (q : List Nat) : boolValue (fifoEmpty q) = if q = [] then 1 else 0 := by
  cases q <;> rfl

/-- Settles O42: past the entry check the response is read off `pending`. -/
theorem isEmptyReadsPending : Obligations.IsEmptyReadsPending := by
  intro g s hf hp
  have hexec : exec (.isEmpty g) s = if (s.gen g).mode = .unconfigured then raiseFault .contractViolation s
      else .next (respond .ok (boolValue (fifoEmpty (s.gen g).pending)) s) := by
    rw [exec, execIsEmpty, unlessFaulted_none hf, hp]
  refine ⟨fun hm => ?_, fun hm => ?_⟩
  · rw [hexec, if_pos hm, raiseFault_eq hf]
  · rw [hexec, if_neg hm, boolValue_fifoEmpty]
    rfl

theorem pollEmpty_done (hp : (s.gen g).pending = []) (done : State → Result) : pollEmpty g done s = done s := by
  rw [pollEmpty, hp]
  rfl

theorem pollEmpty_wait (hp : (s.gen g).pending ≠ []) (done : State → Result) :
    pollEmpty g done s = .next (delay s.params.emptyPollUs (s.setPhase .poll)) := by
  rw [pollEmpty, fifoEmpty, if_neg (mt List.isEmpty_iff.1 hp)]

theorem exec_waitEmpty_unconfigured (hf : s.faulted = none) (hp : s.host.phase = .entry) (hm : (s.gen g).mode = .unconfigured) :
    exec (.waitEmpty g) s = .next { s with faulted := some .contractViolation } := by
  rw [exec, execWaitEmpty, unlessFaulted_none hf, hp]
  dsimp only
  rw [if_pos hm, raiseFault_eq hf]

/-- Past the entry check WAIT_EMPTY is one test of `pending`, at its entry and at each later test alike. -/
theorem exec_waitEmpty_test (hf : s.faulted = none) (hp : s.host.phase = .entry ∨ s.host.phase = .poll)
    (hm : s.host.phase = .entry → (s.gen g).mode ≠ .unconfigured) :
    exec (.waitEmpty g) s = pollEmpty g (fun t => .next (respond .ok 0 t)) s := by
  rw [exec, execWaitEmpty, unlessFaulted_none hf]
  obtain hp | hp := hp
  · rw [hp]
    exact if_neg (hm hp)
  · rw [hp]

/-- Settles O43: the entry check, then the one test. -/
theorem waitEmptyPollsPending : Obligations.WaitEmptyPollsPending := by
  intro g s hf hp
  refine ⟨exec_waitEmpty_unconfigured hf, fun hm hempty => ?_, fun hm hne => ?_⟩
  · rw [exec_waitEmpty_test hf hp hm, pollEmpty_done hempty]
    rfl
  · rw [exec_waitEmpty_test hf hp hm, pollEmpty_wait hne]
    rfl

/-! ### The engine's wait and the ACK check (R269, R271, R272) -/

/-- At its wait and in its ACK check a service-mode command runs the engine's steps (R281). -/
theorem exec_service_steps (hi : isService i) (hf : s.faulted = none) (hp : s.host.phase = .poll ∨ s.host.phase = .sample) :
    ∃ dec, exec i s = smSteps dec s := by
  obtain ⟨cv, rfl⟩ | ⟨cv, v, rfl⟩ | ⟨cv, b, v, rfl⟩ := hi
  · exact ⟨readDecide, by rw [exec, execReadCv, unlessFaulted_none hf]; obtain hp | hp := hp <;> rw [hp]⟩
  · exact ⟨writeDecide, by rw [exec, execWriteProgCvByte, unlessFaulted_none hf, writeSteps]; obtain hp | hp := hp <;> rw [hp]⟩
  · exact ⟨writeDecide, by rw [exec, execWriteProgCvBit, unlessFaulted_none hf, writeSteps]; obtain hp | hp := hp <;> rw [hp]⟩

theorem exec_service_poll (hi : isService i) (hf : s.faulted = none) (hp : s.host.phase = .poll) : exec i s = smPoll s := by
  obtain ⟨dec, he⟩ := exec_service_steps hi hf (.inl hp)
  rw [he, smSteps, hp]

/-- A read of the ACK check counts the sample drawn and waits for the next (R271, R272). -/
theorem exec_service_sample (hi : isService i) (hf : s.faulted = none) (hp : s.host.phase = .sample) (hk : s.sm.k.toNat < 250) :
    exec i s = .next (delay Config.adcSampleIntervalUs ((drawAdc s).2.modSm (countSample (drawAdc s).1))) := by
  obtain ⟨dec, he⟩ := exec_service_steps hi hf (.inr hp)
  rw [he, smSteps, hp]
  exact if_pos (BitVec.lt_def.2 hk)

theorem drawAdc_cons {x : BitVec 12} {xs : List (BitVec 12)} (h : s.inputs.adc = x :: xs) :
    drawAdc s = (x, { s with inputs := { s.inputs with adc := xs } }) := by
  rw [drawAdc, h]
  rfl

/-- Settles O55: the wait is a test of PROG's `pending`, and each read draws, counts and waits. -/
theorem ackCheckCountsSamples : Obligations.AckCheckCountsSamples := by
  intro i s hf hi
  refine ⟨fun hp hempty => ?_, fun hp hne => ?_, fun x xs hp hk hadc => ?_⟩
  · rw [exec_service_poll hi hf hp, smPoll, pollEmpty_done hempty]
    rfl
  · rw [exec_service_poll hi hf hp, smPoll, pollEmpty_wait hne]
    rfl
  · rw [exec_service_sample hi hf hp hk, drawAdc_cons hadc]
    rfl

end Sys2Proof.Proofs
end

section
/-! PROOFS. The timers of a running generator tick by tick (R182, R194): the two halves of a cell (R181, R188), and what one tick does to any
timer (R182, R192). -/

namespace Sys2Proof.Proofs

open Sys2Proof Sys2Proof.Machine

/-! ### The shapes of the cells (R181) -/

/-- Settles O30: the two shapes are constants, and the halves are compared bit by bit. -/
theorem cellShapes : Obligations.CellShapes :=
  ⟨rfl, rfl, rfl, rfl, fun b => by cases b <;> rfl⟩

theorem fullPeriod_eq (b : Bool) : fullPeriod b = 2 * halfPeriod b := by
  obtain ⟨-, -, -, -, h⟩ := cellShapes
  exact h b

/-- Both halves of a cell are at least as long as the ISR budget (R181, R360). -/
theorem budget_le_halfPeriod (b : Bool) : Config.isrBudgetUs ≤ halfPeriod b := by cases b <;> decide

theorem halfPeriod_pos (b : Bool) : 0 < halfPeriod b := by cases b <;> decide

/-! ### One tick of any timer (R182) -/

theorem ageTick_eq (t : Timer) : ageTick t = { t with age := if t.deliverable then t.age + 1 else t.age } := by
  unfold ageTick
  split <;> rfl

/-- A timer that is not begun does not count; what waits on it ages (R182, R192). -/
theorem timerTick_unbegun {t : Timer} (hb : t.begun = false) : timerTick t = ageTick t := by
  have hage : (ageTick t).begun = false := by rw [ageTick_eq]; exact hb
  simp [timerTick, hage]

/-- Settles O29: the model's laws of a timer's tick, with the age of a waiting interrupt written out. -/
theorem alarmFiresAtItsCount : Obligations.AlarmFiresAtItsCount := by
  intro t age hage
  have hwait : (if t.deliverable then t.age + 1 else t.age) = age := by simp only [hage, deliverable_iff]
  refine ⟨fun hb => ?_, fun hb hn => ?_, fun hb he hc => ?_⟩
  · rw [timerTick_unbegun hb, ageTick_eq, hwait]
  · rw [timerTick_count hb hn, hwait]
  · rw [timerTick_fire hb he hc, hwait]

/-! ### A running generator whose timers are set for bit `b` (R194) -/

/-- The generator is Running, its timers begun and attached, and its alarms those of a cell of bit `b`. -/
structure RunningCell (b : Bool) (G : GenState) : Prop where
  mode : G.mode = .running
  fullBegun : G.full.begun = true
  fullAttached : G.full.attached = true
  fullEnabled : G.full.alarmEn = true
  fullReloads : G.full.autoreload = true
  pulseBegun : G.pulse.begun = true
  pulseAttached : G.pulse.attached = true
  pulseOneShot : G.pulse.autoreload = false
  fullAlarm : G.full.alarm = fullPeriod b
  pulseAlarm : G.pulse.alarm = halfPeriod b

variable {b : Bool} {G : GenState} {n l : Nat}

/-- The timers' agreement with the mode says of a running generator that it is in a cell of some bit. -/
theorem runningCell_of_timerInv (h : TimerInv G) (hm : G.mode = .running) : ∃ b, RunningCell b G := by
  obtain ⟨h1, h2, h3, h4, h5, h6, h7, b, h8, h9⟩ := h.on hm
  exact ⟨b, hm, h1, h2, h3, h4, h5, h6, h7, h8, h9⟩

theorem RunningCell.timerInv (h : RunningCell b G) : TimerInv G :=
  ⟨fun hm => absurd h.mode hm, fun _ => ⟨h.fullBegun, h.fullAttached, h.fullEnabled, h.fullReloads, h.pulseBegun, h.pulseAttached,
    h.pulseOneShot, b, h.fullAlarm, h.pulseAlarm⟩⟩

theorem RunningCell.tick (h : RunningCell b G) : RunningCell b G.tick := by
  obtain ⟨h1, h2, h3, h4, h5, h6, h7, -⟩ := h.timerInv.tick.on h.mode
  exact ⟨h.mode, h1, h2, h3, h4, h5, h6, h7, (timerTick_alarm _).trans h.fullAlarm, (timerTick_alarm _).trans h.pulseAlarm⟩

/-- The full-cycle ISR sets a running generator's timers for its bit (R185). -/
theorem armCell_runningCell {b' : Bool} (h : RunningCell b' G) (b : Bool) : RunningCell b (armCell b G) :=
  ⟨h.mode, h.fullBegun, h.fullAttached, h.fullEnabled, rfl, h.pulseBegun, h.pulseAttached, rfl, rfl, rfl⟩

/-- START's arming step sets them for a "1" (R241). -/
theorem armTimers_runningCell (g : Gen) (G : GenState) : RunningCell true (armTimers g G) :=
  ⟨rfl, rfl, rfl, rfl, rfl, rfl, rfl, rfl, rfl, rfl⟩

/-! A running generator's interrupts are attached, so every latched one is deliverable and ages with the tick (R183, R192). -/

theorem RunningCell.full_deliverable (h : RunningCell b G) : G.full.deliverable = G.full.latched := by
  rw [Timer.deliverable, h.fullAttached, Bool.and_true]

theorem RunningCell.pulse_deliverable (h : RunningCell b G) : G.pulse.deliverable = G.pulse.latched := by
  rw [Timer.deliverable, h.pulseAttached, Bool.and_true]

/-- Before its period the full-cycle timer counts (R182). -/
theorem RunningCell.tick_full_count (h : RunningCell b G) (hn : G.full.counter + 1 ≠ fullPeriod b) :
    G.tick.full = { G.full with
      counter := G.full.counter + 1, age := if G.full.latched then G.full.age + 1 else G.full.age } := by
  have ht := timerTick_count h.fullBegun fun ha => hn (ha.2.trans h.fullAlarm)
  rwa [h.full_deliverable] at ht

/-- At its period it latches and starts anew (R182). -/
theorem RunningCell.tick_full_fire (h : RunningCell b G) (hn : G.full.counter + 1 = fullPeriod b) :
    G.tick.full = { G.full with
      latched := true, counter := 0, age := if G.full.latched then G.full.age + 1 else 0 } := by
  have ht := timerTick_fire h.fullBegun h.fullEnabled (hn.trans h.fullAlarm.symm)
  show timerTick G.full = _
  rw [ht]
  cases hl : G.full.latched <;> simp [h.full_deliverable, h.fullAttached, h.fullReloads, h.fullEnabled, hl]

/-- Before the half-period, and once it is disabled, the pulse timer counts (R182). -/
theorem RunningCell.tick_pulse_count (h : RunningCell b G) (hn : ¬ (G.pulse.alarmEn = true ∧ G.pulse.counter + 1 = halfPeriod b)) :
    G.tick.pulse = { G.pulse with
      counter := G.pulse.counter + 1, age := if G.pulse.latched then G.pulse.age + 1 else G.pulse.age } := by
  have ht := timerTick_count h.pulseBegun fun ha => hn ⟨ha.1, ha.2.trans h.pulseAlarm⟩
  rwa [h.pulse_deliverable] at ht

/-- At the half-period the armed pulse timer latches and disables itself (R182). -/
theorem RunningCell.tick_pulse_fire (h : RunningCell b G) (he : G.pulse.alarmEn = true) (hn : G.pulse.counter + 1 = halfPeriod b) :
    G.tick.pulse = { G.pulse with
      latched := true, counter := G.pulse.alarm, alarmEn := false, age := if G.pulse.latched then G.pulse.age + 1 else 0 } := by
  have ht := timerTick_fire h.pulseBegun he (hn.trans h.pulseAlarm.symm)
  show timerTick G.pulse = _
  rw [ht]
  cases hl : G.pulse.latched <;> simp [h.pulse_deliverable, h.pulseAttached, h.pulseOneShot, hl]

/-! ### The halves of a cell (R188) -/

/-- `n` ticks into the first half of a cell of bit `b`: both counters at `n`, the pulse alarm armed, no interrupt latched. -/
structure FirstHalfAt (b : Bool) (n : Nat) (G : GenState) : Prop where
  cell : RunningCell b G
  armed : G.pulse.alarmEn = true
  noFull : G.full.latched = false
  noPulse : G.pulse.latched = false
  fullCounter : G.full.counter = n
  pulseCounter : G.pulse.counter = n

/-- `n` ticks into the cell and past its first half, with no interrupt latched. -/
structure SecondHalfAt (b : Bool) (n : Nat) (G : GenState) : Prop where
  cell : RunningCell b G
  unarmed : G.pulse.alarmEn = false
  noFull : G.full.latched = false
  noPulse : G.pulse.latched = false
  fullCounter : G.full.counter = n

/-- Within the first half a tick counts. -/
theorem FirstHalfAt.tick (h : FirstHalfAt b n G) (hn : n + 1 < halfPeriod b) : FirstHalfAt b (n + 1) G.tick := by
  obtain ⟨hc, armed, noFull, noPulse, rfl, hp⟩ := h
  have hfull := hc.tick_full_count (by rw [fullPeriod_eq]; omega)
  have hpulse := hc.tick_pulse_count (by omega)
  exact ⟨hc.tick, hpulse ▸ armed, hfull ▸ noFull, hpulse ▸ noPulse, by rw [hfull], by rw [hpulse, hp]⟩

/-- The tick that ends the first half latches the pulse interrupt. -/
theorem FirstHalfAt.tick_half (h : FirstHalfAt b n G) (hn : n + 1 = halfPeriod b) :
    G.tick.pulse.alarmEn = false ∧ G.tick.full.latched = false ∧ G.tick.pulse.latched = true ∧
      G.tick.full.counter = halfPeriod b := by
  obtain ⟨hc, armed, noFull, -, rfl, hp⟩ := h
  have hfull := hc.tick_full_count (by rw [fullPeriod_eq]; omega)
  have hpulse := hc.tick_pulse_fire armed (by omega)
  exact ⟨by rw [hpulse], hfull ▸ noFull, by rw [hpulse], by rw [hfull, hn]⟩

/-- Within the second half a tick counts. -/
theorem SecondHalfAt.tick (h : SecondHalfAt b n G) (hn : n + 1 < fullPeriod b) : SecondHalfAt b (n + 1) G.tick := by
  obtain ⟨hc, unarmed, noFull, noPulse, rfl⟩ := h
  have hfull := hc.tick_full_count hn.ne
  have hpulse := hc.tick_pulse_count (by simp [unarmed])
  exact ⟨hc.tick, hpulse ▸ unarmed, hfull ▸ noFull, hpulse ▸ noPulse, by rw [hfull]⟩

/-- The tick that ends the cell latches the full-cycle interrupt and restarts its counter. -/
theorem SecondHalfAt.tick_full (h : SecondHalfAt b n G) (hn : n + 1 = fullPeriod b) :
    G.tick.pulse.alarmEn = false ∧ G.tick.full.latched = true ∧ G.tick.pulse.latched = false ∧ G.tick.full.counter = 0 := by
  obtain ⟨hc, unarmed, -, noPulse, rfl⟩ := h
  have hfull := hc.tick_full_fire hn
  have hpulse := hc.tick_pulse_count (by simp [unarmed])
  exact ⟨hpulse ▸ unarmed, by rw [hfull], hpulse ▸ noPulse, by rw [hfull]⟩

/-! ### A whole cell (R182, R188) -/

/-- The last of `n + 1` ticks taken apart. -/
theorem ticks_succ (n : Nat) (G : GenState) : ticks (n + 1) G = (ticks n G).tick := by
  induction n generalizing G with
  | zero => rfl
  | succ n ih => exact ih G.tick

theorem FirstHalfAt.after (h : FirstHalfAt b 0 G) (hn : n < halfPeriod b) : FirstHalfAt b n (ticks n G) := by
  induction n with
  | zero => exact h
  | succ n ih =>
    rw [ticks_succ]
    exact (ih (by omega)).tick hn

theorem SecondHalfAt.after {m : Nat} (h : SecondHalfAt b m G) (hn : m + n < fullPeriod b) :
    SecondHalfAt b (m + n) (ticks n G) := by
  induction n with
  | zero => exact h
  | succ n ih =>
    rw [ticks_succ]
    exact (ih (by omega)).tick hn

/-- A whole first half: nothing latches before the half-period, and there the pulse interrupt does, with the full-cycle timer going on. -/
theorem FirstHalfAt.over (h : FirstHalfAt b 0 G) :
    RunningCell b (ticks (halfPeriod b) G) ∧ (ticks (halfPeriod b) G).pulse.alarmEn = false ∧
      (ticks (halfPeriod b) G).full.latched = false ∧ (ticks (halfPeriod b) G).pulse.latched = true ∧
      (ticks (halfPeriod b) G).full.counter = halfPeriod b := by
  obtain ⟨n, hn⟩ := Nat.exists_eq_add_one.2 (halfPeriod_pos b)
  have hlast := h.after (n := n) (by omega)
  have hend := hlast.tick_half hn.symm
  rw [← ticks_succ, ← hn] at hend
  refine ⟨?_, hend⟩
  rw [hn, ticks_succ]
  exact hlast.cell.tick

/-- A whole second half ends with the full-cycle interrupt latched. -/
theorem SecondHalfAt.over {m : Nat} (h : SecondHalfAt b m G) (hm : m < fullPeriod b) :
    (ticks (fullPeriod b - m) G).full.latched = true ∧ (ticks (fullPeriod b - m) G).full.counter = 0 := by
  obtain ⟨n, hn⟩ := Nat.exists_eq_add_one.2 (Nat.sub_pos_of_lt hm)
  obtain ⟨-, hl, -, hc⟩ := (h.after (n := n) (by omega)).tick_full (by omega)
  rw [hn, ticks_succ]
  exact ⟨hl, hc⟩

/-- Right after the full-cycle ISR the cell's first half begins, if the counter was just reloaded. -/
theorem armCell_firstHalf (h : TimerInv G) (hm : G.mode = .running) (hc : G.full.counter = 0) (hf : G.full.latched = false)
    (hp : G.pulse.latched = false) (b : Bool) : FirstHalfAt b 0 (armCell b G) := by
  obtain ⟨b', hcell⟩ := runningCell_of_timerInv h hm
  exact ⟨armCell_runningCell hcell b, rfl, hf, hp, hc, rfl⟩

/-- Settles O31: the first half up to the pulse interrupt, and from its delivery the second half up to the full-cycle interrupt. -/
theorem cellLastsFullPeriod : Obligations.CellLastsFullPeriod := by
  intro G b ht hm hc hf hp
  have hfirst := armCell_firstHalf ht hm hc hf hp b
  obtain ⟨hcell, hunarmed, hnoFull, hpulse, hcount⟩ := hfirst.over
  refine ⟨fun n hn => ⟨(hfirst.after hn).noPulse, (hfirst.after hn).noFull⟩, hpulse, hnoFull, ?_⟩
  rintro H rfl
  generalize ticks (halfPeriod b) (armCell b G) = K at hcell hunarmed hnoFull hcount ⊢
  have hsecond : SecondHalfAt b (halfPeriod b) (K.setTimer .pulse { K.pulse with latched := false, age := 0 }) :=
    ⟨⟨hcell.mode, hcell.fullBegun, hcell.fullAttached, hcell.fullEnabled, hcell.fullReloads, hcell.pulseBegun, hcell.pulseAttached,
      hcell.pulseOneShot, hcell.fullAlarm, hcell.pulseAlarm⟩, hunarmed, hnoFull, rfl, hcount⟩
  have hhalf := halfPeriod_pos b
  exact ⟨fun n hn => ⟨(hsecond.after hn).noFull, (hsecond.after hn).noPulse⟩,
    hsecond.over (by rw [fullPeriod_eq]; omega)⟩

end Sys2Proof.Proofs
end

section
/-! PROOFS. The waveform in a whole step: what a step does to one generator's timers, pin and current packet, that it keeps the bounded waits
(R192, R360), and that under the ideal latency it keeps the cell and the pin (R182, R187, R188, R193, R194). -/

namespace Sys2Proof.Proofs

open Sys2Proof Sys2Proof.Machine

variable {s t : State} {i : Instr} {g : Gen} {G H : GenState} {b : Bool} {l : Nat}

/-! ### What an instruction does to a waveform -/

/-- What a step of `i` did to generator `g` as its waveform goes: where `GenChange` says only that the full-cycle ISR happened, this says what
became of the timers and the pin. -/
inductive WaveChange (i : Instr) (s : State) (g : Gen) (H : GenState) : Prop
  /-- the timers and the pin stay, and nothing new is played -/
  | kept (kept : GenKept (s.gen g) H) (current : H.current ≠ .none → (s.gen g).current ≠ .none)
  /-- the generator is not Running, by CONFIGURE's own step or by STOP's first (R231, R249) -/
  | off (mode : H.mode ≠ .running) (timers : TimerInv H)
  /-- START's arming step (R241) -/
  | arm (boot : isBoot i g) (position : s.host.phase = .arm) (eq : H = armTimers g (s.gen g))
  /-- the full-cycle ISR began a cell of bit `b` (R185) -/
  | full (b : Bool) (due : (s.gen g).full.deliverable = true) (mode : H.mode = (s.gen g).mode)
      (full : H.full = { (s.gen g).full with alarm := fullPeriod b, autoreload := true, latched := false, age := 0 })
      (pulse : H.pulse = { (s.gen g).pulse with alarm := halfPeriod b, autoreload := false, counter := 0, alarmEn := true })
      (pin : H.pinLevel = .high)
  /-- the pulse ISR (R186) -/
  | pulse (due : (s.gen g).pulse.deliverable = true)
      (eq : H = { s.gen g with pulse := { (s.gen g).pulse with latched := false, age := 0 }, pinLevel := .low })

/-- Only a full-cycle ISR makes a packet current (R212). -/
theorem exec_current (h : exec i s = .next t) (hi : i ≠ .irqFull g) (hc : (t.gen g).current ≠ .none) :
    (s.gen g).current ≠ .none := by
  have hu := exec_genUpdate h g
  generalize hH : t.gen g = H at hu hc
  cases hu with
  | same | acquire | fill | publish | arm | stop | pulse => exact hc
  | drain => exact absurd rfl hc
  | full _ _ command => exact absurd command hi
  | configure _ own =>
    obtain ⟨⟨pin, pool, rfl⟩, hp⟩ := own
    subst hH
    obtain ⟨-, ⟨-, he⟩ | ⟨hne, -⟩⟩ := execConfigure_next h
    · obtain ⟨-, rfl⟩ | ⟨-, -, ⟨-, rfl⟩ | ⟨-, rfl⟩⟩ := configureEntry_next he
      · cases g <;> exact hc
      · exact absurd (by cases g <;> rfl) hc
      · exact absurd (by cases g <;> rfl) hc
    · exact absurd hp hne

/-- The full-cycle ISR faults and changes no generator, or begins a cell of the bit it fetched (R185, R213). -/
theorem irqFull_waveChange (h : exec (.irqFull g) s = .next t) : WaveChange (.irqFull g) s g (t.gen g) := by
  obtain ⟨-, due, _, rfl, ⟨-, rfl⟩ | ⟨b, G, bit, rfl⟩⟩ := execIrqFull_next h
  · cases g <;> exact .kept (.refl _) id
  · rw [State.gen_modGen_same] at bit
    have hframe := getNextBit_frame bit
    rw [pinWrite_gen_same, State.gen_setGen_same]
    refine .full b due hframe.mode ?_ ?_ rfl
    · show timerAlarmWrite (fullPeriod b) true G.full = _
      rw [hframe.full]
      rfl
    · show timerAlarmEnable (timerWrite 0 (timerAlarmWrite (halfPeriod b) false G.pulse)) = _
      rw [hframe.pulse]
      rfl

theorem exec_waveChange (h : exec i s = .next t) (ht : TimerInv (s.gen g)) : WaveChange i s g (t.gen g) := by
  by_cases hi : i = .irqFull g
  · subst hi
    exact irqFull_waveChange h
  · cases exec_genChange h g with
    | kept hk => exact .kept hk (exec_current h hi)
    | arm boot position eq => exact .arm boot position eq
    | configure _ _ before after full pulse =>
      have hoff := ht.off (by simp [before])
      exact .off (by simp [after]) ⟨fun _ => by rwa [full, pulse], fun hm => absurd hm (by simp [after])⟩
    | stop _ _ _ eq =>
      rw [eq]
      exact .off nofun ⟨fun _ => ⟨timerShutdown_ended _, timerShutdown_ended _⟩, nofun⟩
    | full command => exact absurd command hi
    | pulse command eq =>
      subst command
      obtain ⟨-, due, -⟩ := execIrqPulse_next h
      exact .pulse due eq

/-- A running generator's timers after a full-cycle ISR are set for its bit. -/
theorem runningCell_of_full {b' : Bool} (h : RunningCell b' G) (hm : H.mode = G.mode)
    (hf : H.full = { G.full with alarm := fullPeriod b, autoreload := true, latched := false, age := 0 })
    (hp : H.pulse = { G.pulse with alarm := halfPeriod b, autoreload := false, counter := 0, alarmEn := true }) :
    RunningCell b H :=
  ⟨hm.trans h.mode, hf ▸ h.fullBegun, hf ▸ h.fullAttached, hf ▸ h.fullEnabled, hf ▸ rfl, hp ▸ h.pulseBegun, hp ▸ h.pulseAttached,
    hp ▸ rfl, hf ▸ rfl, hp ▸ rfl⟩

/-- Every change of a waveform keeps the timers' agreement with the mode (R194, R252). -/
theorem WaveChange.timers (hw : WaveChange i s g H) (ht : TimerInv (s.gen g)) : TimerInv H := by
  cases hw with
  | kept hk => exact ht.congr hk.mode hk.full hk.pulse
  | off _ timers => exact timers
  | arm _ _ eq => exact eq ▸ armTimers_inv g _
  | full b due mode full pulse =>
    obtain ⟨b', hcell⟩ := runningCell_of_timerInv ht (deliverable_running (k := .full) ht due)
    exact (runningCell_of_full hcell mode full pulse).timerInv
  | pulse due eq =>
    have hm := deliverable_running (k := .pulse) ht due
    subst eq
    exact ⟨fun hn => absurd hm hn, fun _ => ht.on hm⟩

/-! ### The bounded waits (R192, R360) -/

/-- A running generator's part of the latency invariant, for the bound `l`. -/
structure WaitsWithin (l : Nat) (G : GenState) : Prop where
  waited : G.full.latched = true → G.full.counter = G.full.age ∧ G.full.age ≤ l
  below : G.full.counter < G.full.alarm
  pulseWaited : G.pulse.latched = true →
    G.pulse.age ≤ l ∧ (G.pulse.alarmEn = true → G.pulse.counter ≤ G.pulse.age)
  pulseBelow : G.pulse.alarmEn = true → G.pulse.counter < G.pulse.alarm

theorem latencyInv_iff : LatencyInv s ↔ s.params.isrLatencyMax < Config.isrBudgetUs ∧
    ∀ g, TimerInv (s.gen g) ∧ ((s.gen g).mode = .running → WaitsWithin s.params.isrLatencyMax (s.gen g)) :=
  ⟨fun h => ⟨h.budget, fun g => ⟨h.timers g, fun hm => ⟨h.waited g hm, h.below g hm, h.pulseWaited g hm, h.pulseBelow g hm⟩⟩⟩,
    fun ⟨hb, h⟩ => ⟨hb, fun g => (h g).1, fun g hm => ((h g).2 hm).waited, fun g hm => ((h g).2 hm).below,
      fun g hm => ((h g).2 hm).pulseWaited, fun g hm => ((h g).2 hm).pulseBelow⟩⟩

theorem WaitsWithin.congr (h : WaitsWithin l G) (hf : H.full = G.full) (hp : H.pulse = G.pulse) : WaitsWithin l H :=
  ⟨by rw [hf]; exact h.waited, by rw [hf]; exact h.below, by rw [hp]; exact h.pulseWaited, by rw [hp]; exact h.pulseBelow⟩

/-- A full-cycle timer's waiting interrupt is younger than the period, so no alarm fires on it; one that latches in this tick has not waited. -/
theorem WaitsWithin.tick_full (h : WaitsWithin l G) (hc : RunningCell b G) (hl : l < Config.isrBudgetUs)
    (hdue : G.full.latched = true → G.full.age < l) :
    (G.tick.full.latched = true → G.tick.full.counter = G.tick.full.age ∧ G.tick.full.age ≤ l) ∧
      G.tick.full.counter < G.tick.full.alarm := by
  have hbelow := h.below
  have hperiod := fullPeriod_eq b
  have hhalf := budget_le_halfPeriod b
  rw [hc.fullAlarm] at hbelow
  by_cases hn : G.full.counter + 1 = fullPeriod b
  · have hnot : G.full.latched = false := by
      by_contra hlat
      rw [Bool.not_eq_false] at hlat
      have := h.waited hlat
      omega
    rw [hc.tick_full_fire hn]
    simp only [hnot, hc.fullAlarm]
    exact ⟨fun _ => ⟨rfl, Nat.zero_le _⟩, by omega⟩
  · rw [hc.tick_full_count hn]
    simp only [hc.fullAlarm]
    refine ⟨fun hlat => ?_, by omega⟩
    obtain ⟨hage, -⟩ := h.waited hlat
    have hlt := hdue hlat
    rw [if_pos hlat]
    omega

/-- A pulse interrupt that waits ages no further than the bound, and a re-armed pulse timer counts with it. -/
theorem WaitsWithin.tick_pulse (h : WaitsWithin l G) (hc : RunningCell b G) (hdue : G.pulse.latched = true → G.pulse.age < l) :
    (G.tick.pulse.latched = true →
      G.tick.pulse.age ≤ l ∧ (G.tick.pulse.alarmEn = true → G.tick.pulse.counter ≤ G.tick.pulse.age)) ∧
    (G.tick.pulse.alarmEn = true → G.tick.pulse.counter < G.tick.pulse.alarm) := by
  by_cases hn : G.pulse.alarmEn = true ∧ G.pulse.counter + 1 = halfPeriod b
  · rw [hc.tick_pulse_fire hn.1 hn.2]
    refine ⟨fun _ => ⟨?_, nofun⟩, nofun⟩
    dsimp only
    split
    case isTrue hlat => exact hdue hlat
    case isFalse => exact Nat.zero_le _
  · rw [hc.tick_pulse_count hn]
    simp only [hc.pulseAlarm]
    refine ⟨fun hlat => ?_, fun he => ?_⟩
    · obtain ⟨-, hcount⟩ := h.pulseWaited hlat
      rw [if_pos hlat]
      exact ⟨hdue hlat, fun he => Nat.succ_le_succ (hcount he)⟩
    · have hbelow := h.pulseBelow he
      have hne : G.pulse.counter + 1 ≠ halfPeriod b := fun hq => hn ⟨he, hq⟩
      rw [hc.pulseAlarm] at hbelow
      omega

theorem WaitsWithin.tick (h : WaitsWithin l G) (hc : RunningCell b G) (hl : l < Config.isrBudgetUs)
    (hfull : G.full.latched = true → G.full.age < l) (hpulse : G.pulse.latched = true → G.pulse.age < l) :
    WaitsWithin l G.tick := by
  obtain ⟨hw, hb⟩ := h.tick_full hc hl hfull
  obtain ⟨hpw, hpb⟩ := h.tick_pulse hc hpulse
  exact ⟨hw, hb, hpw, hpb⟩

/-- Every change of a waveform keeps the bounded waits: a new cell begins below its half-period, and an older pulse interrupt, still waiting,
is as old as before. -/
theorem WaveChange.waitsWithin (hw : WaveChange i s g H) (hl : l < Config.isrBudgetUs)
    (h : (s.gen g).mode = .running → WaitsWithin l (s.gen g)) (hm : H.mode = .running) : WaitsWithin l H := by
  cases hw with
  | kept hk => exact (h (hk.mode ▸ hm)).congr hk.full hk.pulse
  | off mode => exact absurd hm mode
  | arm _ _ eq =>
    subst eq
    exact ⟨nofun, (by decide : 0 < Config.t1Full), nofun, fun _ => (by decide : 0 < Config.t1Half)⟩
  | full b due mode full pulse =>
    have hbefore := h (mode ▸ hm)
    obtain ⟨hlat, -⟩ := deliverable_iff.1 due
    obtain ⟨hcount, hage⟩ := hbefore.waited hlat
    have hhalf := budget_le_halfPeriod b
    have hperiod := fullPeriod_eq b
    refine ⟨by rw [full]; nofun, ?_, fun hlat' => ?_, fun _ => ?_⟩
    · rw [full]
      show (s.gen g).full.counter < fullPeriod b
      omega
    · rw [pulse] at hlat' ⊢
      obtain ⟨hpage, -⟩ := hbefore.pulseWaited hlat'
      exact ⟨hpage, fun _ => Nat.zero_le _⟩
    · rw [pulse]
      exact halfPeriod_pos b
  | pulse due eq =>
    subst eq
    have hbefore := h hm
    exact ⟨hbefore.waited, hbefore.below, nofun, hbefore.pulseBelow⟩

/-- Where the clock moves, every interrupt of a running generator is younger than the bound (R192). -/
theorem clock_waits (h : (pickAgent s).1 = .clock) (hc : RunningCell b (s.gen g)) :
    ((s.gen g).full.latched = true → (s.gen g).full.age < s.params.isrLatencyMax) ∧
      ((s.gen g).pulse.latched = true → (s.gen g).pulse.age < s.params.isrLatencyMax) := by
  have hen := pickAgent_enabled s
  rw [h, enabled_clock_iff] at hen
  exact ⟨fun hl => hen .full g hl hc.fullAttached, fun hl => hen .pulse g hl hc.pulseAttached⟩

/-- Settles O20: the clock ticks only while every interrupt is younger than the bound, and every other step keeps the waits. -/
theorem stepKeepsLatencyBound : Obligations.StepKeepsLatencyBound := by
  intro s t hinv h
  obtain ⟨hparams, -⟩ := onlyClockAdvancesTime s t h
  obtain ⟨hl, hgen⟩ := latencyInv_iff.1 hinv
  refine latencyInv_iff.2 ⟨hparams ▸ hl, fun g => ?_⟩
  obtain ⟨ht, hw⟩ := hgen g
  rw [hparams]
  obtain ⟨ha, inp, rfl⟩ | ⟨-, i, u, he, hu, -, -⟩ := step_clock_or_exec h
  · rw [clockStep_gen]
    refine ⟨ht.tick, fun hm => ?_⟩
    obtain ⟨b, hc⟩ := runningCell_of_timerInv ht hm
    obtain ⟨hfull, hpulse⟩ := clock_waits ha hc
    exact (hw hm).tick hc hl hfull hpulse
  · rw [← hu] at ht hw
    have hchange := exec_waveChange he ht
    exact ⟨hchange.timers ht, hchange.waitsWithin hl hw⟩

/-! ### The cell under the ideal latency (R187, R188, R193) -/

/-- With no interrupt latched a running generator is in one half of its cell or the other. -/
theorem cellPhase_halves (h : CellPhase G) (hc : RunningCell b G) (hf : G.full.latched = false) (hp : G.pulse.latched = false) :
    (FirstHalfAt b G.full.counter G ∧ G.full.counter < halfPeriod b) ∨
      (SecondHalfAt b G.full.counter G ∧ halfPeriod b ≤ G.full.counter ∧ G.full.counter < fullPeriod b) := by
  cases h with
  | firstHalf armed noFull noPulse together before =>
    exact .inl ⟨⟨hc, armed, hf, hp, rfl, together⟩, hc.pulseAlarm ▸ before⟩
  | pulseDue _ _ pulse => rw [hp] at pulse; cases pulse
  | secondHalf unarmed _ _ after before =>
    exact .inr ⟨⟨hc, unarmed, hf, hp, rfl⟩, hc.pulseAlarm ▸ after, hc.fullAlarm ▸ before⟩
  | cellDue _ full => rw [hf] at full; cases full

theorem FirstHalfAt.cellPhase {n : Nat} (h : FirstHalfAt b n G) (hn : n < halfPeriod b) : CellPhase G := by
  obtain ⟨hc, armed, noFull, noPulse, rfl, hp⟩ := h
  exact .firstHalf armed noFull noPulse hp (hc.pulseAlarm.symm ▸ hn)

theorem SecondHalfAt.cellPhase {n : Nat} (h : SecondHalfAt b n G) (hlow : halfPeriod b ≤ n) (hn : n < fullPeriod b) : CellPhase G := by
  obtain ⟨hc, unarmed, noFull, noPulse, rfl⟩ := h
  exact .secondHalf unarmed noFull noPulse (hc.pulseAlarm.symm ▸ hlow) (hc.fullAlarm.symm ▸ hn)

/-- A tick in the first half counts or ends the half; the pulse alarm stays armed or its interrupt latches. -/
theorem FirstHalfAt.tick_phase {n : Nat} (h : FirstHalfAt b n G) (hn : n < halfPeriod b) :
    CellPhase G.tick ∧ (G.tick.pulse.alarmEn = true ∨ G.tick.pulse.latched = true) := by
  by_cases hlast : n + 1 = halfPeriod b
  · obtain ⟨unarmed, noFull, pulse, mid⟩ := h.tick_half hlast
    exact ⟨.pulseDue unarmed noFull pulse (mid.trans h.cell.tick.pulseAlarm.symm), .inr pulse⟩
  · have hnext := h.tick (by omega)
    exact ⟨hnext.cellPhase (by omega), .inl hnext.armed⟩

/-- A tick in the second half counts or ends the cell; the pulse timer stays unarmed with nothing latched. -/
theorem SecondHalfAt.tick_phase {n : Nat} (h : SecondHalfAt b n G) (hlow : halfPeriod b ≤ n) (hn : n < fullPeriod b) :
    CellPhase G.tick ∧ ¬ (G.tick.pulse.alarmEn = true ∨ G.tick.pulse.latched = true) := by
  by_cases hlast : n + 1 = fullPeriod b
  · obtain ⟨unarmed, full, noPulse, reloaded⟩ := h.tick_full hlast
    exact ⟨.cellDue unarmed full noPulse reloaded, by simp [unarmed, noPulse]⟩
  · have hnext := h.tick (by omega)
    exact ⟨hnext.cellPhase (by omega) (by omega), by simp [hnext.unarmed, hnext.noPulse]⟩

/-- A running generator's part of the ideal-latency invariant. -/
structure IdealCell (G : GenState) : Prop where
  cell : CellPhase G
  pin : PinInv G

theorem idealInv_iff : IdealInv s ↔ s.params.isrLatencyMax = 0 ∧
    ∀ g, TimerInv (s.gen g) ∧ ((s.gen g).mode = .running → IdealCell (s.gen g)) :=
  ⟨fun h => ⟨h.ideal, fun g => ⟨h.timers g, fun hm => ⟨h.cell g hm, h.pin g hm⟩⟩⟩,
    fun ⟨hl, h⟩ => ⟨hl, fun g => (h g).1, fun g hm => ((h g).2 hm).cell, fun g hm => ((h g).2 hm).pin⟩⟩

theorem cellPhase_congr (h : CellPhase G) (hf : H.full = G.full) (hp : H.pulse = G.pulse) : CellPhase H := by
  cases h with
  | firstHalf armed noFull noPulse together before =>
    exact .firstHalf (hp ▸ armed) (hf ▸ noFull) (hp ▸ noPulse) (by rw [hp, hf, together]) (by rwa [hp, hf])
  | pulseDue unarmed noFull pulse mid => exact .pulseDue (hp ▸ unarmed) (hf ▸ noFull) (hp ▸ pulse) (by rw [hp, hf, mid])
  | secondHalf unarmed noFull noPulse after before =>
    exact .secondHalf (hp ▸ unarmed) (hf ▸ noFull) (hp ▸ noPulse) (by rwa [hp, hf]) (by rwa [hf])
  | cellDue unarmed full noPulse reloaded =>
    exact .cellDue (hp ▸ unarmed) (hf ▸ full) (hp ▸ noPulse) (by rw [hf, reloaded])

/-- A latched full-cycle interrupt is at the end of a cell. -/
theorem cellPhase_full (h : CellPhase G) (hf : G.full.latched = true) : G.pulse.latched = false ∧ G.full.counter = 0 := by
  cases h with
  | cellDue _ _ noPulse reloaded => exact ⟨noPulse, reloaded⟩
  | firstHalf _ noFull | pulseDue _ noFull | secondHalf _ noFull => rw [hf] at noFull; cases noFull

/-- A latched pulse interrupt is in the middle of a cell. -/
theorem cellPhase_pulse (h : CellPhase G) (hp : G.pulse.latched = true) :
    G.pulse.alarmEn = false ∧ G.full.latched = false ∧ G.full.counter = G.pulse.alarm := by
  cases h with
  | pulseDue unarmed noFull _ mid => exact ⟨unarmed, noFull, mid⟩
  | firstHalf _ _ noPulse | secondHalf _ _ noPulse | cellDue _ _ noPulse => rw [hp] at noPulse; cases noPulse

theorem IdealCell.tick (h : IdealCell G) (hc : RunningCell b G) (hf : G.full.latched = false) (hp : G.pulse.latched = false) :
    IdealCell G.tick := by
  obtain ⟨hfirst, hn⟩ | ⟨hsecond, hlow, hn⟩ := cellPhase_halves h.cell hc hf hp
  · obtain ⟨hphase, hhigh⟩ := hfirst.tick_phase hn
    exact ⟨hphase, fun hcur => iff_of_true ((h.pin hcur).2 (.inl hfirst.armed)) hhigh⟩
  · obtain ⟨hphase, hpin⟩ := hsecond.tick_phase hlow hn
    have hnot : ¬ (G.pulse.alarmEn = true ∨ G.pulse.latched = true) := by simp [hsecond.unarmed, hp]
    exact ⟨hphase, fun hcur => iff_of_false (fun hhigh => hnot ((h.pin hcur).1 hhigh)) hpin⟩

/-- Every change of a waveform keeps the cell and the pin, if the arming step finds nothing playing: the full-cycle ISR begins the first
half with the pin HIGH, and the pulse ISR the second with the pin LOW. -/
theorem WaveChange.idealCell (hw : WaveChange i s g H) (ht : TimerInv (s.gen g))
    (h : (s.gen g).mode = .running → IdealCell (s.gen g))
    (hboot : isBoot i g → s.host.phase = .arm → (s.gen g).current = .none) (hm : H.mode = .running) : IdealCell H := by
  cases hw with
  | kept hk hcur =>
    obtain ⟨hcell, hpin⟩ := h (hk.mode ▸ hm)
    refine ⟨cellPhase_congr hcell hk.full hk.pulse, fun hc => ?_⟩
    rw [hk.pinLevel, hk.pulse]
    exact hpin (hcur hc)
  | off mode => exact absurd hm mode
  | arm boot position eq =>
    subst eq
    exact ⟨.firstHalf rfl rfl rfl rfl (by decide : 0 < Config.t1Half), fun hc => absurd (hboot boot position) hc⟩
  | full b due mode full pulse pin =>
    obtain ⟨hlat, -⟩ := deliverable_iff.1 due
    obtain ⟨b', hc⟩ := runningCell_of_timerInv ht (mode ▸ hm)
    obtain ⟨hnoPulse, hzero⟩ := cellPhase_full (h (mode ▸ hm)).cell hlat
    have hfirst : FirstHalfAt b 0 H :=
      ⟨runningCell_of_full hc mode full pulse, by rw [pulse], by rw [full], by rw [pulse]; exact hnoPulse,
        by rw [full]; exact hzero, by rw [pulse]⟩
    exact ⟨hfirst.cellPhase (halfPeriod_pos b), fun _ => iff_of_true pin (.inl hfirst.armed)⟩
  | pulse due eq =>
    subst eq
    obtain ⟨hlat, -⟩ := deliverable_iff.1 due
    obtain ⟨hunarmed, hnoFull, hmid⟩ := cellPhase_pulse (h hm).cell hlat
    refine ⟨.secondHalf hunarmed hnoFull rfl hmid.ge ?_, fun _ => iff_of_false nofun (by simp [hunarmed])⟩
    obtain ⟨b, hc⟩ := runningCell_of_timerInv ht hm
    have hhalf := halfPeriod_pos b
    show (s.gen g).full.counter < (s.gen g).full.alarm
    rw [hmid, hc.pulseAlarm, hc.fullAlarm, fullPeriod_eq]
    omega

/-- At START's arming step, also inside CONFIGURE, the generator is Idle and plays nothing (R28, R241). -/
theorem arm_current (h : Pre s) (hboot : isBoot i g) (hp : s.host.phase = .arm) (hpos : commandPosition s i = true) :
    (s.gen g).current = .none := by
  have hidle : (s.gen g).mode = .idle := by
    obtain rfl | ⟨pin, pool, rfl⟩ := hboot <;> simpa [commandPosition, hp, startPhase] using hpos
  by_contra hc
  obtain ⟨hdrain, -⟩ := h.rest g (by simp [hidle]) hc
  rw [hp] at hdrain
  cases hdrain

/-- A step of a block that meets the invariant is the clock's, or an instruction's with the same generators, which arms timers only where
nothing plays. -/
theorem step_clock_or_exec_idle (h : Inv s) (hs : step s = .next t) :
    ((pickAgent s).1 = .clock ∧ ∃ inp, t = clockStep { s with inputs := inp }) ∨
    ∃ i u, exec i u = .next t ∧ u.gen = s.gen ∧ ∀ g, isBoot i g → u.host.phase = .arm → (u.gen g).current = .none := by
  obtain ⟨hf, hr⟩ := step_next hs
  have hen := pickAgent_snd_enabled s
  obtain ⟨l, d, p, w, hpick⟩ := pickAgent_snd s
  have hgen : (pickAgent s).2.gen = s.gen := by rw [hpick]; rfl
  cases ha : (pickAgent s).1 with
  | clock =>
    rw [ha, hpick] at hr
    exact .inl ⟨rfl, _, (next_inj.1 hr).symm⟩
  | isr k g =>
    rw [ha] at hr
    refine .inr ⟨_, _, hr, hgen, fun g' hboot => ?_⟩
    obtain hi | ⟨pin, pool, hi⟩ := hboot <;> cases k <;> cases hi
  | host =>
    rw [ha] at hr hen
    obtain ⟨w, u, -, -, hpre, hu, -, hpos, hrun⟩ := host_step (pickAgent_inv h) hf hen
    refine .inr ⟨_, u, hrun ▸ hr, hu.trans hgen, fun g hboot harm => ?_⟩
    obtain hentry | ⟨hpos, -⟩ := hpos
    · rw [harm] at hentry
      cases hentry
    · exact arm_current hpre hboot harm hpos

/-- Under the ideal latency the clock moves only while no interrupt of a running generator is latched (R192). -/
theorem clock_unlatched (hl : s.params.isrLatencyMax = 0) (h : (pickAgent s).1 = .clock) (hc : RunningCell b (s.gen g)) :
    (s.gen g).full.latched = false ∧ (s.gen g).pulse.latched = false := by
  obtain ⟨hfull, hpulse⟩ := clock_waits h hc
  rw [hl] at hfull hpulse
  exact ⟨Bool.eq_false_iff.2 fun hlat => absurd (hfull hlat) (Nat.not_lt_zero _),
    Bool.eq_false_iff.2 fun hlat => absurd (hpulse hlat) (Nat.not_lt_zero _)⟩

/-- In no phase of a cell are both interrupts latched, and an ended timer has none. -/
theorem idealInv_exclusive (h : IdealInv s) (g : Gen) : ¬ ((s.gen g).full.latched = true ∧ (s.gen g).pulse.latched = true) := by
  rintro ⟨hf, hp⟩
  by_cases hm : (s.gen g).mode = .running
  · obtain ⟨hnoPulse, -⟩ := cellPhase_full (h.cell g hm) hf
    rw [hp] at hnoPulse
    cases hnoPulse
  · obtain ⟨hended, -⟩ := (h.timers g).off hm
    obtain ⟨-, -, -, hnoFull⟩ := ended_iff.1 hended
    rw [hf] at hnoFull
    cases hnoFull

/-- Settles O19: with nothing latched the clock moves each generator along its cell, and every other step keeps the cell and the pin. -/
theorem stepKeepsIdealCells : Obligations.StepKeepsIdealCells := by
  refine ⟨fun s t h hideal hs => ?_, fun s h => idealInv_exclusive h⟩
  obtain ⟨hparams, -⟩ := onlyClockAdvancesTime s t hs
  obtain ⟨hl, hgen⟩ := idealInv_iff.1 hideal
  refine idealInv_iff.2 ⟨hparams ▸ hl, fun g => ?_⟩
  obtain ⟨ht, hw⟩ := hgen g
  obtain ⟨ha, inp, rfl⟩ | ⟨i, u, he, hu, hboot⟩ := step_clock_or_exec_idle h hs
  · rw [clockStep_gen]
    refine ⟨ht.tick, fun hm => ?_⟩
    obtain ⟨b, hc⟩ := runningCell_of_timerInv ht hm
    obtain ⟨hfull, hpulse⟩ := clock_unlatched hl ha hc
    exact (hw hm).tick hc hfull hpulse
  · rw [← hu] at ht hw
    have hchange := exec_waveChange he ht
    exact ⟨hchange.timers ht, hchange.idealCell ht hw (hboot g)⟩

end Sys2Proof.Proofs
end

section
/-! PROOFS. The steps of the interrupts, the clock and STOP as they run (R183, R190, R249): the full-cycle ISR forwards (R185), and which
agent's step a step of the block is. -/

namespace Sys2Proof.Proofs

open Sys2Proof Sys2Proof.Machine

variable {s s1 : State} {g : Gen} {G : GenState} {b : Bool}

/-! ### The agent's step (R11) -/

theorem step_of_pick {a : Agent} (hf : s.faulted = none) (hp : pickAgent s = (a, s1)) : step s = runAgent a s1 := by
  rw [step, hf]
  dsimp only
  rw [hp]

/-- Settles O11: the step is the chosen agent's, and the clock's is one tick of each timer. -/
theorem stepRunsInterruptOrClock : Obligations.StepRunsInterruptOrClock := fun _ _ hf =>
  ⟨fun _ hp => step_of_pick hf hp, fun _ hp => step_of_pick hf hp, fun hp => step_of_pick hf hp, rfl⟩

/-! ### The full-cycle ISR (R185, R210) -/

/-- A latched and attached interrupt whose cursor has a bit to give begins a cell of that bit. -/
theorem exec_irqFull_bit (hf : s.faulted = none) (hd : (s.gen g).full.deliverable = true)
    (bit : getNextBit (s.gen g) = some (b, G)) :
    exec (.irqFull g) s =
      .next (pinWrite g .high (s.setGen g (armCell b (G.withFull { (s.gen g).full with latched := false, age := 0 })))) := by
  have htake := takeInterrupt_some (k := .full).2 ⟨hd, rfl⟩
  have hbit := getNextBit_withFull (s.gen g) { (s.gen g).full with latched := false, age := 0 }
  rw [bit] at hbit
  have hgen : (s.modGen g fun G => G.setTimer .full { G.timer .full with latched := false, age := 0 }).gen g =
      (s.gen g).withFull { (s.gen g).full with latched := false, age := 0 } := State.gen_modGen_same ..
  rw [exec, execIrqFull, unlessFaulted_none hf, htake]
  dsimp only
  rw [hgen, hbit, ← setGen_modGen]
  rfl

/-- Settles O32: under the invariants the cursor has a bit to give, and writes neither timer. -/
theorem fullCycleIsrBeginsCell : Obligations.FullCycleIsrBeginsCell := by
  intro g s hf hpool hpackets hm hl ha
  obtain ⟨b, G, bit, -⟩ := getNextBit_ok ⟨hpool, hpackets⟩ hm
  have hpulse : G.pulse = (s.gen g).pulse := (getNextBit_frame bit).pulse
  refine ⟨_, b, G, exec_irqFull_bit hf (deliverable_iff.2 ⟨hl, ha⟩) bit, bit, ?_⟩
  rw [pinWrite_gen_same, State.gen_setGen_same, pinWrite_trace, State.setGen_trace, State.setGen_now, ← hpulse]
  exact ⟨rfl, rfl, rfl, rfl, rfl, rfl, rfl, rfl, rfl⟩

/-! ### STOP's first step (R249) -/

theorem exec_stop_entry (hf : s.faulted = none) (hp : s.host.phase = .entry) (hm : (s.gen g).mode ≠ .unconfigured) :
    exec (.stop g) s = .next (stopped g s) := by
  rw [exec, execStop, unlessFaulted_none hf, hp]
  exact if_neg hm

/-- It shuts down both timers of its own generator and makes it Idle, and leaves the rest of both generators. -/
theorem stopped_gen (g h : Gen) (s : State) : (stopped g s).gen h = if h = g then { s.gen g with
    full := timerShutdown (s.gen g).full, pulse := timerShutdown (s.gen g).pulse, mode := .idle } else s.gen h := by
  rw [stopped, delay_gen, State.setPhase_gen, State.gen_modGen]

/-- Settles O49: a shut-down timer has ended, and STOP waits 250000 µs before its drain. -/
theorem stopEndsTimersThenWaits : Obligations.StopEndsTimersThenWaits := by
  intro g s hf hp hm
  refine ⟨_, exec_stop_entry hf hp hm, ?_⟩
  rw [stopped_gen, stopped_gen, if_pos rfl, if_neg (Gen.other_ne g)]
  refine ⟨rfl, timerShutdown_ended _, timerShutdown_ended _, ?_, rfl, ?_, rfl, rfl, rfl, rfl, rfl, rfl, rfl, ?_, rfl⟩
  · rw [stopped, delay_wakeAt, State.setPhase_now, State.modGen_now, Config.stopWaitUs]
  · simp [stopped]
  · simp [stopped]

end Sys2Proof.Proofs
end

section
/-! PROOFS. The bit cursor under the invariant, and along a packet: no step overruns (R213, R214), and a packet with `r` repeats makes `r + 1`
passes (R216). A call that takes a packet, or begins a pass, plays as the same call does with the cursor already at 0; so the passes are proved
on a generator in mid-pass alone. -/

namespace Sys2Proof.Proofs

open Sys2Proof Sys2Proof.Machine

/-! ### No step overruns (R214) -/

/-- The host is never at an ISR: its instruction is a command or a frame (R183, R331). -/
theorem hostInstr_ne_irqFull (h : HostState) (w : CommandWord) (g : Gen) : hostInstr h w ≠ .irqFull g := by
  intro hi
  obtain hword | ⟨b, hb⟩ := hostInstr_word_or_frame h w
  · exact (decodeWord_host w).1 g (hword.symm.trans hi)
  · rw [hi] at hb
    cases hb

/-- Settles O22: the full-cycle ISR alone can overrun, and under the invariant its cursor has a bit to give. -/
theorem cursorNeverOverruns : Obligations.CursorNeverOverruns := by
  intro s t h _ hs hr
  obtain ⟨hf, inp, -, ⟨-, -, rfl⟩ | ⟨k, g, -, -, he⟩ | ⟨w, ws, -, -, -, he⟩ | ⟨w, -, -, he⟩⟩ := step_cases hs
  case inl =>
    rw [clockStep_faulted, hf] at hr
    cases hr
  case inr.inl =>
    cases k with
    | full =>
      rw [(full_inv (h.inputs inp) he).2] at hr
      cases hr
    | pulse =>
      obtain ⟨g', hi⟩ : ∃ g', decodeInterrupt .pulse g = .irqFull g' := exec_raises he hr
      cases hi
  case inr.inr.inl =>
    obtain ⟨g, hi⟩ : ∃ g, decodeWord w = .irqFull g := exec_raises he hr
    exact (decodeWord_host w).1 g hi
  case inr.inr.inr =>
    obtain ⟨g, hi⟩ : ∃ g, hostInstr s.host w = .irqFull g := exec_raises he hr
    exact hostInstr_ne_irqFull _ w g hi

/-! ### Successive bits -/

theorem memory_write_read {m : Memory} {i : Nat} {p : Packet} (h : m.read i = some p) : m.write i p = m := by
  obtain ⟨hi, rfl⟩ := List.getElem?_eq_some_iff.1 h
  exact List.set_getElem_self hi

section
variable {G H : GenState} {i n : Nat} {p : Packet}

theorem nextBits_cons {b : Bool} (h : getNextBit G = some (b, H)) :
    nextBits (n + 1) G = (nextBits n H).map fun r => (b :: r.1, r.2) := by
  rw [nextBits, h]
  dsimp only
  cases nextBits n H <;> rfl

theorem nextBits_add {K : GenState} {m : Nat} {as bs : List Bool} (h : nextBits m G = some (as, H)) (k : nextBits n H = some (bs, K)) :
    nextBits (m + n) G = some (as ++ bs, K) := by
  induction m generalizing G as with
  | zero =>
    cases h
    rw [Nat.zero_add]
    exact k
  | succ m ih =>
    rw [Nat.succ_add]
    cases hg : getNextBit G with
    | none => rw [nextBits, hg] at h; cases h
    | some r =>
      rw [nextBits_cons hg, Option.map_eq_some_iff] at h
      obtain ⟨⟨cs, H'⟩, hm, he⟩ := h
      cases he
      rw [nextBits_cons hg, ih hm]
      rfl

/-- Any number of bits but none depends on the first call alone. -/
theorem nextBits_congr (hn : 0 < n) (h : getNextBit G = getNextBit H) : nextBits n G = nextBits n H := by
  obtain ⟨m, rfl⟩ := Nat.exists_eq_add_one.2 hn
  rw [nextBits, nextBits, h]

/-! ### Passes of one packet (R211, R213, R216) -/

/-- The generator with packet `p` in slot `i`, which plays. -/
def playing (G : GenState) (i : Nat) (p : Packet) : GenState := { G with current := .slot i, slots := G.slots.write i p }

/-- A call that comes to a packet in mid-pass plays as the same call does from there. -/
theorem getNextBit_selected (h : selectPacket (closePass G) = H) (hp : H.currentPacket = some p) (hlt : p.currentBit < p.numBits) :
    getNextBit G = getNextBit H := by
  have hplay : H.current ≠ .none := fun hc => by
    rw [currentPacket_none hc] at hp
    cases hp
  rw [getNextBit, h, getNextBit_playing (closePass_midPass hp hlt) hplay]

section
variable {o : Packet} (ho : G.slots.read i = some o)
include ho

theorem playing_currentPacket (p : Packet) : (playing G i p).currentPacket = some p :=
  (currentPacket_slot rfl).trans (Memory.read_write_same ho)

theorem getNextBit_midPass (hlt : p.currentBit < p.numBits) (hn : p.numBits.toNat ≤ 80) :
    getNextBit (playing G i p) =
      some (bufBit p.buffer p.currentBit.toNat, playing G i { p with currentBit := p.currentBit + 1 }) := by
  obtain ⟨hmid, -⟩ := arbiterPlaysRepeatThenPendingThenIdle (playing G i p)
  rw [hmid i p rfl (Memory.read_write_same ho) hlt hn]
  simp only [playing, memory_write_write]

/-- At the end of a pass with repeats left a call plays as at the start of the next pass. -/
theorem getNextBit_endOfPass (he : p.currentBit = p.numBits) (hpos : 0 < p.numBits) (hrep : 0 < p.repeats) :
    getNextBit (playing G i p) = getNextBit (playing G i { p with repeats := p.repeats - 1, currentBit := 0 }) := by
  have hclose := closePass_repeat_slot (G := playing G i p) rfl (Memory.read_write_same ho) he hrep
  refine getNextBit_selected ?_ (playing_currentPacket ho _) hpos
  rw [hclose, selectPacket_playing (by nofun)]
  simp only [playing, memory_write_write]

/-- The rest of a pass: the stored bits from the cursor on, in index order (R213). -/
theorem nextBits_restOfPass (hn : p.numBits.toNat ≤ 80) (h : p.currentBit.toNat + n = p.numBits.toNat) :
    nextBits n (playing G i p) =
      some ((List.range' p.currentBit.toNat n).map (bufBit p.buffer), playing G i { p with currentBit := p.numBits }) := by
  induction n generalizing p with
  | zero =>
    have he : p.numBits = p.currentBit := BitVec.eq_of_toNat_eq h.symm
    rw [nextBits, he]
    cases p
    cases he
    rfl
  | succ n ih =>
    have hlt : p.currentBit < p.numBits := BitVec.lt_def.2 (by omega)
    have hsucc : (p.currentBit + 1).toNat = p.currentBit.toNat + 1 := by bv_omega
    have hrest := ih (p := { p with currentBit := p.currentBit + 1 }) hn (by dsimp only; omega)
    rw [nextBits_cons (getNextBit_midPass ho hlt hn), hrest]
    dsimp only
    rw [hsucc]
    rfl

/-- A whole pass: every stored bit, in index order (R211, R213). -/
theorem nextBits_pass (h0 : p.currentBit = 0) (hn : p.numBits.toNat ≤ 80) :
    nextBits p.numBits.toNat (playing G i p) =
      some ((List.range p.numBits.toNat).map (bufBit p.buffer), playing G i { p with currentBit := p.numBits }) := by
  rw [nextBits_restOfPass ho hn (by simp [h0]), h0, List.range_eq_range']
  rfl

/-- A packet with `r` repeats at the start of a pass makes `r + 1` passes and rests at the end of the last (R216). -/
theorem nextBits_passes {r : Nat} (hrep : p.repeats.toNat = r) (h0 : p.currentBit = 0) (hpos : 0 < p.numBits)
    (hn : p.numBits.toNat ≤ 80) :
    nextBits (p.numBits.toNat * (r + 1)) (playing G i p) =
      some ((List.replicate (r + 1) ((List.range p.numBits.toNat).map (bufBit p.buffer))).flatten,
        playing G i { p with currentBit := p.numBits, repeats := 0 }) := by
  induction r generalizing p with
  | zero =>
    have hlast : p.repeats = 0 := BitVec.eq_of_toNat_eq hrep
    rw [← hlast, Nat.zero_add, Nat.mul_one, nextBits_pass ho h0 hn]
    simp
  | succ r ih =>
    have hmore : 0 < p.repeats := BitVec.lt_def.2 (by rw [hrep]; exact r.succ_pos)
    have hleft : (p.repeats - 1).toNat = r := by bv_omega
    have hbits : 0 < p.numBits.toNat * (r + 1) := Nat.mul_pos (BitVec.lt_def.1 hpos) r.succ_pos
    have hrest := ih (p := { p with repeats := p.repeats - 1, currentBit := 0 }) hleft rfl hpos hn
    rw [← nextBits_congr hbits (getNextBit_endOfPass (p := { p with currentBit := p.numBits }) ho rfl hpos hmore)] at hrest
    rw [Nat.mul_succ, Nat.add_comm]
    exact nextBits_add (nextBits_pass ho h0 hn) hrest

end

/-! ### A packet boundary (R211, R212) -/

/-- Nothing plays, or the idle singleton or a slot is at the end of its last pass. -/
def AtBoundary (G : GenState) : Prop :=
  G.current = .none ∨ G.current = .idlePkt ∧ G.idle.currentBit = G.idle.numBits ∧ G.idle.repeats = 0 ∨
    ∃ k q, G.current = .slot k ∧ G.slots.read k = some q ∧ q.currentBit = q.numBits ∧ q.repeats = 0

/-- The generator with the slot that played given back, and `rest` still to play. -/
def handedOver (G : GenState) (rest : List Nat) : GenState := { G with free := G.free ++ G.current.slotIndices, pending := rest }

/-- At a boundary step 1 leaves nothing playing and gives back the slot that played, if one did. -/
theorem closePass_boundary (h : AtBoundary G) :
    closePass G = { G with free := G.free ++ G.current.slotIndices, current := .none } := by
  obtain hc | ⟨hc, hend⟩ | ⟨k, q, hc, hr, he, h0⟩ := h
  · rw [closePass_no_slot (.inl hc), hc]
    simp [Current.slotIndices]
  · rw [closePass_no_slot (.inr ⟨hc, hend⟩), hc]
    simp [Current.slotIndices]
  · rw [closePass_release_slot hc hr he h0, hc]
    rfl

/-- At a boundary the first call comes to the head of `pending` (R157). -/
theorem selectPacket_closePass_boundary {rest : List Nat} (h : AtBoundary G) (hp : G.pending = i :: rest) (hr : G.slots.read i = some p) :
    selectPacket (closePass G) = playing (handedOver G rest) i p := by
  rw [closePass_boundary h]
  refine (selectPacket_dequeue (G := { G with free := _, current := .none }) rfl hp).trans ?_
  simp only [playing, handedOver, memory_write_read hr]

end

/-- Settles O36: at the boundary the first call takes the packet, and plays as with the packet taken already; then the passes follow. -/
theorem packetMakesRepeatsPlusOnePasses : Obligations.PacketMakesRepeatsPlusOnePasses := by
  intro G i rest p hb hp hr h0 hpos hn
  have hread := Memory.read_write_same (p := { p with currentBit := p.numBits, repeats := 0 }) hr
  have hclose := closePass_release_slot (G := playing (handedOver G rest) i { p with currentBit := p.numBits, repeats := 0 })
    rfl hread rfl rfl
  have hfirst : getNextBit G = getNextBit (playing (handedOver G rest) i p) :=
    getNextBit_selected (selectPacket_closePass_boundary hb hp hr) (playing_currentPacket hr p) (h0 ▸ hpos)
  have hbits : 0 < p.numBits.toNat * (p.repeats.toNat + 1) := Nat.mul_pos (BitVec.lt_def.1 hpos) (Nat.succ_pos _)
  refine ⟨_, ?_, rfl, hread, rfl, rfl, congrArg GenState.free hclose, congrArg GenState.current hclose⟩
  rw [nextBits_congr hbits hfirst]
  exact nextBits_passes (G := handedOver G rest) hr rfl h0 hpos hn

end Sys2Proof.Proofs
end

section
/-! PROOFS. The generator controller as it runs: CONFIGURE's own step (R231, R233), the nine steps from START's first load to its answer, which
START and CONFIGURE share (R240, R241), and STOP's drain (R250). -/

namespace Sys2Proof.Proofs

open Sys2Proof Sys2Proof.Machine

variable {s t : State} {i : Instr} {g : Gen}

/-! ### The setup draws (R233) -/

theorem drawGpioOk_cons {x : Bool} {xs : List Bool} (h : s.inputs.gpioOk = x :: xs) :
    drawGpioOk s = (x, { s with inputs := { s.inputs with gpioOk := xs } }) := by
  rw [drawGpioOk, h]
  rfl

theorem drawTimerOk_cons {x : Bool} {xs : List Bool} (h : s.inputs.timerOk = x :: xs) :
    drawTimerOk s = (x, { s with inputs := { s.inputs with timerOk := xs } }) := by
  rw [drawTimerOk, h]
  rfl

/-! ### START's own steps (R240, R241) -/

theorem startEntry_idle (hm : (s.gen g).mode = .idle) : startEntry g s = .next (s.setPhase (.load .bootReset .entry)) := by
  simp [startEntry, hm]

theorem exec_start_entry (hf : s.faulted = none) (hp : s.host.phase = .entry) (hm : (s.gen g).mode = .idle) :
    exec (.start g) s = .next (s.setPhase (.load .bootReset .entry)) := by
  rw [exec, execStart, unlessFaulted_none hf, hp]
  exact startEntry_idle hm

/-- The arming step of START, and of CONFIGURE, is decided by the setup draw (R233). -/
theorem exec_boot_arm (hb : isBoot i g) (hf : s.faulted = none) (hp : s.host.phase = .arm) {ok : Bool} {rest : List Bool}
    (hd : s.inputs.timerOk = ok :: rest) :
    exec i s = .next (if ok then respond .ok 0 ({ s with inputs := { s.inputs with timerOk := rest } }.modGen g (armTimers g))
      else respond .hardwareSetupFailure 0 { s with inputs := { s.inputs with timerOk := rest } }) := by
  have harm : exec i s = startArm g s := by
    obtain rfl | ⟨pin, pool, rfl⟩ := hb
    · rw [exec, execStart, unlessFaulted_none hf, hp]
      simp only [startSteps, hp]
    · rw [exec, execConfigure, unlessFaulted_none hf, hp]
      simp only [startSteps, hp]
  rw [harm, startArm, drawTimerOk_cons hd]

/-- Settles O48: a false draw ends the arming step with its input used up and nothing else done. -/
theorem startReportsTimerFailure : Obligations.StartReportsTimerFailure :=
  fun _ _ _ hf hp hd => exec_boot_arm (.inl rfl) hf hp hd

/-! ### A boot load (R125 to R128, R240) -/

/-- What a load leaves of its generator: the slot at the head of `free` holds the packet and stands at the tail of `pending`. -/
def queueSlot (j : Nat) (rest : List Nat) (q : Packet) (G : GenState) : GenState :=
  { G with free := rest, pending := G.pending ++ [j], filling := none, slots := G.slots.write j q }

/-- The host and the generator after a load from its entry to its publication. -/
def queued (g : Gen) (payload : List Byte) (repeats : BitVec 8) (j : Nat) (rest : List Nat) (p : Packet) (next : HostPhase)
    (s : State) : State :=
  { s.modGen g (queueSlot j rest (fillPacket p (frameOf payload) repeats)) with
    host := { s.host with load := { gen := g, frame := frameOf payload, repeats := repeats }, phase := next } }

theorem queued_gen (payload : List Byte) (r : BitVec 8) (j : Nat) (rest : List Nat) (p : Packet) (next : HostPhase) (s : State) :
    (queued g payload r j rest p next s).gen g = queueSlot j rest (fillPacket p (frameOf payload) r) (s.gen g) := by
  cases g <;> rfl

theorem queued_faulted (payload : List Byte) (r : BitVec 8) (j : Nat) (rest : List Nat) (p : Packet) (next : HostPhase) (s : State) :
    (queued g payload r j rest p next s).faulted = s.faulted := State.modGen_faulted ..

theorem queued_inputs (payload : List Byte) (r : BitVec 8) (j : Nat) (rest : List Nat) (p : Packet) (next : HostPhase) (s : State) :
    (queued g payload r j rest p next s).inputs = s.inputs := State.modGen_inputs ..

theorem loaded_beginLoad (g : Gen) (payload : List Byte) (r : BitVec 8) (site : LoadSite) (j : Nat) (rest : List Nat) (p : Packet)
    (next : HostPhase) (s : State) :
    (loaded site j rest p (beginLoad g payload r site s)).setPhase next = queued g payload r j rest p next s := by
  cases g <;> rfl

theorem hostSteps_add {m : Nat} (h : hostSteps i m s = .next t) (n : Nat) : hostSteps i (m + n) s = hostSteps i n t := by
  induction m generalizing s with
  | zero =>
    rw [hostSteps, next_inj] at h
    rw [Nat.zero_add, h]
  | succ m ih =>
    rw [Nat.add_right_comm]
    rw [hostSteps] at h ⊢
    cases he : exec i s with
    | next u => rw [he] at h; exact ih h
    | fault r => rw [he] at h; cases h
    | refused r => rw [he] at h; cases h

theorem loadEntry_legal {n : Nat} (hm : (s.gen g).mode ≠ .unconfigured) (hl : lenLegal n = true) (payload : List Byte) (r : BitVec 8)
    (site : LoadSite) : loadEntry g n payload r site s = .next (beginLoad g payload r site s) := by
  rw [loadEntry, if_neg hm, if_pos hl]

/-- A load whose entry step has been taken, and whose command goes on to `next` after it, takes four host steps in all. -/
theorem hostSteps_load_from_entry {site : LoadSite} (hl : loadsAt i site) (hf : s.faulted = none) {payload : List Byte} {r : BitVec 8}
    (hentry : exec i s = .next (beginLoad g payload r site s)) {j : Nat} {rest : List Nat} (hfree : (s.gen g).free = j :: rest)
    {p : Packet} (hr : (s.gen g).slots.read j = some p) {next : HostPhase}
    (hnext : ∀ u, afterPublish site u = .next (u.setPhase next)) :
    hostSteps i 4 s = .next (queued g payload r j rest p next s) := by
  rw [hostSteps_succ hentry, ← loaded_beginLoad (site := site)]
  exact hostSteps_load hl hf rfl (by simpa using hfree) (by simpa using hr) (hnext _)

theorem exec_bootReset_entry (hb : isBoot i g) (hf : s.faulted = none) (hp : s.host.phase = .load .bootReset .entry)
    (hm : (s.gen g).mode ≠ .unconfigured) : exec i s = .next (beginLoad g resetPayload 20 .bootReset s) := by
  rw [exec_boot_load hb hf hp, startSteps, hp]
  exact loadEntry_legal hm rfl ..

theorem exec_bootIdle_entry (hb : isBoot i g) (hf : s.faulted = none) (hp : s.host.phase = .load .bootIdle .entry)
    (hm : (s.gen g).mode ≠ .unconfigured) : exec i s = .next (beginLoad g idlePayload 10 .bootIdle s) := by
  rw [exec_boot_load hb hf hp, startSteps, hp]
  exact loadEntry_legal hm rfl ..

/-! ### From the first load to the answer (R240, R241) -/

/-- What START makes of its generator with slots `j` and `k`, which held `p` and `q`: the boot packets pending and the timers armed. -/
def bootGen (g : Gen) (j k : Nat) (rest : List Nat) (p q : Packet) (G : GenState) : GenState :=
  armTimers g (queueSlot k rest (fillPacket q idleFrame 10) (queueSlot j (k :: rest) (fillPacket p resetFrame 20) G))

/-- The block after START, one true timer draw used up. -/
def booted (g : Gen) (j k : Nat) (rest : List Nat) (p q : Packet) (draws : List Bool) (s : State) : State :=
  respond .ok 0 { s.modGen g (bootGen g j k rest p q) with
    host := { s.host with load := { gen := g, frame := idleFrame, repeats := 10 } }
    inputs := { s.inputs with timerOk := draws } }

theorem booted_gen (j k : Nat) (rest : List Nat) (p q : Packet) (draws : List Bool) (s : State) :
    (booted g j k rest p q draws s).gen g = bootGen g j k rest p q (s.gen g) := by
  cases g <;> rfl

theorem booted_gen_other (j k : Nat) (rest : List Nat) (p q : Packet) (draws : List Bool) (s : State) :
    (booted g j k rest p q draws s).gen g.other = s.gen g.other := by
  cases g <;> rfl

theorem booted_trace (j k : Nat) (rest : List Nat) (p q : Packet) (draws : List Bool) (s : State) :
    (booted g j k rest p q draws s).trace = s.trace := State.modGen_trace ..

theorem booted_now (j k : Nat) (rest : List Nat) (p q : Packet) (draws : List Bool) (s : State) :
    (booted g j k rest p q draws s).now = s.now := State.modGen_now ..

/-- With two free slots and a true timer draw, START's two loads and its arming step take nine host steps. -/
theorem hostSteps_boot (hb : isBoot i g) (hf : s.faulted = none) (hp : s.host.phase = .load .bootReset .entry)
    (hm : (s.gen g).mode ≠ .unconfigured) {j k : Nat} {rest : List Nat} (hfree : (s.gen g).free = j :: k :: rest) (hjk : j ≠ k)
    {p q : Packet} (hj : (s.gen g).slots.read j = some p) (hk : (s.gen g).slots.read k = some q) {draws : List Bool}
    (hd : s.inputs.timerOk = true :: draws) :
    hostSteps i 9 s = .next (booted g j k rest p q draws s) := by
  set u := queued g resetPayload 20 j (k :: rest) p (.load .bootIdle .entry) s
  set v := queued g idlePayload 10 k rest q .arm u
  have hgen : u.gen g = queueSlot j (k :: rest) (fillPacket p resetFrame 20) (s.gen g) := queued_gen ..
  have hfu : u.faulted = none := (queued_faulted ..).trans hf
  have hfv : v.faulted = none := (queued_faulted ..).trans hfu
  have hmu : (u.gen g).mode ≠ .unconfigured := by rwa [hgen]
  have hku : (u.gen g).slots.read k = some q := by
    rw [hgen]
    exact (Memory.read_write_ne _ hjk.symm).trans hk
  have hdv : v.inputs.timerOk = true :: draws := by rw [queued_inputs, queued_inputs, hd]
  have hreset : hostSteps i 4 s = .next u :=
    hostSteps_load_from_entry (site := .bootReset) ⟨g, hb⟩ hf (exec_bootReset_entry hb hf hp hm) hfree hj fun _ => rfl
  have hidle : hostSteps i 4 u = .next v :=
    hostSteps_load_from_entry (site := .bootIdle) ⟨g, hb⟩ hfu (exec_bootIdle_entry hb hfu rfl hmu) (congrArg GenState.free hgen) hku
      fun _ => rfl
  rw [hostSteps_add (m := 4) hreset 5, hostSteps_add (m := 4) hidle 1, hostSteps_succ (exec_boot_arm hb hfv rfl hdv), hostSteps,
    next_inj]
  cases g <;> rfl

/-- Settles O47: START's entry step, then the nine from its first load to its answer. -/
theorem startLoadsBootPacketsAndArms : Obligations.StartLoadsBootPacketsAndArms := by
  intro g s j k rest p q b hf hp hm hfree hjk hj hk hd
  have hm' : (s.gen g).mode ≠ .unconfigured := by rw [hm]; decide
  set u := s.setPhase (.load .bootReset .entry)
  have hgen : u.gen g = s.gen g := State.setPhase_gen ..
  have hboot := hostSteps_boot (i := .start g) (.inl rfl) (s := u) hf rfl (by rwa [hgen]) (by rwa [hgen]) hjk (by rwa [hgen])
    (by rwa [hgen]) hd
  refine ⟨u, _, exec_start_entry hf hp hm, hboot, ?_⟩
  rw [booted_gen, booted_gen_other, hgen, booted_trace, booted_now]
  have hpending : (s.gen g).pending ++ [j] ++ [k] = (s.gen g).pending ++ [j, k] := List.append_assoc ..
  exact ⟨rfl, rfl, hpending, rfl, rfl, fun kind => by cases kind <;> exact ⟨rfl, rfl, rfl, rfl, rfl⟩, rfl, rfl, rfl, rfl, rfl, rfl, rfl,
    rfl, State.setPhase_gen .., rfl⟩

/-! ### CONFIGURE (R231) -/

/-- The block once CONFIGURE has created the pool and used up a setup draw. -/
def pooled (g : Gen) (pin : BitVec 8) (size : Nat) (draws : List Bool) (s : State) : State :=
  { s.modGen g (createPool pin size) with inputs := { s.inputs with gpioOk := draws } }

/-- The block after CONFIGURE's own step on a true draw. -/
def setUp (g : Gen) (pin : BitVec 8) (size : Nat) (draws : List Bool) (s : State) : State :=
  configured g (pooled g pin size draws s)

/-- CONFIGURE's own step on an unconfigured generator is decided by the setup draw (R233). -/
theorem exec_configure_entry (hf : s.faulted = none) (hp : s.host.phase = .entry) (hm : (s.gen g).mode = .unconfigured)
    (pin : BitVec 8) {pool : BitVec 16} (h2 : 2 ≤ pool.toNat) {ok : Bool} {draws : List Bool} (hd : s.inputs.gpioOk = ok :: draws) :
    exec (.configure g pin pool) s = .next (if ok then setUp g pin pool.toNat draws s
      else respond .hardwareSetupFailure 0 ((pooled g pin pool.toNat draws s).modGen g fun G => { G with mode := .idle })) := by
  rw [exec, execConfigure, unlessFaulted_none hf, hp]
  dsimp only
  rw [configureEntry, if_neg (not_not.2 hm), if_neg (show ¬ pool.toNat < Config.poolMin from not_lt.2 h2),
    drawGpioOk_cons (by rw [State.modGen_inputs, hd]), State.modGen_inputs]
  rfl

theorem pooled_gen (pin : BitVec 8) (n : Nat) (draws : List Bool) (s : State) :
    (pooled g pin n draws s).gen g = createPool pin n (s.gen g) := by
  cases g <;> rfl

/-- Settles O46: a false draw ends CONFIGURE with the pool created and the pin as it was. -/
theorem configureReportsGpioFailure : Obligations.ConfigureReportsGpioFailure := by
  intro g pin pool s a hf hp hm h2 hd
  refine ⟨_, exec_configure_entry hf hp hm pin h2 hd, ?_⟩
  rw [if_neg Bool.false_ne_true, respond_gen, State.gen_modGen_same, pooled_gen, respond_trace, State.modGen_trace]
  exact ⟨rfl, rfl, rfl, rfl, rfl, rfl, rfl, State.modGen_trace .., rfl, rfl⟩

/-- CONFIGURE goes on with START's entry checks. -/
theorem exec_configure_startEntry (hf : s.faulted = none) (hp : s.host.phase = .startEntry) (hm : (s.gen g).mode = .idle)
    (pin : BitVec 8) (pool : BitVec 16) : exec (.configure g pin pool) s = .next (s.setPhase (.load .bootReset .entry)) := by
  rw [exec, execConfigure, unlessFaulted_none hf, hp]
  simp only [startSteps, hp, startEntry_idle hm]

/-- CONFIGURE's generator after a true draw: the pool is there, the pin is a LOW output, and START may begin. -/
def setUpGen (pin : BitVec 8) (size : Nat) (G : GenState) : GenState :=
  { createPool pin size G with pinLevel := .low, pinMode := .output, mode := .idle }

section
variable (g : Gen) (pin : BitVec 8) (size : Nat) (draws : List Bool) (s : State)

theorem setUp_gen : (setUp g pin size draws s).gen g = setUpGen pin size (s.gen g) := by cases g <;> rfl

theorem setUp_gen_other : (setUp g pin size draws s).gen g.other = s.gen g.other := by cases g <;> rfl

theorem setUp_phase : (setUp g pin size draws s).host.phase = .startEntry := rfl

theorem setUp_faulted : (setUp g pin size draws s).faulted = s.faulted := by simp [setUp, configured, pooled]

theorem setUp_timerOk : (setUp g pin size draws s).inputs.timerOk = s.inputs.timerOk := by simp [setUp, configured, pooled]

theorem setUp_now : (setUp g pin size draws s).now = s.now := by simp [setUp, configured, pooled]

theorem setUp_trace : (setUp g pin size draws s).trace = s.trace ++ [{ time := s.now, gen := g, level := .low }] := by
  simp [setUp, configured, pooled]

end

/-- A pool of two slots or more has its first two at the head of `free`. -/
theorem range_eq_cons_cons {n : Nat} (h : 2 ≤ n) : List.range n = 0 :: 1 :: (List.range n).drop 2 := by
  obtain ⟨k, rfl⟩ := Nat.exists_eq_add_of_le' h
  simp [List.range_succ_eq_map]

/-- Two writes reach the first two slots of a new pool alone. -/
theorem write_write_replicate {n : Nat} (h : 2 ≤ n) (p q : Packet) :
    Memory.write (Memory.write (List.replicate n Packet.zero) 0 p) 1 q = [p, q] ++ List.replicate (n - 2) Packet.zero := by
  obtain ⟨k, rfl⟩ := Nat.exists_eq_add_of_le' h
  rfl

theorem read_replicate {n k : Nat} (h : k < n) : Memory.read (List.replicate n Packet.zero) k = some Packet.zero := by
  simp [Memory.read, h]

/-- Settles O45: CONFIGURE's own step, START's entry checks, then the nine steps from START's first load to the answer. -/
theorem configureBootsGenerator : Obligations.ConfigureBootsGenerator := by
  intro g pin pool s a b hf hp hm h2 hgpio htimer
  set u := setUp g pin pool.toNat a s
  set v := u.setPhase (.load .bootReset .entry)
  have hgu : u.gen g = setUpGen pin pool.toNat (s.gen g) := setUp_gen ..
  have hgv : v.gen g = setUpGen pin pool.toNat (s.gen g) := (State.setPhase_gen ..).trans hgu
  have hother : v.gen g.other = s.gen g.other := (State.setPhase_gen ..).trans (setUp_gen_other ..)
  have hfu : u.faulted = none := (setUp_faulted ..).trans hf
  have hfree : (v.gen g).free = 0 :: 1 :: (List.range pool.toNat).drop 2 := by
    rw [hgv]
    exact range_eq_cons_cons h2
  have hslot {k : Nat} (hk : k < 2) : (v.gen g).slots.read k = some Packet.zero := by
    rw [hgv]
    exact read_replicate (hk.trans_le h2)
  have hentry : exec (.configure g pin pool) s = .next u := exec_configure_entry hf hp hm pin h2 hgpio
  have hstart : exec (.configure g pin pool) u = .next v :=
    exec_configure_startEntry hfu (setUp_phase ..) (congrArg GenState.mode hgu) pin pool
  have hboot := hostSteps_boot (.inr ⟨pin, pool, rfl⟩) (s := v) hfu rfl (by rw [hgv]; nofun) hfree Nat.zero_ne_one
    (hslot Nat.zero_lt_two) (hslot Nat.one_lt_two) ((setUp_timerOk ..).trans htimer)
  refine ⟨u, _, fillPacket Packet.zero resetFrame 20, fillPacket Packet.zero idleFrame 10, hentry,
    (hostSteps_succ hstart).trans hboot, ?_⟩
  rw [booted_gen, booted_gen_other, hgv, hother, booted_trace, booted_now]
  exact ⟨rfl, rfl, rfl, write_write_replicate h2 _ _, by decide, by decide, rfl, rfl, rfl, rfl, idlePacket_ok _, rfl, rfl, rfl, rfl, rfl,
    setUp_trace .., rfl, rfl, rfl, setUp_now ..⟩

/-! ### STOP's drain (R250) -/

theorem exec_stop_drain (hf : s.faulted = none) (hp : s.host.phase = .drain) :
    exec (.stop g) s = .next (respond .ok 0 (s.modGen g drainGen)) := by
  rw [exec, execStop, unlessFaulted_none hf, hp]

theorem memory_read_write (m : Memory) (j k : Nat) (q : Packet) :
    (m.write j q).read k = if k = j then (m.read k).map fun _ => q else m.read k := by
  split
  case isTrue h => subst h; exact List.getElem?_set_self'
  case isFalse h => exact Memory.read_write_ne q h

/-- A slot reads as zeroed once it has been returned, and as before otherwise. -/
theorem foldl_returnZeroed_read (l : List Nat) (G : GenState) (k : Nat) : (l.foldl returnZeroed G).slots.read k =
    if k ∈ l then (G.slots.read k).map fun _ => Packet.zero else G.slots.read k := by
  induction l generalizing G with
  | nil => rfl
  | cons j l ih =>
    rw [List.foldl_cons, ih, returnZeroed, memory_read_write]
    by_cases hj : k = j
    · subst hj
      simp [Function.comp_def]
    · simp [hj]

theorem drainGen_read (G : GenState) (k : Nat) : (drainGen G).slots.read k =
    if k ∈ G.current.slotIndices ++ G.pending then (G.slots.read k).map fun _ => Packet.zero else G.slots.read k :=
  foldl_returnZeroed_read ..

theorem drainGen_free (G : GenState) : (drainGen G).free = G.free ++ G.current.slotIndices ++ G.pending := by
  obtain ⟨-, -, hfree, -⟩ := foldl_zero_frame (G.current.slotIndices ++ G.pending) G
  exact hfree.trans (List.append_assoc ..).symm

theorem drainGen_poolSize (G : GenState) : (drainGen G).poolSize = G.poolSize :=
  (foldl_zero_frame (G.current.slotIndices ++ G.pending) G).1

/-- With no slot in filling, the drain leaves every slot of the pool free. -/
theorem drainGen_all_free {G : GenState} (h : PoolInv G) (hn : G.filling = none) : (drainGen G).free.length = (drainGen G).poolSize := by
  have hlen : G.owned.length = G.poolSize := by rw [h.owned.length_eq, List.length_range]
  rw [drainGen_free, drainGen_poolSize, ← hlen]
  simp only [GenState.owned, hn, List.length_append, Option.toList_none, List.length_nil]
  omega

/-- A slot the drain returns exists. -/
theorem read_of_drained {G : GenState} (h : PoolInv G) {k : Nat} (hk : k ∈ G.current.slotIndices ++ G.pending) :
    ∃ p, G.slots.read k = some p := by
  refine Memory.read_isSome (GenState.mem_owned_lt h ?_)
  simp only [GenState.owned, List.mem_append] at hk ⊢
  exact hk.symm.imp_left fun hp => .inl (.inr hp)

/-- Settles O50: the drain returns the slots in order, each zeroed, and keeps the rest of the generator. -/
theorem stopReturnsZeroedPackets : Obligations.StopReturnsZeroedPackets := by
  intro g s hf hp hpool
  refine ⟨_, exec_stop_drain hf hp, ?_⟩
  rw [respond_gen, respond_gen, State.gen_modGen_same, State.gen_modGen_ne _ _ (Gen.other_ne g)]
  have hzeroed : ∀ k, k ∈ (s.gen g).current.slotIndices ++ (s.gen g).pending →
      (drainGen (s.gen g)).slots.read k = some Packet.zero := by
    intro k hk
    obtain ⟨p, hread⟩ := read_of_drained hpool hk
    rw [drainGen_read, if_pos hk, hread, Option.map_some]
  have hkept := drainGen_kept (s.gen g)
  exact ⟨rfl, rfl, drainGen_free _, hzeroed, fun k hk => (drainGen_read ..).trans (if_neg hk), hkept.idle, hkept.mode, hkept.pinLevel,
    hkept.full, hkept.pulse, State.modGen_trace .., drainGen_all_free hpool, rfl, rfl, rfl⟩

end Sys2Proof.Proofs
end

section
/-! PROOFS. The service-mode engine: the ACK decision and its threshold (R270, R273), its counters (R272), the entry step (R261), the loads of
a group (R268, R269, R282 to R284), what follows an ACK check (R282 to R285), and what a service-mode command leaves unchanged (R260, R335). -/

namespace Sys2Proof.Proofs

open Sys2Proof Sys2Proof.Machine

variable {s t : State} {i : Instr}

/-! ### The ACK decision and its threshold (R270, R273) -/

theorem ackDecide_iff {sum nOk thr : Nat} : ackDecide sum nOk thr = true ↔ 0 < nOk ∧ thr < sum / nOk := by
  rw [ackDecide, Bool.and_eq_true, decide_eq_true_iff, decide_eq_true_iff]

/-- Settles O56: for a nonzero count, `thr < sum / nOk` is `(thr + 1) * nOk ≤ sum`. -/
theorem ackDecisionInProductForm : Obligations.AckDecisionInProductForm :=
  fun _ _ _ => ⟨ackDecide_iff, ackDecide_iff.trans (and_congr_right fun hpos => Nat.le_div_iff_mul_le hpos)⟩

theorem ackThreshold_eq (m : Nat) : ackThreshold m = 245760 / m := rfl

/-- No average of 12-bit samples exceeds the threshold of a `max_ma` of at most 60 mA (R270). -/
theorem ackDecide_weak {m sum nOk : Nat} (hpos : 0 < m) (hm : m ≤ 60) (hsum : sum ≤ 4095 * nOk) :
    ackDecide sum nOk (ackThreshold m) = false := by
  have hthr : 4096 ≤ ackThreshold m := by
    rw [ackThreshold_eq, Nat.le_div_iff_mul_le hpos]
    omega
  rw [← Bool.not_eq_true, ackDecide_iff]
  rintro ⟨hn, hlt⟩
  have havg : sum / nOk ≤ 4095 := Nat.div_le_of_le_mul (by rwa [Nat.mul_comm])
  omega

/-- Settles O57: the worked values are computed, and the bound is `ackDecide_weak`. -/
theorem ackThresholdFormula : Obligations.AckThresholdFormula :=
  ⟨ackThreshold_eq, rfl, rfl, rfl, rfl, rfl, rfl, fun _ _ _ => ackDecide_weak⟩

/-! ### The loop of a command begins (R282, R283) -/

theorem smBegin_started {m : SmState} (h : m.phase ≠ .entry) : smBegin m = m := by
  unfold smBegin
  split
  · exact absurd ‹_› h
  · rfl

theorem smBegin_read {m : SmState} (h : m.phase = .entry) (ho : m.op = .readCv) :
    smBegin m = { m with acc := 0, bitIndex := 0, phase := .loadReset } := by
  rw [smBegin, h, ho]

theorem smBegin_write {m : SmState} (h : m.phase = .entry) (ho : m.op ≠ .readCv) :
    smBegin m = { m with attempt := 1, verifying := false, phase := .loadReset } := by
  rw [smBegin, h]
  cases hop : m.op with
  | readCv => exact absurd hop ho
  | none | writeByte | writeBit => rfl

/-- Every command's loop begins with a reset. -/
theorem smBegin_entry_phase {m : SmState} (h : m.phase = .entry) : (smBegin m).phase = .loadReset := by
  by_cases ho : m.op = .readCv
  · rw [smBegin_read h ho]
  · rw [smBegin_write h ho]

/-! ### The counters of an ACK check (R272) -/

/-- What a step does to the engine, as the counters of its ACK check see it. -/
inductive EngineChange (m : SmState) : SmState → Prop
  | same : EngineChange m m
  /-- the engine is outside an ACK check after the step -/
  | elsewhere {m' : SmState} (phase : m'.phase ≠ .sample) : EngineChange m m'
  /-- an ACK check begins -/
  | start : EngineChange m { m with phase := .sample, k := 0, sum := 0, nOk := 0 }
  /-- a sample is counted, one of the 250 -/
  | count (x : BitVec 12) (more : m.k < Config.adcSamples) : EngineChange m (countSample x m)

theorem smBegin_change (m : SmState) : EngineChange m (smBegin m) := by
  by_cases h : m.phase = .entry
  · exact .elsewhere (by rw [smBegin_entry_phase h]; decide)
  · rw [smBegin_started h]
    exact .same

theorem smRespond_change {v : BitVec 16} (h : smRespond v s = .next t) : EngineChange s.sm t.sm := by
  obtain rfl := smRespond_next.1 h
  exact .elsewhere nofun

theorem smEntry_change {op : SmOp} {cv : BitVec 11} {bit : BitVec 3} {value : BitVec 8} (h : smEntry op cv bit value s = .next t) :
    EngineChange s.sm t.sm := by
  obtain rfl | ⟨-, -, -, rfl⟩ := smEntry_next h
  · exact .same
  · exact .elsewhere nofun

theorem smAfterLoad_change (h : smAfterLoad s = .next t) : EngineChange s.sm t.sm := by
  obtain ⟨-, rfl⟩ | ⟨-, rfl⟩ | ⟨-, -, rfl⟩ | ⟨-, -, rfl⟩ := smAfterLoad_next h
  · exact .elsewhere nofun
  · exact .elsewhere nofun
  · exact .elsewhere nofun
  · exact .same

theorem readDecide_change {ack : Bool} (h : readDecide ack s = .next t) : EngineChange s.sm t.sm := by
  obtain ⟨-, rfl⟩ | ⟨-, h⟩ := readDecide_next h
  · exact .elsewhere nofun
  · exact smRespond_change h

theorem writeDecide_change {ack : Bool} (h : writeDecide ack s = .next t) : EngineChange s.sm t.sm := by
  obtain ⟨-, -, h⟩ | ⟨-, -, rfl⟩ | ⟨-, rfl⟩ := writeDecide_next h
  · exact smRespond_change h
  · exact .elsewhere nofun
  · exact .elsewhere nofun

theorem smSteps_change {dec : Bool → State → Result} (hd : ∀ {ack t}, dec ack s = .next t → EngineChange s.sm t.sm)
    (h : smSteps dec s = .next t) : EngineChange s.sm t.sm := by
  obtain ⟨-, h⟩ | ⟨stage, -, -, h⟩ | ⟨-, h⟩ | ⟨-, h⟩ := smSteps_next h
  · obtain ⟨-, rfl⟩ | ⟨-, rfl⟩ := smLoadEntry_next h
    · exact .same
    · exact smBegin_change s.sm
  · obtain ⟨-, h⟩ | ⟨-, h⟩ | ⟨-, h⟩ := loadStage_next h
    · obtain ⟨j, rest, -, rfl⟩ | ⟨-, rfl⟩ := loadAcquire_next h
      · simpa [acquired] using EngineChange.same
      · exact .same
    · obtain ⟨j, p, -, -, rfl⟩ := fillHeld_next.1 h
      simpa [filled] using EngineChange.same
    · obtain ⟨j, -, h⟩ := loadPublish_next.1 h
      simpa [published] using smAfterLoad_change h
  · obtain ⟨-, rfl⟩ | ⟨-, rfl⟩ := smPoll_next h
    · exact .start
    · exact .same
  · obtain ⟨hk, rfl⟩ | ⟨-, h⟩ := smSample_next h
    · exact .count _ hk
    · exact hd h

theorem writeSteps_change (h : writeSteps s = .next t) : EngineChange s.sm t.sm := by
  obtain ⟨-, h⟩ | ⟨-, h⟩ := writeSteps_next h
  · exact smRespond_change h
  · exact smSteps_change writeDecide_change h

theorem exec_engineChange (h : exec i s = .next t) : EngineChange s.sm t.sm := by
  by_cases hi : isService i
  · obtain ⟨cv, rfl⟩ | ⟨cv, v, rfl⟩ | ⟨cv, b, v, rfl⟩ := hi
    · obtain ⟨-, ⟨-, h⟩ | ⟨-, h⟩⟩ := execReadCv_next h
      · exact smEntry_change h
      · exact smSteps_change readDecide_change h
    · obtain ⟨-, ⟨-, h⟩ | ⟨-, h⟩⟩ := execWriteProgCvByte_next h
      · exact smEntry_change h
      · exact writeSteps_change h
    · obtain ⟨-, ⟨-, h⟩ | ⟨-, h⟩⟩ := execWriteProgCvBit_next h
      · exact smEntry_change h
      · exact writeSteps_change h
  · rw [exec_sm h hi]
    exact .same

theorem step_engineChange (h : step s = .next t) : EngineChange s.sm t.sm := by
  obtain ⟨-, inp, -, ⟨-, -, rfl⟩ | ⟨k, g, -, -, h⟩ | ⟨w, ws, -, -, -, h⟩ | ⟨w, -, -, h⟩⟩ := step_cases h
  · exact .same
  · exact (exec_engineChange h :)
  · exact (exec_engineChange h :)
  · exact (exec_engineChange h :)

/-- The counters' bounds as numbers. -/
theorem sampleInv_iff {m : SmState} : SampleInv m ↔ (m.phase = .sample →
    m.k.toNat ≤ 250 ∧ m.nOk.toNat ≤ m.k.toNat ∧ m.sum.toNat ≤ 4095 * m.nOk.toNat) := Iff.rfl

/-- One more read of at most 4095, below the 250th, keeps the counters within their bounds: none of them wraps. -/
theorem countSample_sampleInv {m : SmState} (h : SampleInv m) (x : BitVec 12) (hk : m.k < Config.adcSamples) :
    SampleInv (countSample x m) := by
  refine sampleInv_iff.2 fun hp => ?_
  have hphase : m.phase = .sample := by
    rw [← hp, countSample]
    split <;> rfl
  obtain ⟨-, hn, hsum⟩ := sampleInv_iff.1 h hphase
  have hk250 : m.k.toNat < 250 := hk
  have hx : x.toNat < 4096 := x.isLt
  have hk1 : (m.k + 1).toNat = m.k.toNat + 1 := by bv_omega
  have hn1 : (m.nOk + 1).toNat = m.nOk.toNat + 1 := by bv_omega
  have hs1 : (m.sum + x.setWidth 32).toNat = m.sum.toNat + x.toNat := by bv_omega
  unfold countSample
  split
  case isTrue => dsimp only; omega
  case isFalse => dsimp only; omega

theorem EngineChange.sampleInv {m m' : SmState} (hc : EngineChange m m') (h : SampleInv m) : SampleInv m' := by
  cases hc with
  | same => exact h
  | elsewhere phase => exact fun hp => absurd hp phase
  | start => exact fun _ => ⟨Nat.zero_le _, BitVec.le_refl _, Nat.zero_le _⟩
  | count x more => exact countSample_sampleInv h x more

/-- Settles O21: each step leaves the check, begins one at 0, or counts one read of the 250. -/
theorem stepKeepsSampleCounters : Obligations.StepKeepsSampleCounters := by
  refine ⟨fun s t h hs => (step_engineChange hs).sampleInv h, fun m h hp => ?_⟩
  obtain ⟨hk, hn, hsum⟩ := sampleInv_iff.1 h hp
  omega

/-! ### The entry step (R261) -/

/-- The command, with the operation and the operands its entry step gives the engine; an operand it lacks is 0 (log entry 22). -/
def EntersWith (i : Instr) (op : SmOp) (cv : BitVec 11) (bit : BitVec 3) (value : BitVec 8) : Prop :=
  i = .readCv cv ∧ op = .readCv ∧ bit = 0 ∧ value = 0 ∨ i = .writeProgCvByte cv value ∧ op = .writeByte ∧ bit = 0 ∨
    ∃ v : Bool, i = .writeProgCvBit cv bit v ∧ op = .writeBit ∧ value = if v then 1 else 0

section
variable {op : SmOp} {cv : BitVec 11} {bit : BitVec 3} {value : BitVec 8}

theorem exec_service_entry (hi : EntersWith i op cv bit value) (hf : s.faulted = none) (hp : s.host.phase = .entry) :
    exec i s = smEntry op cv bit value s := by
  obtain ⟨rfl, rfl, rfl, rfl⟩ | ⟨rfl, rfl, rfl⟩ | ⟨v, rfl, rfl, rfl⟩ := hi
  · rw [exec, execReadCv, unlessFaulted_none hf, hp]
  · rw [exec, execWriteProgCvByte, unlessFaulted_none hf, hp]
  · rw [exec, execWriteProgCvBit, unlessFaulted_none hf, hp]
    cases v <;> rfl

theorem contractCause_service (hi : EntersWith i op cv bit value) : contractCause s i = contractCause s (.readCv cv) := by
  obtain ⟨rfl, -⟩ | ⟨rfl, -⟩ | ⟨v, rfl, -⟩ := hi <;> rfl

end

theorem smEntry_legal {cv : BitVec 11} (hm : (s.gen .prog).mode ≠ .unconfigured) (hcv : cvLegal cv = true)
    (hma : s.params.maxMaProg ≠ 0) (op : SmOp) (bit : BitVec 3) (value : BitVec 8) :
    smEntry op cv bit value s = .next (smEntered op cv bit value s) := by
  rw [smEntry, if_neg hm, if_neg (by rw [hcv]; decide), if_neg hma]
  rfl

/-- Settles O52: the checks are the causes of the table, and past them every field of the engine is set. -/
theorem serviceEntrySetsEngine : Obligations.ServiceEntrySetsEngine := by
  intro i op cv bit value s hf hp hi
  refine ⟨fun hc => exec_entry_raises hf hp ?_, fun hm hmin hmax hma => ?_⟩
  · rw [contractCause_service hi]
    simpa [contractCause, or_assoc] using hc
  · rw [exec_service_entry hi hf hp, smEntry_legal hm (cvLegal_iff.2 ⟨hmin, hmax⟩) hma, smEntered, ackThreshold_eq, BitVec.ofNat_toNat]
    rfl

/-! ### The loads of a group (R268, R269, R282 to R284) -/

/-- Settles O54: the operation, and for a write the field `verifying`, select the packet and the repeats. -/
theorem groupsFollowTheProcedures : Obligations.GroupsFollowTheProcedures := by
  intro m
  refine ⟨fun ho => ?read, fun ho hv => ?byteWrite, fun ho hv => ?byteVerify, fun ho hv => ?bitWrite, fun ho hv => ?bitVerify⟩
  case read =>
    rw [smResetRepeats, smFrame, ho]
    exact ⟨rfl, if_congr BitVec.lt_def rfl rfl⟩
  case byteWrite | byteVerify | bitWrite | bitVerify =>
    rw [smResetRepeats, smFrame, ho, hv]
    exact ⟨rfl, rfl⟩

theorem smLoad_reset {m : SmState} (h : m.phase = .loadReset) : smLoad m = (resetPayload, smResetRepeats m) := by
  rw [smLoad, h]

theorem smLoad_frame {m : SmState} (h : m.phase = .loadFrame) : smLoad m = smFrame m := by
  rw [smLoad, h]

theorem smLoad_trail {m : SmState} (h : m.phase = .loadTrail) : smLoad m = (resetPayload, 3) := by
  rw [smLoad, h]

theorem exec_engine_entry (hi : isService i) (hf : s.faulted = none) (hp : s.host.phase = .load .engine .entry)
    (hm : (s.gen .prog).mode ≠ .unconfigured) :
    exec i s = .next (beginLoad .prog (smLoad (smBegin s.sm)).1 (smLoad (smBegin s.sm)).2 .engine (s.modSm smBegin)) := by
  obtain ⟨dec, he⟩ := exec_service_load hi hf hp
  rw [he, smSteps, hp]
  exact if_neg hm

/-- The block with the engine's packet published in slot `j`, which held `p`, before the engine moves on. -/
def engineLoaded (j : Nat) (rest : List Nat) (p : Packet) (s : State) : State :=
  loaded .engine j rest p
    (beginLoad .prog (smLoad (smBegin s.sm)).1 (smLoad (smBegin s.sm)).2 .engine (s.modSm smBegin))

theorem engineLoaded_prog (j : Nat) (rest : List Nat) (p : Packet) (s : State) :
    (engineLoaded j rest p s).gen .prog =
      queueSlot j rest (fillPacket p (frameOf (smLoad (smBegin s.sm)).1) (smLoad (smBegin s.sm)).2) (s.gen .prog) := rfl

theorem engineLoaded_ops (j : Nat) (rest : List Nat) (p : Packet) (s : State) : (engineLoaded j rest p s).gen .ops = s.gen .ops := rfl

theorem engineLoaded_sm (j : Nat) (rest : List Nat) (p : Packet) (s : State) : (engineLoaded j rest p s).sm = smBegin s.sm := rfl

theorem engineLoaded_resp (j : Nat) (rest : List Nat) (p : Packet) (s : State) :
    (engineLoaded j rest p s).host.resp = s.host.resp := rfl

/-- With a free slot a load of the engine takes four host steps, the last of which moves the engine on. -/
theorem hostSteps_engineLoad (hi : isService i) (hf : s.faulted = none) (hp : s.host.phase = .load .engine .entry)
    (hm : (s.gen .prog).mode ≠ .unconfigured) {j : Nat} {rest : List Nat} (hfree : (s.gen .prog).free = j :: rest) {p : Packet}
    (hr : (s.gen .prog).slots.read j = some p) (ht : smAfterLoad (engineLoaded j rest p s) = .next t) :
    hostSteps i 4 s = .next t := by
  rw [hostSteps_succ (exec_engine_entry hi hf hp hm)]
  exact hostSteps_load (site := .engine) hi hf rfl hfree hr ht

/-- Moving on writes the engine and the host's position alone. -/
theorem smAfterLoad_kept (h : smAfterLoad s = .next t) : (∀ g, t.gen g = s.gen g) ∧ t.host.resp = s.host.resp := by
  obtain ⟨-, rfl⟩ | ⟨-, rfl⟩ | ⟨-, -, rfl⟩ | ⟨-, -, rfl⟩ := smAfterLoad_next h
  all_goals exact ⟨fun g => by cases g <;> rfl, rfl⟩

theorem smAfterLoad_reset (hp : s.sm.phase = .loadReset) : smAfterLoad s = .next (s.toLoad .loadFrame) := by
  rw [smAfterLoad, hp]

theorem smAfterLoad_frame (hp : s.sm.phase = .loadFrame) :
    smAfterLoad s = .next ((s.modSm fun m => { m with phase := .wait }).setPhase .poll) := by
  rw [smAfterLoad, hp]

theorem smAfterLoad_trail (hp : s.sm.phase = .loadTrail) : smAfterLoad s = .next (if s.sm.attempt < 5
    then (s.modSm fun m => { m with attempt := m.attempt + 1, verifying := false }).toLoad .loadReset
    else s.setPhase .finish) := by
  rw [smAfterLoad, hp]
  exact (apply_ite Host.Outcome.next _ _ _).symm

/-- Settles O53: the entry step of the load, its three stages, and what the engine's phase leads to after the publication. -/
theorem serviceLoadsPublishGroups : Obligations.ServiceLoadsPublishGroups := by
  intro i s j rest p hf hi hp hm hfree hr hphase
  have hreset (h : s.sm.phase = .entry ∨ s.sm.phase = .loadReset) : (smBegin s.sm).phase = .loadReset :=
    h.elim smBegin_entry_phase fun h => by rw [smBegin_started (by rw [h]; decide), h]
  have hstarted (h : s.sm.phase = .loadFrame ∨ s.sm.phase = .loadTrail) : smBegin s.sm = s.sm :=
    smBegin_started (by obtain h | h := h <;> rw [h] <;> decide)
  obtain ⟨t, ht⟩ : HasNext (smAfterLoad (engineLoaded j rest p s)) := by
    obtain h | h | h | h := hphase
    · exact ⟨_, smAfterLoad_reset (hreset (.inl h))⟩
    · exact ⟨_, smAfterLoad_reset (hreset (.inr h))⟩
    · exact ⟨_, smAfterLoad_frame (by rw [engineLoaded_sm, hstarted (.inl h), h])⟩
    · exact ⟨_, smAfterLoad_trail (by rw [engineLoaded_sm, hstarted (.inr h), h])⟩
  obtain ⟨hgen, hresp⟩ := smAfterLoad_kept ht
  have hprog := (hgen .prog).trans (engineLoaded_prog j rest p s)
  have hafterReset (h : s.sm.phase = .entry ∨ s.sm.phase = .loadReset) :
      t.sm = { smBegin s.sm with phase := .loadFrame } ∧ t.host.phase = .load .engine .entry := by
    rw [smAfterLoad_reset (hreset h), next_inj] at ht
    subst ht
    exact ⟨rfl, rfl⟩
  refine ⟨t, hostSteps_engineLoad hi hf hp hm hfree hr ht, congrArg GenState.free hprog, congrArg GenState.pending hprog,
    congrArg GenState.filling hprog, congrArg GenState.slots hprog, hresp.trans (engineLoaded_resp ..),
    (hgen .ops).trans (engineLoaded_ops ..), fun h => ⟨smBegin_read h, fun hw => ?begin⟩, smBegin_started,
    fun h => ⟨smLoad_reset (hreset h), hafterReset h⟩, fun h => ?frame, fun h => ?trail⟩
  case begin =>
    have hbegin := smBegin_write h (by obtain hw | hw := hw <;> rw [hw] <;> decide)
    refine ⟨hbegin, ?_⟩
    obtain ⟨hsm, -⟩ := hafterReset (.inl h)
    rw [hsm, hbegin]
  case frame =>
    rw [smAfterLoad_frame (by rw [engineLoaded_sm, hstarted (.inl h), h]), next_inj] at ht
    subst ht
    rw [hstarted (.inl h)]
    exact ⟨smLoad_frame h, congrArg (fun m => { m with phase := .wait }) (hstarted (.inl h)), rfl⟩
  case trail =>
    have hsm : (engineLoaded j rest p s).sm = s.sm := hstarted (.inr h)
    rw [smAfterLoad_trail (by rw [hsm, h]), next_inj, hsm] at ht
    subst ht
    rw [hstarted (.inr h)]
    refine ⟨smLoad_trail h, fun hlt => ?_, fun hlt => ?_⟩
    · rw [if_pos hlt]
      exact ⟨congrArg (fun m => { m with attempt := m.attempt + 1, verifying := false, phase := .loadReset }) hsm, rfl⟩
    · rw [if_neg hlt]
      exact ⟨hsm, rfl⟩

/-! ### After an ACK check (R282 to R285) -/

/-- After the 250th read the check is decided (R273). -/
theorem smSample_decides (hk : 250 ≤ s.sm.k.toNat) (dec : Bool → State → Result) :
    smSample dec s = dec (ackDecide s.sm.sum.toNat s.sm.nOk.toNat s.sm.thr.toNat) s :=
  if_neg fun h => Nat.not_lt.2 hk h

theorem exec_readCv_decides (hf : s.faulted = none) (hp : s.host.phase = .sample) (hk : 250 ≤ s.sm.k.toNat) (cv : BitVec 11) :
    exec (.readCv cv) s = readDecide (ackDecide s.sm.sum.toNat s.sm.nOk.toNat s.sm.thr.toNat) s := by
  rw [exec, execReadCv, unlessFaulted_none hf, smSteps, hp]
  exact smSample_decides hk readDecide

/-- Settles O58: the bit index tells the bit groups from the byte verify. -/
theorem readCvAccumulatesAndResponds : Obligations.ReadCvAccumulatesAndResponds := by
  intro cv s ack hf hp hk hack
  rw [exec_readCv_decides hf hp hk, ← hack, readDecide]
  refine ⟨fun hbit => ?_, fun hbyte => ?_⟩
  · rw [if_pos (BitVec.lt_def.2 hbit)]
    rfl
  · rw [if_neg (show ¬ s.sm.bitIndex < 8 from Nat.not_lt.2 hbyte)]
    rfl

/-- Past its entry either write runs the steps the two share (R283, R284). -/
theorem exec_write_steps (hi : (∃ cv v, i = .writeProgCvByte cv v) ∨ ∃ cv b v, i = .writeProgCvBit cv b v) (hf : s.faulted = none)
    (hp : s.host.phase = .sample ∨ s.host.phase = .finish) : exec i s = writeSteps s := by
  obtain ⟨cv, v, rfl⟩ | ⟨cv, b, v, rfl⟩ := hi
  · rw [exec, execWriteProgCvByte, unlessFaulted_none hf]
    obtain hp | hp := hp <;> rw [hp]
  · rw [exec, execWriteProgCvBit, unlessFaulted_none hf]
    obtain hp | hp := hp <;> rw [hp]

theorem writeSteps_decides (hp : s.host.phase = .sample) (hk : 250 ≤ s.sm.k.toNat) :
    writeSteps s = writeDecide (ackDecide s.sm.sum.toNat s.sm.nOk.toNat s.sm.thr.toNat) s := by
  rw [writeSteps, smSteps, hp]
  exact smSample_decides hk writeDecide

theorem writeSteps_finish (hp : s.host.phase = .finish) : writeSteps s = smRespond 0 s := by
  rw [writeSteps, hp]

theorem writeDecide_ack_write (hv : s.sm.verifying = false) :
    writeDecide true s = .next ((s.modSm fun m => { m with verifying := true }).toLoad .loadReset) := by
  simp only [writeDecide, hv]

theorem writeDecide_ack_verify (hv : s.sm.verifying = true) : writeDecide true s = smRespond 1 s := by
  simp only [writeDecide, hv]

/-- Settles O59: the ACK and the group it answers decide, and the end after the last attempt answers false. -/
theorem writesConfirmOrRetry : Obligations.WritesConfirmOrRetry := by
  intro i s ack hf hi
  refine ⟨fun hp hk hack => ?_, fun hp => ?_⟩
  · rw [exec_write_steps hi hf (.inl hp), writeSteps_decides hp hk, ← hack]
    refine ⟨fun ha hv => ?_, fun ha hv => ?_, fun ha => ?_⟩
    · rw [ha, writeDecide_ack_write hv]
      rfl
    · rw [ha, writeDecide_ack_verify hv]
      rfl
    · rw [ha]
      rfl
  · rw [exec_write_steps hi hf (.inr hp), writeSteps_finish hp]
    rfl

/-! ### What a service-mode command leaves unchanged (R260, R335) -/

theorem service_not_actsOn (h : isService i) (g : Gen) : ¬ ActsOn i g := by
  rintro ((rfl | ⟨pin, pool, rfl⟩) | rfl | rfl | rfl) <;> simp [isService] at h

/-- A service-mode command draws ADC samples alone (R271). -/
theorem exec_service_inputs (hi : isService i) (h : exec i s = .next t) :
    t.inputs = { s.inputs with adc := t.inputs.adc, draws := t.inputs.draws } := by
  have hform := (exec_next h).2
  cases hform with
  | arm g _ _ _ _ boot => exact absurd (ActsOn.boot boot) (service_not_actsOn hi g)
  | configure g pin pool _ _ _ _ command => exact absurd (ActsOn.boot (.inr ⟨pin, pool, command⟩)) (service_not_actsOn hi g)
  | _ => simp [acquired, filled, published, stopped]

/-- Settles O60: a service-mode command names no generator, and its loads are PROG's. -/
theorem serviceLeavesOpsAlone : Obligations.ServiceLeavesOpsAlone := by
  intro i s t hi hl h
  have hacts (g) := service_not_actsOn hi g
  have hc (g) : ¬ isConfigureStep i s g := fun hg => hacts g (.boot (.inr hg.1))
  have hstop (g) : i ≠ .stop g := fun e => hacts g (.stop e)
  have hfull (g) : i ≠ .irqFull g := fun e => hacts g (.full e)
  have hpulse (g) : i ≠ .irqPulse g := fun e => hacts g (.pulse e)
  have hops := (exec_genUpdate h .ops).eq_of_ne (g := .prog) nofun (fun g ha => absurd ha (hacts g)) hl
  obtain ⟨hnow, hparams⟩ := exec_now_params h
  obtain ⟨htrace, -⟩ := exec_pinsKept h (fun g pin pool e hp => hc g ⟨⟨pin, pool, e⟩, hp⟩) hfull hpulse
  have hu := exec_genUpdate h .prog
  obtain ⟨dirPin, poolSize, pinMode, pinLevel, idle⟩ := hu.setupKept (hc _) (hfull _) (hpulse _)
  obtain ⟨mode, full, pulse⟩ := hu.mode_timers (hacts _)
  have current := hu.current (hc _) (hstop _) (hfull _)
  exact ⟨hops, hnow, htrace, hparams, exec_service_inputs hi h, mode, current, idle, full, pulse, pinLevel, pinMode, dirPin,
    poolSize, fun g r k hr => readBit_congr ((exec_genUpdate h g).stored (hc g) (hstop g) hr) k⟩

end Sys2Proof.Proofs
end
